-- ==== Sys2Proof/Word.lean ====
section
/-!
DEFINITION. The word types of the Huffman core: the widths spec/00_scope.md R5 and
spec/10_state.md R10 to R24 give its registers, records and bit sequences.
-/

namespace Sys2Proof

/-- One byte; also a symbol (R8: a symbol is one byte value) and an 8-bit register. -/
abbrev Byte := BitVec 8

/-- A 64-bit register: `FREQ[s]` and the length registers (R5: CNTW = 64). -/
abbrev Word64 := BitVec 64

/-- The frequency field of a tree node (R5: NODEFW = 72). -/
abbrev NodeFreq := BitVec 72

/-- A node handle (R5: HW = 9). -/
abbrev Handle := BitVec 9

/-- A `CBITS` register (R14: 256 bits). -/
abbrev CodeImage := BitVec 256

/-- The null handle `NULLH` (R12). -/
abbrev nullHandle : Handle := 0x1FF

/-- A bit sequence, first produced bit first (spec/00_scope.md section 6). -/
abbrev Bits := List Bool

/-- The value a host access carries: as wide as the widest element of any bank (`CBITS`, R40).
Bits above an element's own width are ignored on a write and read as 0 (log entry 13). -/
abbrev HostWord := BitVec 256

/-- A code map as a finite list: a symbol and its code (spec/10_state.md R14, the CodeMap). -/
abbrev CodeMap := List (Byte × Bits)

end Sys2Proof
end

