-- ==== Sys2Proof/Syntax.lean ====
section
/-!
DEFINITION. The commands of the core (spec/00_scope.md R3, spec/30_encoding.md R62): one
constructor per row of spec/opcode_table.json. A command has no operand (R64).
-/

namespace Sys2Proof

/-- The six commands. -/
inductive Instr where
  /-- The Frequency Counter (R87). -/
  | count
  /-- The Huffman Tree Builder (R97). -/
  | build
  /-- The Bit Codec, encode (R106). -/
  | encode
  /-- The Bit Codec, decode (R110). -/
  | decode
  /-- The Container Serializer, pack (R121). -/
  | pack
  /-- The Container Serializer, unpack (R126). -/
  | unpack
deriving DecidableEq, Repr

end Sys2Proof
end

