-- ==== Sys2Proof/Decode.lean ====
section
/-!
DEFINITION. The command word (spec/30_encoding.md R61 to R63): decoding, total on every byte and
rejecting by name, and after it the encoder, written from the same table R62.
-/

namespace Sys2Proof

/-- Why a command word selects no command. -/
inductive DecodeError where
  /-- R63: every value other than 0x01 to 0x06 is an illegal command. -/
  | illegalCommand (op : Byte)
deriving DecidableEq, Repr

/-- The operation code of a command word: all eight bits of `CMD` (R61). -/
def opField (word : Byte) : Byte := word.extractLsb' 0 8

/-- The command a command word selects (R62), or the refusal R63 gives it. -/
def decode (word : Byte) : Except DecodeError Instr :=
  match (opField word).toNat with
  | 0x01 => .ok .count
  | 0x02 => .ok .build
  | 0x03 => .ok .encode
  | 0x04 => .ok .decode
  | 0x05 => .ok .pack
  | 0x06 => .ok .unpack
  | _ => .error (.illegalCommand word)

/-- The command word of a command (R62). -/
def encode : Instr → Byte
  | .count => 0x01
  | .build => 0x02
  | .encode => 0x03
  | .decode => 0x04
  | .pack => 0x05
  | .unpack => 0x06

/-- What the decoder reads from a row of spec/opcode_table.json: a command is the 8-bit value
written to `CMD`, so the word is one byte, its bit 0 the least significant (R61). -/
def decodeTableWord (_nbits w : Nat) : Option Instr :=
  match decode (BitVec.ofNat 8 w) with
  | .ok i => some i
  | .error _ => none

end Sys2Proof
end

