-- ==== Sys2Proof/Config.lean ====
section
/-!
DEFINITION. What one instance of the core fixes (the OPEN parameters of spec/00_scope.md R5 and
spec/92_eei_decisions.md section 1) and the free values: what the spec leaves unspecified
(spec/93_implementation_defined.md U5, U6).
-/

namespace Sys2Proof

/-- The three byte buffers (R16, R17, R18). -/
inductive Buffer where
  /-- The input byte buffer `IBUF`. -/
  | ibuf
  /-- The bit buffer `BBUF`. -/
  | bbuf
  /-- The output byte buffer `OBUF`. -/
  | obuf
deriving DecidableEq, Repr

/-- The open capacities, in bytes (R5). `BUS_BINDING` and `LATENCY` are not modelled, as R5 says
(log entry 14). -/
structure Config where
  ibufBytes : Nat
  bbufBytes : Nat
  obufBytes : Nat
deriving DecidableEq, Repr

/-- The reference value 65536 of each capacity (R5). DESIGN CHOICE that reset stands at it
(log entry 5); statements range over every configuration. -/
def Config.reference : Config := ⟨65536, 65536, 65536⟩

/-- The capacity of one buffer. -/
def Config.capacity (c : Config) : Buffer → Nat
  | .ibuf => c.ibufBytes
  | .bbuf => c.bbufBytes
  | .obuf => c.obufBytes

/-- The free value of a buffer byte that nothing has written since a hardware reset (R52, U5): the
draw number, the buffer and the index. No body: nothing can be proved of its value (log entry 8). -/
opaque Config.freeByte : Nat → Buffer → Nat → Byte

/-- The free value of the 99-bit record in a node slot at or above `NODE_CNT` (R12, U6): the draw
number and the handle. No body: nothing can be proved of its value (log entry 9). -/
opaque Config.freeNode : Nat → Nat → BitVec 99

end Sys2Proof
end

