-- ==== Sys2Proof/Machine/State.lean ====
section
/-!
DEFINITION. The machine's state (spec/10_state.md R10 to R24) as plain data, its reset value
(R30), and the reasons a step can stop. The fields `config`, `script`, `replies`, `bufDraw` and
`nodeDraw` are the model's own (log entries 1, 4, 5, 8, 9).
-/

namespace Sys2Proof.Machine

open Sys2Proof

/-- The contents of a buffer: the bytes written so far, addresses strictly rising. An index that is
not listed holds what nothing has written (log entry 7). -/
abbrev Memory := List Host.Cell

/-- The canonical form of a buffer's contents: addresses strictly rise. An unlisted index stands
for "nothing written here", which no listed byte equals, so no entry is redundant. -/
abbrev Memory.wf (m : Memory) : Prop := m.Pairwise fun x y => x.1 < y.1

/-- The field KIND of a node record (R12). -/
inductive NodeKind where
  /-- KIND = 0. -/
  | leaf
  /-- KIND = 1. -/
  | internal
deriving DecidableEq, Repr

/-- A node record (R12). -/
structure Node where
  kind : NodeKind
  sym : Byte
  freq : NodeFreq
  left : Handle
  right : Handle
deriving DecidableEq, Repr

/-- One action of the host's script (R79), and the hardware reset (R175). -/
inductive HostAction where
  /-- `HostRead(bank, index)` (R140). -/
  | read (bank index : Nat)
  /-- `HostWrite(bank, index, v)` (R141 to R146). -/
  | write (bank index : Nat) (v : HostWord)
  /-- A hardware reset (R175), the one asynchronous event. -/
  | hardReset
deriving DecidableEq, Repr

/-- Why a step stops the machine. There is no such reason: R161 says that no fault leaves the core
stuck, and R178 that every command is total on every state; the errors of R150 are reports in
registers after which the machine goes on (log entry 15). -/
inductive Fault where
deriving DecidableEq, Repr

/-- Why a step answers nothing. -/
inductive Refusal where
  /-- Raised by an arm of `exec` for a command that has no meaning yet. Safe: nothing is claimed of
  such a step. No arm raises it. -/
  | notModelled (mnemonic : String)
deriving DecidableEq, Repr

/-- The architectural state (R10). `CTRL` holds nothing (R24) and so has no field. -/
structure State where
  /-- The capacities of this instance (R5); no step changes them. -/
  config : Config
  /-- `FREQ[0..255]` (R11). -/
  freq : Vector Word64 256
  /-- `NODE[0..NODE_CNT - 1]` (R12); the length is `NODE_CNT` (R13, log entry 10). -/
  nodes : List Node
  /-- `CLEN[0..255]` (R14). -/
  clen : Vector Byte 256
  /-- `CBITS[0..255]` (R14). -/
  cbits : Vector CodeImage 256
  /-- `IBUF` (R16). -/
  ibuf : Memory
  /-- `IN_LEN` (R16). -/
  inLen : Word64
  /-- `BBUF` (R17). -/
  bbuf : Memory
  /-- `BIT_LEN` (R17). -/
  bitLen : Word64
  /-- `OBUF` (R18). -/
  obuf : Memory
  /-- `OUT_LEN` (R18). -/
  outLen : Word64
  /-- `CMD` (R19). -/
  cmd : Byte
  /-- `STATUS` (R20). -/
  status : Byte
  /-- `ESTICKY` (R21). -/
  esticky : Byte
  /-- `ERR_POS` (R22). -/
  errPos : Word64
  /-- `ERR_AUX` (R23). -/
  errAux : Byte
  /-- The host actions still to come, oldest first (R79, R187; log entry 1). -/
  script : List HostAction
  /-- What the host's reads have returned, oldest first (R187; log entry 4). -/
  replies : List HostWord
  /-- Which draw of free values the never-written buffer bytes hold (U5; log entry 8). -/
  bufDraw : Nat
  /-- Which draw of free values the node slots at or above `NODE_CNT` hold (U6; log entry 9). -/
  nodeDraw : Nat
deriving DecidableEq, Repr

/-- The state right after a hardware reset (R30, R175): every register 0, no tree, nothing in the
buffers; the reference capacities (log entry 5), no script and no reply (log entries 1 and 4), the
first draws (log entries 8 and 9). -/
def State.reset : State where
  config := Config.reference
  freq := Vector.replicate 256 0
  nodes := []
  clen := Vector.replicate 256 0
  cbits := Vector.replicate 256 0
  ibuf := []
  inLen := 0
  bbuf := []
  bitLen := 0
  obuf := []
  outLen := 0
  cmd := 0
  status := 0
  esticky := 0
  errPos := 0
  errAux := 0
  script := []
  replies := []
  bufDraw := 0
  nodeDraw := 0

end Sys2Proof.Machine
end

