-- ==== Sys2Proof/Machine/Bits.lean ====
section
/-!
DEFINITION. Packing bits into bytes and integers into bytes (spec/30_encoding.md R67 to R69,
spec/20_memory.md R42, R43), the image of a code in a `CBITS` register (R81) and the packed image
of a node record (R82).
-/

namespace Sys2Proof.Machine

open Sys2Proof

/-- `ceil8(n) = (n + 7) div 8` (spec/00_scope.md section 6). -/
def ceil8 (n : Nat) : Nat := (n + 7) / 8

/-- The integer a bit sequence spells, first bit the most significant. -/
def natOfBits (b : Bits) : Nat := b.foldl (fun acc x => 2 * acc + x.toNat) 0

/-- One byte from the first eight bits of a sequence, the first bit the most significant, with
zero bits where the sequence has ended (R67). -/
def byteOfBits (b : Bits) : Byte :=
  BitVec.ofNat 8 (natOfBits (b.take 8) * 2 ^ (8 - (b.take 8).length))

/-- `PackBits` (R67): groups of eight bits, the last one padded with zero bits. -/
def packBits (b : Bits) : List Byte :=
  (List.range (ceil8 b.length)).map fun k => byteOfBits (b.drop (8 * k))

/-- Bit `i` of a byte sequence read most significant bit first (R43); past its end, 0. -/
def bitOfBytes (bs : List Byte) (i : Nat) : Bool := (bs.getD (i / 8) 0).getLsbD (7 - i % 8)

/-- `UnpackBits` (R68). -/
def unpackBits (bs : List Byte) (n : Nat) : Bits := (List.range n).map (bitOfBytes bs)

/-- `BE64` (R69): eight bytes, most significant first (R42). -/
def bytesOfNat64 (v : Nat) : List Byte :=
  (List.range 8).map fun k => BitVec.ofNat 8 (v / 2 ^ (8 * (7 - k)))

/-- `be64` (R69): the unsigned integer a byte sequence spells, most significant byte first (R42). -/
def natOfBytes (bs : List Byte) : Nat := bs.foldl (fun acc x => 256 * acc + x.toNat) 0

/-- The value of a `CBITS` register that holds the code `c`: its bits left-aligned, then zero bits
(R14, R81). A code has at most 255 bits (R14; log entry 20). -/
def codeImage (c : Bits) : CodeImage := BitVec.ofNat 256 (natOfBits c * 2 ^ (256 - c.length))

/-- The first `len` bits of a `CBITS` register, most significant bit first (R14). -/
def imageBits (len : Nat) (v : CodeImage) : Bits := (List.range len).map fun i => v.getLsbD (255 - i)

/-- The bit KIND stands for in a node record (R12). -/
def NodeKind.bit : NodeKind → BitVec 1
  | .leaf => 0
  | .internal => 1

/-- The 99-bit image of a node record (R82): KIND 98, SYM 97:90, FREQ 89:18, LEFT 17:9, RIGHT 8:0. -/
def Node.image (n : Node) : BitVec 99 :=
  (((n.kind.bit ++ n.sym) ++ n.freq) ++ n.left) ++ n.right

end Sys2Proof.Machine
end

