-- ==== Sys2Proof/Machine/Flags.lean ====
section
/-!
DEFINITION. The only flags of the core (spec/10_state.md R27): `STATUS.ERR` and `ESTICKY`; the
error kinds with their numbers, positions and auxiliary bytes (spec/30_encoding.md R83 to R85,
spec/60_exceptions.md R150).
-/

namespace Sys2Proof.Machine

open Sys2Proof

/-- The sub-reasons of MalformedContainer (R84). -/
inductive MalformedReason where
  /-- 1: fewer than 8 bytes in all. -/
  | countTruncated
  /-- 2: `symbol_count > 256`. -/
  | tooManyEntries
  /-- 3: fewer than 9 bytes remain at the start of an entry. -/
  | entryTruncated
  /-- 4: `code_bit_length` is 0 or above 255. -/
  | badCodeLength
  /-- 5: too few bytes remain for `code_bits`. -/
  | codeBitsTruncated
  /-- 6: the symbol already appeared. -/
  | duplicateSymbol
  /-- 7: one of two codes begins with the other. -/
  | codesOverlap
deriving DecidableEq, Repr

/-- The number of a MalformedContainer sub-reason (R84). -/
def MalformedReason.number : MalformedReason → Byte
  | .countTruncated => 1
  | .tooManyEntries => 2
  | .entryTruncated => 3
  | .badCodeLength => 4
  | .codeBitsTruncated => 5
  | .duplicateSymbol => 6
  | .codesOverlap => 7

/-- The sub-codes of Capacity (R85). -/
inductive CapacityReason where
  /-- 1: `IN_LEN > IBUF_BYTES`. -/
  | inputTooLong
  /-- 2: `BIT_LEN > 8 * BBUF_BYTES`. -/
  | bitsTooLong
  /-- 3: the result does not fit `BBUF`. -/
  | bitBufferFull
  /-- 4: the result does not fit `OBUF`. -/
  | outputFull
deriving DecidableEq, Repr

/-- The number of a Capacity sub-code (R85). -/
def CapacityReason.number : CapacityReason → Byte
  | .inputTooLong => 1
  | .bitsTooLong => 2
  | .bitBufferFull => 3
  | .outputFull => 4

/-- An error a command reports, with what it says of it (R150). -/
inductive CmdError where
  /-- BUILD on the empty frequency map (R151). -/
  | emptyInput
  /-- ENCODE met a byte without a code: its index and the byte (R152). -/
  | unknownSymbol (index : Nat) (sym : Byte)
  /-- UNPACK: the offset of the field at fault and the sub-reason (R153). -/
  | malformedContainer (pos : Nat) (why : MalformedReason)
  /-- DECODE: the bit index where the residual starts (R154). -/
  | ambiguousTrailingBits (start : Nat)
  /-- A `CMD` write whose value selects no command (R155). -/
  | illegalCommand (op : Byte)
  /-- A length or a result beyond its buffer: the amount required and the sub-code (R157). -/
  | capacity (required : Nat) (why : CapacityReason)
deriving DecidableEq, Repr

/-- The error code, the value of `STATUS.ERR` and the number of the sticky bit (R83). -/
def CmdError.code : CmdError → BitVec 3
  | .emptyInput => 1
  | .unknownSymbol _ _ => 2
  | .malformedContainer _ _ => 3
  | .ambiguousTrailingBits _ => 4
  | .illegalCommand _ => 5
  | .capacity _ _ => 6

/-- The value of `ERR_POS` (R22, R150). -/
def CmdError.pos : CmdError → Word64
  | .emptyInput => 0
  | .unknownSymbol i _ => BitVec.ofNat 64 i
  | .malformedContainer p _ => BitVec.ofNat 64 p
  | .ambiguousTrailingBits j => BitVec.ofNat 64 j
  | .illegalCommand _ => 0
  | .capacity n _ => BitVec.ofNat 64 n

/-- The value of `ERR_AUX` (R23, R150). -/
def CmdError.aux : CmdError → Byte
  | .emptyInput => 0
  | .unknownSymbol _ x => x
  | .malformedContainer _ r => r.number
  | .ambiguousTrailingBits _ => 0
  | .illegalCommand op => op
  | .capacity _ r => r.number

/-- The value of `STATUS` when its field `ERR` is `code`: bits 7 to 3 are 0 (R20). -/
def statusOf (code : BitVec 3) : Byte := code.setWidth 8

/-- `ESTICKY` after a command ends with the error `code`: that bit is set (R21, R158). -/
def stickySet (e : Byte) (code : BitVec 3) : Byte := e ||| (1#8 <<< code.toNat)

/-- `ESTICKY` after the host writes `v` to it: write one to clear (R143). -/
def stickyClear (e v : Byte) : Byte := e &&& ~~~v

/-- What a read of `STATUS` returns: the field `ERR`; bits 7 to 3 read as 0 (R20). -/
def statusRead (status : Byte) : Byte := status &&& 0x07

/-- What a read of `ESTICKY` returns: bits 0 and 7 read as 0 (R21). -/
def stickyRead (e : Byte) : Byte := e &&& 0x7E

end Sys2Proof.Machine
end

