-- ==== Sys2Proof/Machine/Ops.lean ====
section
/-!
DEFINITION. The named operations over buffers and registers (spec/00_scope.md section 7), how a
command ends (the core's "trap entry", spec/60_exceptions.md R158) and what the host does after it
(R160, spec/44_host_access.md R143), and the resets (R146, R175).
-/

namespace Sys2Proof.Machine

open Sys2Proof

/-- The byte listed at an index, or nothing where nothing has written. -/
def Memory.get? (m : Memory) (a : Nat) : Option Byte :=
  match m with
  | [] => none
  | (k, v) :: rest => if k = a then some v else Memory.get? rest a

/-- Write one byte, keeping the addresses strictly rising. -/
def Memory.set (m : Memory) (a : Nat) (v : Byte) : Memory :=
  match m with
  | [] => [(a, v)]
  | (k, w) :: rest =>
    if a < k then (a, v) :: (k, w) :: rest
    else if a = k then (a, v) :: rest
    else (k, w) :: Memory.set rest a v

/-- Write consecutive bytes from index `a` on, in ascending order. -/
def Memory.write (m : Memory) (a : Nat) (bs : List Byte) : Memory :=
  match bs with
  | [] => m
  | v :: rest => Memory.write (m.set a v) (a + 1) rest

/-- The contents of one buffer. -/
def bufferOf (s : State) : Buffer → Memory
  | .ibuf => s.ibuf
  | .bbuf => s.bbuf
  | .obuf => s.obuf

/-- The state with other contents of one buffer. -/
def withBuffer (s : State) (b : Buffer) (m : Memory) : State :=
  match b with
  | .ibuf => { s with ibuf := m }
  | .bbuf => { s with bbuf := m }
  | .obuf => { s with obuf := m }

/-- `space[a]`: the latest byte written there, or the free value of a byte nothing has written
(R49, R52). -/
def readByte (s : State) (b : Buffer) (a : Nat) : Byte :=
  match (bufferOf s b).get? a with
  | some v => v
  | none => Config.freeByte s.bufDraw b a

/-- `MemRead(space, a, n)` (spec/00_scope.md section 7). -/
def readBytes (s : State) (b : Buffer) (a n : Nat) : List Byte :=
  (List.range n).map fun k => readByte s b (a + k)

/-- `MemWrite(space, a, |bs|, bs)` (spec/00_scope.md section 7). -/
def writeBytes (s : State) (b : Buffer) (a : Nat) (bs : List Byte) : State :=
  withBuffer s b ((bufferOf s b).write a bs)

/-- `BitRead(space, i)`: bit `7 - (i mod 8)` of byte `space[i div 8]` (R43). -/
def bitRead (s : State) (b : Buffer) (i : Nat) : Bool :=
  (readByte s b (i / 8)).getLsbD (7 - i % 8)

/-- All 256 symbols in ascending order (R8). -/
def allSymbols : List Byte := (List.range 256).map fun k => BitVec.ofNat 8 k

/-- Read the register of a symbol in a 256-entry register file. -/
def symGet {α : Type} (v : Vector α 256) (x : Byte) : α := v[x.toNat]'x.isLt

/-- Write the register of a symbol in a 256-entry register file. -/
def symSet {α : Type} (v : Vector α 256) (x : Byte) (a : α) : Vector α 256 :=
  v.set x.toNat a x.isLt

/-- A 256-entry register file written whole, symbol by symbol. Irreducible, so that comparing two
states field by field does not unfold it; `symGet_symFill` says what it holds. -/
@[irreducible] def symFill {α : Type} (f : Byte → α) : Vector α 256 :=
  ⟨(allSymbols.map f).toArray, by simp [allSymbols]⟩

/-- The symbols, in ascending order, whose register of a 256-entry file is not 0. Read along the
file; `symbolsWith_eq` says the same by index. -/
def symbolsWith {w : Nat} (v : Vector (BitVec w) 256) : List Byte :=
  ((allSymbols.zip v.toList).filter fun e => e.2 ≠ 0).map Prod.fst

/-- The code a code map gives a symbol, if any. -/
def lookupCode (codes : CodeMap) (x : Byte) : Option Bits :=
  match codes with
  | [] => none
  | (y, c) :: rest => if y = x then some c else lookupCode rest x

/-- The `CLEN` value a code map gives a symbol: 0 where it has no code (R14). -/
def codeLength (codes : CodeMap) (x : Byte) : Byte :=
  match lookupCode codes x with
  | some c => BitVec.ofNat 8 c.length
  | none => 0

/-- The `CBITS` value a code map gives a symbol: 0 where it has no code (R14). -/
def codeBitsImage (codes : CodeMap) (x : Byte) : CodeImage :=
  match lookupCode codes x with
  | some c => codeImage c
  | none => 0

/-- Write the code table whole: every `CLEN` and every `CBITS` (R97, R126). -/
def writeCodes (s : State) (codes : CodeMap) : State :=
  { s with clen := symFill (codeLength codes), cbits := symFill (codeBitsImage codes) }

/-- Write the tree whole (R97): `NODE[0..NODE_CNT)` and `NODE_CNT`. The slots above are promised
nothing (U6), so they take the next draw of free values (log entry 9). -/
def writeTree (s : State) (nodes : List Node) : State :=
  { s with nodes := nodes, nodeDraw := s.nodeDraw + 1 }

/-- `NODE_CNT` as the 10-bit register it is (R13). -/
def nodeCount (s : State) : BitVec 10 := BitVec.ofNat 10 s.nodes.length

/-- `finish OK`: the command ends without an error (R158). -/
def finishOk (s : State) : State :=
  { s with status := statusOf 0, errPos := 0, errAux := 0 }

/-- The core's "trap entry" (R158), the one operation by which every error is reported: `raise K`
applied to the state before the command, `finish K` applied to the state with the result written.
`STATUS.ERR`, `ERR_POS` and `ERR_AUX` take the error's values and its sticky bit is set; nothing
else changes, and control is back with the host. -/
def report (e : CmdError) (s : State) : State :=
  { s with
    status := statusOf e.code
    errPos := e.pos
    errAux := e.aux
    esticky := stickySet s.esticky e.code }

/-- What stands in place of a "trap return" (R160): there is no return instruction; the host clears
the sticky bits it writes as 1, and `STATUS`, `ERR_POS`, `ERR_AUX` stay (R143). -/
def clearSticky (v : Byte) (s : State) : State :=
  { s with esticky := stickyClear s.esticky v }

/-- The soft reset (R146): every register takes its reset value, the buffers keep their contents.
Node slots become unspecified again, so they take the next draw of free values (log entry 9). -/
def softReset (s : State) : State :=
  { State.reset with
    config := s.config
    ibuf := s.ibuf
    bbuf := s.bbuf
    obuf := s.obuf
    script := s.script
    replies := s.replies
    bufDraw := s.bufDraw
    nodeDraw := s.nodeDraw + 1 }

/-- A hardware reset (R175): as the soft reset, and the buffers' contents become unspecified: the
next draw of free values (R52, log entry 8). -/
def hardReset (s : State) : State :=
  { softReset s with ibuf := [], bbuf := [], obuf := [], bufDraw := s.bufDraw + 1 }

/-- The next action of the host's script, and the state in which it is carried out; nothing while
the host makes no access (R6; log entries 1 and 2). -/
def nextAction (s : State) : Option (HostAction × State) :=
  match s.script with
  | [] => none
  | a :: rest => some (a, { s with script := rest })

end Sys2Proof.Machine
end

