-- ==== Sys2Proof/Machine/Operands.lean ====
section
/-!
DEFINITION. The operands of the commands: each has fixed, implicit ones (spec/10_state.md R33), read
when the command starts (spec/30_encoding.md R64).
-/

namespace Sys2Proof.Machine

open Sys2Proof

/-- The input byte sequence `IBUF[0..IN_LEN)` (R16). -/
def inputBytes (s : State) : List Byte := readBytes s .ibuf 0 s.inLen.toNat

/-- EncodedBits: `UnpackBits(BBUF, BIT_LEN)` (R17). -/
def encodedBits (s : State) : Bits :=
  unpackBits (readBytes s .bbuf 0 (ceil8 s.bitLen.toNat)) s.bitLen.toNat

/-- The output byte sequence `OBUF[0..OUT_LEN)` (R18). -/
def outputBytes (s : State) : List Byte := readBytes s .obuf 0 s.outLen.toNat

/-- `keys(FREQ)` in ascending order (R11). -/
def keys (freq : Vector Word64 256) : List Byte := symbolsWith freq

/-- `code(s)`: the first `CLEN[s]` bits of `CBITS[s]` (R14). -/
def codeOf (s : State) (x : Byte) : Bits := imageBits (symGet s.clen x).toNat (symGet s.cbits x)

/-- `dom(CODE)` in ascending order (R14). -/
def codeDomain (s : State) : List Byte := symbolsWith s.clen

/-- The CodeMap the code table holds, symbols ascending (R14). -/
def codeMap (s : State) : CodeMap := (codeDomain s).map fun x => (x, codeOf s x)

/-- The operand check of COUNT, ENCODE and UNPACK: `IN_LEN > IBUF_BYTES` (R48, R157 sub-code 1). -/
def inputTooLong (s : State) : Bool := s.config.ibufBytes < s.inLen.toNat

/-- The operand check of DECODE and PACK: `BIT_LEN > 8 * BBUF_BYTES` (R48, R157 sub-code 2). -/
def bitsTooLong (s : State) : Bool := 8 * s.config.bbufBytes < s.bitLen.toNat

/-- The error of the first operand check: `Capacity(IN_LEN, 1)` (R85). -/
def inputTooLongError (s : State) : CmdError := .capacity s.inLen.toNat .inputTooLong

/-- The error of the second operand check: `Capacity(BIT_LEN, 2)` (R85). -/
def bitsTooLongError (s : State) : CmdError := .capacity s.bitLen.toNat .bitsTooLong

end Sys2Proof.Machine
end

