-- ==== Sys2Proof/Machine/Build.lean ====
section
/-!
DEFINITION. BUILD, the Huffman Tree Builder (spec/41_build.md R90 to R103).
-/

namespace Sys2Proof.Machine

open Sys2Proof

/-- The leaf of a key (R91). -/
def leafNode (freq : Vector Word64 256) (x : Byte) : Node where
  kind := .leaf
  sym := x
  freq := (symGet freq x).setWidth 72
  left := nullHandle
  right := nullHandle

/-- The leaves, handles 0 to n - 1, in ascending symbol order (R91). -/
def leafNodes (freq : Vector Word64 256) : List Node := (keys freq).map (leafNode freq)

/-- A handle in the queue with the frequency of its node, `(NODE[h].FREQ, h)` (R92). -/
structure QueueEntry where
  freq : NodeFreq
  handle : Nat
deriving DecidableEq, Repr

/-- The queue order (R92): lower frequency first, among equal frequencies the lower handle. -/
def QueueEntry.before (x y : QueueEntry) : Bool :=
  x.freq < y.freq || (x.freq == y.freq && x.handle < y.handle)

/-- Insert a node into the queue, which is kept in the order of R92, so that its head is always
the least (R101: every correct priority queue extracts the same handles; log entry 17). -/
def enqueue (x : QueueEntry) : List QueueEntry → List QueueEntry
  | [] => [x]
  | y :: q => if x.before y then x :: y :: q else y :: enqueue x q

/-- Insert nodes under consecutive handles from `h` on (R91). -/
def enqueueNodes (h : Nat) (q : List QueueEntry) : List Node → List QueueEntry
  | [] => q
  | nd :: rest => enqueueNodes (h + 1) (enqueue ⟨nd.freq, h⟩ q) rest

/-- The internal node made of the first extracted entry `a`, its left child, and the second
extracted entry `b`, its right child (R93). -/
def internalNode (a b : QueueEntry) : Node where
  kind := .internal
  sym := 0
  freq := a.freq + b.freq
  left := BitVec.ofNat 9 a.handle
  right := BitVec.ofNat 9 b.handle

/-- The combination loop (R93): while two nodes are in the queue, extract the two least, make
their parent under the next free handle, and reinsert it. `rounds` bounds the loop (R184; it runs
n - 1 times; log entry 18). -/
def combine : Nat → List Node → List QueueEntry → List Node
  | rounds + 1, nodes, a :: b :: q =>
    let parent := internalNode a b
    combine rounds (nodes ++ [parent]) (enqueue ⟨parent.freq, nodes.length⟩ q)
  | _, nodes, _ => nodes

/-- The tree of a frequency map (R91 to R95): no node, one leaf, or the combined arena with its
root last. -/
def buildTree (freq : Vector Word64 256) : List Node :=
  let leaves := leafNodes freq
  combine leaves.length leaves (enqueueNodes 0 [] leaves)

/-- `assign(h, p)` (R97): the symbols of the leaves under `h` with their paths, left before right
(R96). `depth` bounds the descent (R100; log entry 18). -/
def assignCodes (nodes : List Node) : Nat → Nat → Bits → CodeMap
  | 0, _, _ => []
  | depth + 1, h, p =>
    match nodes[h]? with
    | none => []
    | some nd =>
      match nd.kind with
      | .leaf => [(nd.sym, p)]
      | .internal =>
        assignCodes nodes depth nd.left.toNat (p ++ [false]) ++
          assignCodes nodes depth nd.right.toNat (p ++ [true])

/-- The code map BUILD derives from the keys and the tree: empty (R95), the one-bit code `0` of a
lone symbol (R94), or the paths from the root (R96). -/
def buildCodes (ks : List Byte) (nodes : List Node) : CodeMap :=
  match ks with
  | [] => []
  | [x] => [(x, [false])]
  | _ => assignCodes nodes nodes.length (nodes.length - 1) []

/-- The state with BUILD's result written: the tree and the code table, both whole (R97). -/
def writeBuild (s : State) : State :=
  let tree := buildTree s.freq
  writeTree (writeCodes s (buildCodes (keys s.freq) tree)) tree

/-- The command BUILD (R97): the result is written; the empty map is reported as well (R95). -/
def execBuild (s : State) : Host.Outcome State Fault Refusal :=
  if (keys s.freq).isEmpty then .next (report .emptyInput (writeBuild s))
  else .next (finishOk (writeBuild s))

end Sys2Proof.Machine
end

