-- ==== Sys2Proof/Machine/Codec.lean ====
section
/-!
DEFINITION. ENCODE and DECODE, the Bit Codec (spec/42_codec.md R105 to R115).
-/

namespace Sys2Proof.Machine

open Sys2Proof

/-- `encode` (R105): the codes of the bytes, in input order. -/
def encodeBytes (code : Byte → Bits) (bs : List Byte) : Bits := bs.flatMap code

/-- ENCODE's check pass (R106) from index `i` with `total` bits so far: the first byte without a
code, or the number of bits of the whole encoding. -/
def encodedLength (s : State) : List Byte → Nat → Nat → Except CmdError Nat
  | [], _, total => .ok total
  | x :: rest, i, total =>
    if symGet s.clen x = 0 then .error (.unknownSymbol i x)
    else encodedLength s rest (i + 1) (total + (symGet s.clen x).toNat)

/-- ENCODE's write pass (R106): the packed bits into `BBUF` and their number into `BIT_LEN`. -/
def writeEncoded (s : State) (bits : Bits) : State :=
  { writeBytes s .bbuf 0 (packBits bits) with bitLen := BitVec.ofNat 64 bits.length }

/-- The command ENCODE (R106). -/
def execEncode (s : State) : Host.Outcome State Fault Refusal :=
  if inputTooLong s then .next (report (inputTooLongError s) s)
  else
    match encodedLength s (inputBytes s) 0 0 with
    | .error e => .next (report e s)
    | .ok total =>
      if 8 * s.config.bbufBytes < total then .next (report (.capacity total .bitBufferFull) s)
      else .next (finishOk (writeEncoded s (encodeBytes (codeOf s) (inputBytes s))))

/-- What a scan of a bit sequence gives (R108): the emitted bytes, the residual, and the position
of the residual's first bit. -/
structure Scan where
  out : List Byte
  cand : Bits
  start : Nat
deriving DecidableEq, Repr

/-- The reverse map (R109): the symbol whose code is exactly the candidate. In a table that is not
free of overlapping codes, which no run reaches, the lowest such symbol (log entry 19). -/
def symbolOfCode (codes : CodeMap) (cand : Bits) : Option Byte :=
  match codes with
  | [] => none
  | (x, c) :: rest => if c = cand then some x else symbolOfCode rest cand

/-- The scan of `decode` (R108) from bit `j` on, with the candidate so far and its start. -/
def scanBits (codes : CodeMap) : Bits → Nat → Bits → Nat → Scan
  | [], _, cand, start => ⟨[], cand, start⟩
  | b :: rest, j, cand, start =>
    let start' := if cand.isEmpty then j else start
    match symbolOfCode codes (cand ++ [b]) with
    | some x =>
      let r := scanBits codes rest (j + 1) [] start'
      { r with out := x :: r.out }
    | none => scanBits codes rest (j + 1) (cand ++ [b]) start'

/-- `decode` (R108). -/
def decodeBits (codes : CodeMap) (bits : Bits) : Scan := scanBits codes bits 0 [] 0

/-- The state with decoded bytes written to `OBUF` and their number to `OUT_LEN`. -/
def writeOutput (s : State) (bs : List Byte) : State :=
  { writeBytes s .obuf 0 bs with outLen := BitVec.ofNat 64 bs.length }

/-- The command DECODE (R110): a residual is reported after the bytes before it are written
(R111). -/
def execDecode (s : State) : Host.Outcome State Fault Refusal :=
  if bitsTooLong s then .next (report (bitsTooLongError s) s)
  else
    let r := decodeBits (codeMap s) (encodedBits s)
    if s.config.obufBytes < r.out.length then
      .next (report (.capacity r.out.length .outputFull) s)
    else if r.cand.isEmpty then .next (finishOk (writeOutput s r.out))
    else .next (report (.ambiguousTrailingBits r.start) (writeOutput s r.out))

end Sys2Proof.Machine
end

