-- ==== Sys2Proof/Machine/Container.lean ====
section
/-!
DEFINITION. PACK and UNPACK, the Container Serializer (spec/43_container.md R120 to R129), over the
container layout of spec/30_encoding.md R70 to R78.
-/

namespace Sys2Proof.Machine

open Sys2Proof

/-- One entry of a container's code table (R72): symbol, bit length, code bits. -/
def packEntry (e : Byte × Bits) : List Byte :=
  e.1 :: (bytesOfNat64 e.2.length ++ packBits e.2)

/-- `pack` (R120): the symbol count, the entries in the map's order, the padded payload. -/
def packContainer (codes : CodeMap) (bits : Bits) : List Byte :=
  bytesOfNat64 codes.length ++ codes.flatMap packEntry ++ packBits bits

/-- The size of the container PACK writes (R75). -/
def containerSize (s : State) : Nat :=
  8 + ((codeDomain s).map fun x => 9 + ceil8 (symGet s.clen x).toNat).sum + ceil8 s.bitLen.toNat

/-- The command PACK (R121); entries in ascending symbol order (R77). -/
def execPack (s : State) : Host.Outcome State Fault Refusal :=
  if bitsTooLong s then .next (report (bitsTooLongError s) s)
  else if s.config.obufBytes < containerSize s then
    .next (report (.capacity (containerSize s) .outputFull) s)
  else .next (finishOk (writeOutput s (packContainer (codeMap s) (encodedBits s))))

/-- Whether one of two codes begins with the other (R84 sub-reason 7). -/
def codesClash (c d : Bits) : Bool := c.isPrefixOf d || d.isPrefixOf c

/-- The entries of a container's code table (R124): `count` of them still to be read, at offset
`p`, after the entries of `tab`. The answer is the table and the payload's offset, or the error of
the first failing check. -/
def parseEntries (bs : List Byte) : Nat → Nat → CodeMap → Except CmdError (CodeMap × Nat)
  | 0, p, tab => .ok (tab, p)
  | count + 1, p, tab =>
    if bs.length < p + 9 then .error (.malformedContainer p .entryTruncated)
    else
      let x := bs.getD p 0
      let len := natOfBytes ((bs.drop (p + 1)).take 8)
      if len = 0 ∨ 255 < len then .error (.malformedContainer (p + 1) .badCodeLength)
      else if bs.length < p + 9 + ceil8 len then
        .error (.malformedContainer (p + 9) .codeBitsTruncated)
      else
        let c := unpackBits ((bs.drop (p + 9)).take (ceil8 len)) len
        if tab.any fun e => e.1 == x then .error (.malformedContainer p .duplicateSymbol)
        else if tab.any fun e => codesClash e.2 c then
          .error (.malformedContainer p .codesOverlap)
        else parseEntries bs count (p + 9 + ceil8 len) (tab ++ [(x, c)])

/-- `parse` (R124): the code table and the payload's offset, or the first error. -/
def parseContainer (bs : List Byte) : Except CmdError (CodeMap × Nat) :=
  if bs.length < 8 then .error (.malformedContainer 0 .countTruncated)
  else
    let count := natOfBytes (bs.take 8)
    if 256 < count then .error (.malformedContainer 0 .tooManyEntries)
    else parseEntries bs count 8 []

/-- The state with UNPACK's result written: the code table whole, the payload bytes into `BBUF`,
and their padded number of bits into `BIT_LEN` (R126). -/
def writeUnpacked (s : State) (codes : CodeMap) (payload : List Byte) : State :=
  { writeBytes (writeCodes s codes) .bbuf 0 payload with
    bitLen := BitVec.ofNat 64 (8 * payload.length) }

/-- The command UNPACK (R126). -/
def execUnpack (s : State) : Host.Outcome State Fault Refusal :=
  if inputTooLong s then .next (report (inputTooLongError s) s)
  else
    match parseContainer (inputBytes s) with
    | .error e => .next (report e s)
    | .ok (codes, p) =>
      let payload := (inputBytes s).drop p
      if s.config.bbufBytes < payload.length then
        .next (report (.capacity (8 * payload.length) .bitBufferFull) s)
      else .next (finishOk (writeUnpacked s codes payload))

end Sys2Proof.Machine
end

