-- ==== Sys2Proof/Machine/Count.lean ====
section
/-!
DEFINITION. COUNT, the Frequency Counter (spec/40_count.md R86 to R89).
-/

namespace Sys2Proof.Machine

open Sys2Proof

/-- `FREQ[s] <- FREQ[s] + 1` (R87). -/
def countByte (freq : Vector Word64 256) (x : Byte) : Vector Word64 256 :=
  symSet freq x (symGet freq x + 1)

/-- `count` (R86), as R87 computes it: every counter 0, then one increment for each byte. -/
def countBytes (bs : List Byte) : Vector Word64 256 :=
  bs.foldl countByte (Vector.replicate 256 0)

/-- The command COUNT (R87). -/
def execCount (s : State) : Host.Outcome State Fault Refusal :=
  if inputTooLong s then .next (report (inputTooLongError s) s)
  else .next (finishOk { s with freq := countBytes (inputBytes s) })

end Sys2Proof.Machine
end

