-- ==== Sys2Proof/Machine/HostAccess.lean ====
section
/-!
DEFINITION. Host accesses (spec/44_host_access.md R140 to R148) over the eight banks of
spec/20_memory.md R40 and R41.
-/

namespace Sys2Proof.Machine

open Sys2Proof

/-- The scalar registers of bank 0 (R41). -/
inductive ScalarReg where
  | cmd
  | status
  | esticky
  | errPos
  | errAux
  | ctrl
  | inLen
  | bitLen
  | outLen
  | nodeCnt
deriving DecidableEq, Repr

/-- An element a host access can name (R40). -/
inductive Location where
  /-- Bank 0. -/
  | scalar (r : ScalarReg)
  /-- Bank 1: `FREQ[s]`. -/
  | freq (x : Byte)
  /-- Bank 2: `CLEN[s]`. -/
  | clen (x : Byte)
  /-- Bank 3: `CBITS[s]`. -/
  | cbits (x : Byte)
  /-- Bank 4: `NODE[h]`. -/
  | node (h : Nat)
  /-- Banks 5, 6 and 7: a byte of `IBUF`, `BBUF` or `OBUF`. -/
  | byte (b : Buffer) (a : Nat)
deriving DecidableEq, Repr

/-- The register at an index of bank 0 (R41); indices 0x0A and above are unassigned. -/
def scalarAt (index : Nat) : Option ScalarReg :=
  match index with
  | 0x00 => some .cmd
  | 0x01 => some .status
  | 0x02 => some .esticky
  | 0x03 => some .errPos
  | 0x04 => some .errAux
  | 0x05 => some .ctrl
  | 0x06 => some .inLen
  | 0x07 => some .bitLen
  | 0x08 => some .outLen
  | 0x09 => some .nodeCnt
  | _ => none

/-- An element of a bank indexed by a symbol (R40: index range 0 to 255). -/
def symbolAt (index : Nat) : Option Byte :=
  if index < 256 then some (BitVec.ofNat 8 index) else none

/-- A byte of a buffer (R40: index range 0 to its capacity less 1). -/
def byteAt (c : Config) (b : Buffer) (index : Nat) : Option Location :=
  if index < c.capacity b then some (.byte b index) else none

/-- The element that (bank, index) names, or nothing where no element is (R40, R41, R47). -/
def locate (c : Config) (bank index : Nat) : Option Location :=
  match bank with
  | 0 => (scalarAt index).map .scalar
  | 1 => (symbolAt index).map .freq
  | 2 => (symbolAt index).map .clen
  | 3 => (symbolAt index).map .cbits
  | 4 => if index < 511 then some (.node index) else none
  | 5 => byteAt c .ibuf index
  | 6 => byteAt c .bbuf index
  | 7 => byteAt c .obuf index
  | _ => none

/-- The value of a scalar register as the host reads it (R41). -/
def readScalar (s : State) : ScalarReg → HostWord
  | .cmd => s.cmd.setWidth 256
  | .status => (statusRead s.status).setWidth 256
  | .esticky => (stickyRead s.esticky).setWidth 256
  | .errPos => s.errPos.setWidth 256
  | .errAux => s.errAux.setWidth 256
  | .ctrl => 0
  | .inLen => s.inLen.setWidth 256
  | .bitLen => s.bitLen.setWidth 256
  | .outLen => s.outLen.setWidth 256
  | .nodeCnt => (nodeCount s).setWidth 256

/-- The 99-bit image of a node slot; a slot at or above `NODE_CNT` holds a free value (R12, U6). -/
def readNode (s : State) (h : Nat) : BitVec 99 :=
  match s.nodes[h]? with
  | some nd => nd.image
  | none => Config.freeNode s.nodeDraw h

/-- The value of an element as the host reads it (R140). -/
def readLocation (s : State) : Location → HostWord
  | .scalar r => readScalar s r
  | .freq x => (symGet s.freq x).setWidth 256
  | .clen x => (symGet s.clen x).setWidth 256
  | .cbits x => symGet s.cbits x
  | .node h => (readNode s h).setWidth 256
  | .byte b a => (readByte s b a).setWidth 256

/-- `HostRead(bank, index)` (R140); where no element is, 0 (R47, log entry 12). -/
def hostRead (s : State) (bank index : Nat) : HostWord :=
  match locate s.config bank index with
  | some l => readLocation s l
  | none => 0

/-- A `CMD` write (R142): the value is stored, then the command it selects runs to completion, or
IllegalCommand is reported (R63, R155). -/
def startCommand (v : Byte) (s : State) : Host.Outcome State Fault Refusal :=
  let s' := { s with cmd := v }
  match decode v with
  | .ok i => exec i s'
  | .error (.illegalCommand op) => .next (report (.illegalCommand op) s')

/-- A `CTRL` write (R24, R146): bit 0 set performs the soft reset, every other bit is ignored. -/
def writeCtrl (v : Byte) (s : State) : State := if v.getLsbD 0 then softReset s else s

/-- A write to a scalar register (R141 to R146); read-only registers ignore it (R144). -/
def writeScalar (r : ScalarReg) (v : HostWord) (s : State) : Host.Outcome State Fault Refusal :=
  match r with
  | .cmd => startCommand (v.setWidth 8) s
  | .esticky => .next (clearSticky (v.setWidth 8) s)
  | .ctrl => .next (writeCtrl (v.setWidth 8) s)
  | .inLen => .next { s with inLen := v.setWidth 64 }
  | .bitLen => .next { s with bitLen := v.setWidth 64 }
  | .status => .next s
  | .errPos => .next s
  | .errAux => .next s
  | .outLen => .next s
  | .nodeCnt => .next s

/-- A write to an element (R141); elements of the read-only banks ignore it (R144). -/
def writeLocation (l : Location) (v : HostWord) (s : State) : Host.Outcome State Fault Refusal :=
  match l with
  | .scalar r => writeScalar r v s
  | .freq x => .next { s with freq := symSet s.freq x (v.setWidth 64) }
  | .clen _ => .next s
  | .cbits _ => .next s
  | .node _ => .next s
  | .byte .ibuf a => .next (writeBytes s .ibuf a [v.setWidth 8])
  | .byte .bbuf a => .next (writeBytes s .bbuf a [v.setWidth 8])
  | .byte .obuf _ => .next s

/-- `HostWrite(bank, index, v)` (R141 to R146); where no element is, ignored (R47, R144, log entry
12). -/
def hostWrite (bank index : Nat) (v : HostWord) (s : State) : Host.Outcome State Fault Refusal :=
  match locate s.config bank index with
  | some l => writeLocation l v s
  | none => .next s

/-- Carry out one action of the host. -/
def perform (a : HostAction) (s : State) : Host.Outcome State Fault Refusal :=
  match a with
  | .read bank index => .next { s with replies := s.replies ++ [hostRead s bank index] }
  | .write bank index v => hostWrite bank index v s
  | .hardReset => .next (hardReset s)

end Sys2Proof.Machine
end

