-- ==== Sys2Proof/Machine/Step.lean ====
section
/-!
DEFINITION. One step of the model: one host access, with the whole command it starts
(spec/00_scope.md R6, spec/20_memory.md R49).
-/

namespace Sys2Proof.Machine

open Sys2Proof

/-- One step: the next action of the host's script. While the host makes no access the core is idle
and nothing changes (R6; log entry 2). -/
def step (s : State) : Host.Outcome State Fault Refusal :=
  match nextAction s with
  | none => .next s
  | some (a, s') => perform a s'

/-- The state in which the next host access is the `CMD` write of a command word: the core fetches
nothing (R25), so this is where a step takes its next command from (log entry 3). -/
def State.withFetchWord (s : State) (_nbits w : Nat) : State :=
  { s with script := .write 0 0x00 (BitVec.ofNat 256 w) :: s.script }

end Sys2Proof.Machine
end

