-- ==== Sys2Proof/Machine/Script.lean ====
section
/-!
DEFINITION. The notation of host scripts (spec/30_encoding.md R79) and the pseudo-commands (R80):
each is a list of host actions.
-/

namespace Sys2Proof.Machine

open Sys2Proof

/-- The index of a scalar register in bank 0 (R41). -/
def ScalarReg.index : ScalarReg → Nat
  | .cmd => 0x00
  | .status => 0x01
  | .esticky => 0x02
  | .errPos => 0x03
  | .errAux => 0x04
  | .ctrl => 0x05
  | .inLen => 0x06
  | .bitLen => 0x07
  | .outLen => 0x08
  | .nodeCnt => 0x09

/-- `WR <reg>, <value>` (R79). -/
def scriptWr (r : ScalarReg) (v : HostWord) : List HostAction := [.write 0 r.index v]

/-- `WR FREQ[<s>], <value>` (R79). -/
def scriptWrFreq (x : Byte) (v : HostWord) : List HostAction := [.write 1 x.toNat v]

/-- The writes of consecutive bytes to a bank, ascending (R79). -/
def scriptWrBytes (bank offset : Nat) : List Byte → List HostAction
  | [] => []
  | b :: rest => .write bank offset (b.setWidth 256) :: scriptWrBytes bank (offset + 1) rest

/-- `WRB IBUF, <offset>, <bytes>` (R79). -/
def scriptWrbInput (offset : Nat) (bs : List Byte) : List HostAction := scriptWrBytes 5 offset bs

/-- `WRB BBUF, <offset>, <bytes>` (R79). -/
def scriptWrbBits (offset : Nat) (bs : List Byte) : List HostAction := scriptWrBytes 6 offset bs

/-- `RD <reg>` (R79). -/
def scriptRd (r : ScalarReg) : List HostAction := [.read 0 r.index]

/-- `RD FREQ[s]` (R79). -/
def scriptRdFreq (x : Byte) : List HostAction := [.read 1 x.toNat]

/-- `RD CLEN[s]` (R79). -/
def scriptRdLength (x : Byte) : List HostAction := [.read 2 x.toNat]

/-- `RD CBITS[s]` (R79). -/
def scriptRdImage (x : Byte) : List HostAction := [.read 3 x.toNat]

/-- `RD NODE[h]` (R79). -/
def scriptRdNode (h : Nat) : List HostAction := [.read 4 h]

/-- `RDB OBUF, <offset>, <n>` (R79). -/
def scriptRdbOutput (offset n : Nat) : List HostAction :=
  (List.range n).map fun k => .read 7 (offset + k)

/-- A command name in a script: a write of its code to `CMD` (R79). -/
def scriptCommand (i : Instr) : List HostAction := scriptWr .cmd ((encode i).setWidth 256)

/-- `SRST` (R79). -/
def scriptSoftReset : List HostAction := scriptWr .ctrl 0x01

/-- `CLRE <mask>` (R79). -/
def scriptClearErrors (mask : HostWord) : List HostAction := scriptWr .esticky mask

/-- The pseudo-command COMPRESS (R80): `COUNT; BUILD; ENCODE; PACK`. -/
def scriptCompress : List HostAction :=
  scriptCommand .count ++ scriptCommand .build ++ scriptCommand .encode ++ scriptCommand .pack

/-- The pseudo-command DECOMPRESS (R80): `UNPACK; DECODE`. -/
def scriptDecompress : List HostAction := scriptCommand .unpack ++ scriptCommand .decode

end Sys2Proof.Machine
end

