-- ==== Sys2Proof/WellFormed.lean ====
section
/-!
DEFINITION. The checks on terms: commands, configurations and host actions.
-/

namespace Sys2Proof

/-- A command has no operand field (spec/30_encoding.md R64), so there is nothing in it to check. -/
def Instr.wellFormed : Instr → Bool
  | .count => true
  | .build => true
  | .encode => true
  | .decode => true
  | .pack => true
  | .unpack => true

/-- A configuration the spec admits: each capacity is 1 to 2^48 bytes (spec/00_scope.md R5). -/
def Config.wellFormed (c : Config) : Bool :=
  [c.ibufBytes, c.bbufBytes, c.obufBytes].all fun n => 1 ≤ n && n ≤ 2 ^ 48

namespace Machine

/-- A host action that names an element that is there (spec/20_memory.md R40, R41). The others have
a meaning all the same (R47); this is the check of a cautious script (U12, log entry 12). -/
def HostAction.wellFormed (c : Config) : HostAction → Bool
  | .read bank index => (locate c bank index).isSome
  | .write bank index _ => (locate c bank index).isSome
  | .hardReset => true

end Machine

end Sys2Proof
end

