-- ==== Sys2Proof/Safety.lean ====
section
/-!
DEFINITION. What holds of the core between two steps, and what counts as a safe run, in the terms
the statements use (spec/10_state.md R15, R32; spec/60_exceptions.md R161).
-/

namespace Sys2Proof.Machine

open Sys2Proof

/-- The invariants of `CODE` (R15): (a) every code present has 1 to 255 bits; (b) no code begins
another's; (c) the unused bits of every `CBITS[s]` are 0. -/
def CodeInv (s : State) : Prop :=
  (∀ x, symGet s.clen x ≠ 0 → 1 ≤ (codeOf s x).length ∧ (codeOf s x).length ≤ 255) ∧
  (∀ x y, x ≠ y → symGet s.clen x ≠ 0 → symGet s.clen y ≠ 0 → ¬ codeOf s x <+: codeOf s y) ∧
  (∀ x i, i < 256 - (symGet s.clen x).toNat → (symGet s.cbits x).getLsbD i = false)

/-- The frequency of the node in slot `h`, as a number; 0 where there is no node. -/
def freqAt (nodes : List Node) (h : Nat) : Nat :=
  match nodes[h]? with
  | some nd => nd.freq.toNat
  | none => 0

/-- Slot `h` holds an internal node with the children `a` (left) and `b` (right). -/
def HasChildren (nodes : List Node) (h a b : Nat) : Prop :=
  ∃ nd, nodes[h]? = some nd ∧ nd.kind = .internal ∧ nd.left.toNat = a ∧ nd.right.toNat = b

/-- `c` is a child of the internal node in slot `h`. -/
def IsChild (nodes : List Node) (h c : Nat) : Prop :=
  ∃ a b, HasChildren nodes h a b ∧ (c = a ∨ c = b)

/-- The order of the queue on handles (R92): the pair (`NODE[h].FREQ`, `h`), lexicographically. -/
def LessFrequent (nodes : List Node) (h k : Nat) : Prop :=
  freqAt nodes h < freqAt nodes k ∨ (freqAt nodes h = freqAt nodes k ∧ h < k)

/-- The invariants of `TREE` (R32), with `m = NODE_CNT` and `n = (m + 1) div 2`. -/
def TreeInv (nodes : List Node) : Prop :=
  nodes ≠ [] →
    -- (a)
    nodes.length % 2 = 1 ∧ 1 ≤ (nodes.length + 1) / 2 ∧ (nodes.length + 1) / 2 ≤ 256 ∧
    -- (b)
    (∀ h < (nodes.length + 1) / 2, ∃ nd, nodes[h]? = some nd ∧ nd.kind = .leaf ∧
      nd.left = nullHandle ∧ nd.right = nullHandle) ∧
    (∀ h k x y, h < k → k < (nodes.length + 1) / 2 → nodes[h]? = some x → nodes[k]? = some y →
      x.sym.toNat < y.sym.toNat) ∧
    -- (c) and (d)
    (∀ h, (nodes.length + 1) / 2 ≤ h → h < nodes.length → ∃ nd, nodes[h]? = some nd ∧
      nd.kind = .internal ∧ nd.sym = 0 ∧ nd.left.toNat < h ∧ nd.right.toNat < h ∧
      nd.left ≠ nd.right ∧
      nd.freq.toNat = freqAt nodes nd.left.toNat + freqAt nodes nd.right.toNat) ∧
    -- (e)
    (∀ c, c + 1 < nodes.length →
      ∃ h, IsChild nodes h c ∧ ∀ k, IsChild nodes k c → k = h) ∧
    ∀ h, ¬ IsChild nodes h (nodes.length - 1)

/-- The buffers are in canonical form and list nothing outside their capacity. -/
def BufferInv (s : State) : Prop :=
  ∀ b, (bufferOf s b).wf ∧ ∀ e ∈ bufferOf s b, e.1 < s.config.capacity b

/-- The status registers are legal: `STATUS.ERR` is never 7 and the reserved bits of `STATUS` are 0
(R20, U11), bits 0 and 7 of `ESTICKY` are 0 (R21), and `ERR_POS` and `ERR_AUX` are 0 when `ERR` is
(R22, R23). -/
def StatusInv (s : State) : Prop :=
  s.status.toNat ≤ 6 ∧ s.esticky.getLsbD 0 = false ∧ s.esticky.getLsbD 7 = false ∧
  (s.status = 0 → s.errPos = 0 ∧ s.errAux = 0)

/-- No error has been reported since the sticky bits were last clear: what a statement about a
whole script asks at its end (R161). -/
def CleanRun (s : State) : Prop := s.esticky = 0

/-- The last command ended without an error (R158, `finish OK`). -/
def Succeeded (s : State) : Prop := s.status = 0 ∧ s.errPos = 0 ∧ s.errAux = 0

/-- `t` is how a command that started in `s` may end (R158): without an error and with `ESTICKY` as
it was; with a report of a kind that delivers no result, and then nothing but the status registers
differs; or with a report of EmptyInput or AmbiguousTrailingBits. In the last two the sticky bit of
the kind is set and no other. -/
def EndsAsCommandsDo (s t : State) : Prop :=
  (Succeeded t ∧ t.esticky = s.esticky) ∨
  (∃ k : Nat, k ∈ [2, 3, 5, 6] ∧ t.status = BitVec.ofNat 8 k ∧
    t.esticky = s.esticky ||| (1#8 <<< k) ∧
    t = { s with
      status := t.status, errPos := t.errPos, errAux := t.errAux, esticky := t.esticky }) ∨
  ∃ k : Nat, k ∈ [1, 4] ∧ t.status = BitVec.ofNat 8 k ∧ t.esticky = s.esticky ||| (1#8 <<< k)

/-- `bs` is the code table of a container (R70, R72) whose entries are those of `codes`, in that
order, whatever the unused low bits of the last byte of each `code_bits` field hold (U9). -/
def TableBytes : CodeMap → List Byte → Prop
  | [], bs => bs = []
  | (x, c) :: rest, bs => ∃ body tail,
      bs = x :: (bytesOfNat64 c.length ++ (body ++ tail)) ∧ body.length = ceil8 c.length ∧
      unpackBits body c.length = c ∧ TableBytes rest tail

/-- A code map as a container may list it (R84 sub-reasons 4, 6 and 7 do not apply): 1 to 255 bits
each, no symbol twice, no code beginning another. -/
def ListsCodeMap (codes : CodeMap) : Prop :=
  (∀ e ∈ codes, 1 ≤ e.2.length ∧ e.2.length ≤ 255) ∧
  codes.Pairwise fun e f => e.1 ≠ f.1 ∧ ¬ e.2 <+: f.2 ∧ ¬ f.2 <+: e.2

/-- Every byte of a buffer from index `n` on reads in `t` as it reads in `s`. -/
def SameFrom (b : Buffer) (n : Nat) (s t : State) : Prop :=
  ∀ a, n ≤ a → readByte t b a = readByte s b a

/-- The total number of bits all the occurrences of all symbols take:
`sum over s of FREQ[s] * CLEN[s]` (R99), for lengths given by `len`. -/
def weightedLength (freq : Vector Word64 256) (len : Byte → Nat) : Nat :=
  (allSymbols.map fun x => (symGet freq x).toNat * len x).sum

end Sys2Proof.Machine
end

