-- ==== Sys2Proof/Certificates/Slice0/Obligations.lean ====
section
/-!
DEFINITION. The statements for the provers. Each docstring names the rule of spec/ it formalises; a
statement that rests on a choice of the model names the log entry. The fields `script` and `replies`
of a host's accesses are the model's own wherever they stand (log entries 1 and 4). No statement
depends on the value of a free byte or a free node: each holds whatever they are.
-/

open Sys2Proof Sys2Proof.Machine

/-! ## The command word -/

/-- The six command codes of R62, word by word. -/
def Obligations.CommandCodesDecode : Prop :=
  decode 0x01 = .ok .count ∧ decode 0x02 = .ok .build ∧ decode 0x03 = .ok .encode ∧
  decode 0x04 = .ok .decode ∧ decode 0x05 = .ok .pack ∧ decode 0x06 = .ok .unpack

/-- Decoding and encoding a command agree, and every other word is refused by name (R61 to R63). -/
def Obligations.CommandWordRoundTrip : Prop :=
  (∀ i : Instr, decode (encode i) = .ok i) ∧
  (∀ w i, decode w = .ok i → encode i = w) ∧
  ∀ w : Byte, w.toNat = 0 ∨ 7 ≤ w.toNat → decode w = .error (.illegalCommand w)

/-! ## Bits and bytes -/

/-- R68: unpacking what packing gives returns the bits, and unpacking all of its bytes returns the
bits followed by the zero padding. -/
def Obligations.UnpackBitsUndoesPackBits : Prop :=
  (∀ b : Bits, unpackBits (packBits b) b.length = b) ∧
  (∀ b : Bits, unpackBits (packBits b) (8 * ceil8 b.length) =
    b ++ List.replicate ((8 - b.length % 8) % 8) false) ∧
  ∀ (bs : List Byte) (n : Nat), n ≤ 8 * bs.length →
    (unpackBits bs n).length = n ∧
    ∀ i < n, (unpackBits bs n)[i]? = some ((bs.getD (i / 8) 0).getLsbD (7 - i % 8))

/-- R67: the bytes of a packed bit sequence, byte by byte, with zero bits beyond its end. -/
def Obligations.PackBitsMostSignificantFirst : Prop :=
  ∀ b : Bits, (packBits b).length = ceil8 b.length ∧
    ∀ k < ceil8 b.length, ((packBits b).getD k 0).toNat =
      ((List.range 8).map fun t => (b.getD (8 * k + t) false).toNat * 2 ^ (7 - t)).sum

/-- R69: the eight bytes of an integer, most significant first, and the integer they spell. -/
def Obligations.BigEndianIntegers : Prop :=
  ∀ v, v < 2 ^ 64 →
    (bytesOfNat64 v).length = 8 ∧
    (∀ k < 8, ((bytesOfNat64 v).getD k 0).toNat = v / 2 ^ (8 * (7 - k)) % 256) ∧
    natOfBytes (bytesOfNat64 v) = v

/-- R81: read as 32 bytes, most significant first, a `CBITS` register is the packed code followed
by zero bytes. -/
def Obligations.CodeRegisterImage : Prop :=
  ∀ s x, CodeInv s →
    (List.range 32).map (fun k => (symGet s.cbits x).extractLsb' (8 * (31 - k)) 8) =
      packBits (codeOf s x) ++ List.replicate (32 - ceil8 (symGet s.clen x).toNat) 0

/-- R82: where the fields of a node record stand in its 99-bit image, as the host reads it. That the
value read is 256 bits wide, its bits 255 to 99 zero, is the model's choice (log entry 13). -/
def Obligations.NodeRecordImage : Prop :=
  ∀ s h nd, h < 511 → s.nodes[h]? = some nd →
    (hostRead s 4 h).extractLsb' 98 1 = nd.kind.bit ∧
    (hostRead s 4 h).extractLsb' 90 8 = nd.sym ∧
    (hostRead s 4 h).extractLsb' 18 72 = nd.freq ∧
    (hostRead s 4 h).extractLsb' 9 9 = nd.left ∧
    (hostRead s 4 h).extractLsb' 0 9 = nd.right ∧
    (hostRead s 4 h).extractLsb' 99 157 = 0

/-! ## Host accesses and the step -/

/-- A step whose next action is a `CMD` write stores the value's low byte in `CMD` and runs the
command it decodes to (R142). -/
def Obligations.StepRunsDecodedCommand : Prop :=
  ∀ (s : State) (v : HostWord) (rest : List HostAction) (i : Instr),
    s.script = .write 0 0x00 v :: rest → decode (v.setWidth 8) = .ok i →
    step s = exec i { s with script := rest, cmd := v.setWidth 8 }

/-- R63, R155: a `CMD` write of any value but 0x01 to 0x06 stores it in `CMD`, changes no data
state and reports IllegalCommand(0, op). -/
def Obligations.IllegalCommandIsReported : Prop :=
  ∀ (s : State) (v : HostWord) (rest : List HostAction),
    s.script = .write 0 0x00 v :: rest →
    (v.setWidth 8 : Byte).toNat = 0 ∨ 7 ≤ (v.setWidth 8 : Byte).toNat →
    step s = .next { s with
      script := rest
      cmd := v.setWidth 8
      status := 5
      errPos := 0
      errAux := v.setWidth 8
      esticky := s.esticky ||| 0x20 }

/-- While the host makes no access the core is idle and nothing changes (R6; that a step is then
taken at all is the model's choice, log entry 2). -/
def Obligations.IdleStepChangesNothing : Prop :=
  ∀ s : State, s.script = [] → step s = .next s

/-- A host read appends the value of the element to the replies and changes nothing else (R46,
R140; that replies are kept in State is the model's choice, log entry 4). -/
def Obligations.HostReadHasNoSideEffect : Prop :=
  ∀ (s : State) (bank index : Nat) (rest : List HostAction),
    s.script = .read bank index :: rest →
    step s = .next { s with script := rest, replies := s.replies ++ [hostRead s bank index] }

/-- R40, R41: which element each bank and index names, and the value a read of it returns. The
reserved bits of `STATUS` and `ESTICKY` read as 0 (R20, R21; that the read masks them is log entry
16), and `CTRL` reads 0 (R24). That every value is zero-extended to 256 bits is the model's choice
(log entry 13). -/
def Obligations.HostReadReturnsTheElement : Prop :=
  ∀ s : State,
    hostRead s 0 0x00 = s.cmd.setWidth 256 ∧
    hostRead s 0 0x01 = (s.status &&& 0x07).setWidth 256 ∧
    hostRead s 0 0x02 = (s.esticky &&& 0x7E).setWidth 256 ∧
    hostRead s 0 0x03 = s.errPos.setWidth 256 ∧
    hostRead s 0 0x04 = s.errAux.setWidth 256 ∧
    hostRead s 0 0x05 = 0 ∧
    hostRead s 0 0x06 = s.inLen.setWidth 256 ∧
    hostRead s 0 0x07 = s.bitLen.setWidth 256 ∧
    hostRead s 0 0x08 = s.outLen.setWidth 256 ∧
    (s.nodes.length ≤ 511 → (hostRead s 0 0x09).toNat = s.nodes.length) ∧
    (∀ x : Byte, hostRead s 1 x.toNat = (symGet s.freq x).setWidth 256 ∧
      hostRead s 2 x.toNat = (symGet s.clen x).setWidth 256 ∧
      hostRead s 3 x.toNat = symGet s.cbits x) ∧
    (∀ a, a < s.config.ibufBytes → hostRead s 5 a = (readByte s .ibuf a).setWidth 256) ∧
    (∀ a, a < s.config.bbufBytes → hostRead s 6 a = (readByte s .bbuf a).setWidth 256) ∧
    ∀ a, a < s.config.obufBytes → hostRead s 7 a = (readByte s .obuf a).setWidth 256

/-- R141: a host write to data state changes that one element and nothing else; bits above the
element's width are ignored. -/
def Obligations.HostWriteChangesOneElement : Prop :=
  ∀ (s : State) (bank index : Nat) (v : HostWord) (rest : List HostAction),
    s.script = .write bank index v :: rest →
    (bank = 1 → index < 256 → ∃ f, step s = .next { s with script := rest, freq := f } ∧
      ∀ x, symGet f x = if x.toNat = index then v.setWidth 64 else symGet s.freq x) ∧
    (bank = 5 → index < s.config.ibufBytes →
      ∃ m, step s = .next { s with script := rest, ibuf := m } ∧
      ∀ b a, readByte { s with script := rest, ibuf := m } b a =
        if b = .ibuf ∧ a = index then v.setWidth 8 else readByte s b a) ∧
    (bank = 6 → index < s.config.bbufBytes →
      ∃ m, step s = .next { s with script := rest, bbuf := m } ∧
      ∀ b a, readByte { s with script := rest, bbuf := m } b a =
        if b = .bbuf ∧ a = index then v.setWidth 8 else readByte s b a) ∧
    (bank = 0 → index = 0x06 → step s = .next { s with script := rest, inLen := v.setWidth 64 }) ∧
    (bank = 0 → index = 0x07 → step s = .next { s with script := rest, bitLen := v.setWidth 64 })

/-- R143: a write to `ESTICKY` clears each bit written as 1, keeps each bit written as 0, and
changes nothing else. -/
def Obligations.StickyBitsAreWriteOneToClear : Prop :=
  ∀ (s : State) (v : HostWord) (rest : List HostAction),
    s.script = .write 0 0x02 v :: rest →
    ∃ e : Byte, step s = .next { s with script := rest, esticky := e } ∧
      ∀ k < 8, e.getLsbD k = (s.esticky.getLsbD k && !v.getLsbD k)

/-- R144: writes to read-only elements, to unassigned indices and banks, and to the reserved bits of
`CTRL` change nothing and report nothing. -/
def Obligations.ReadOnlyWritesAreIgnored : Prop :=
  ∀ (s : State) (bank index : Nat) (v : HostWord) (rest : List HostAction),
    s.script = .write bank index v :: rest →
    (bank = 0 ∧ index ∈ [0x01, 0x03, 0x04, 0x08, 0x09]) ∨
      (bank = 0 ∧ 0x0A ≤ index) ∨ bank ∈ [2, 3, 4, 7] ∨ 8 ≤ bank ∨
      (bank = 1 ∧ 256 ≤ index) ∨ (bank = 5 ∧ s.config.ibufBytes ≤ index) ∨
      (bank = 6 ∧ s.config.bbufBytes ≤ index) ∨
      (bank = 0 ∧ index = 0x05 ∧ v.getLsbD 0 = false) →
    step s = .next { s with script := rest }

/-- R47: where no element is, a host read returns 0 and a host write is ignored; no state changes
but the host's own script and replies, and no error is reported. -/
def Obligations.UnassignedAccessReadsZero : Prop :=
  ∀ (s : State) (bank index : Nat) (v : HostWord) (rest : List HostAction),
    (bank = 0 ∧ 0x0A ≤ index) ∨ (bank ∈ [1, 2, 3] ∧ 256 ≤ index) ∨ (bank = 4 ∧ 511 ≤ index) ∨
      (bank = 5 ∧ s.config.ibufBytes ≤ index) ∨ (bank = 6 ∧ s.config.bbufBytes ≤ index) ∨
      (bank = 7 ∧ s.config.obufBytes ≤ index) ∨ 8 ≤ bank →
    (s.script = .read bank index :: rest →
      step s = .next { s with script := rest, replies := s.replies ++ [0] }) ∧
    (s.script = .write bank index v :: rest → step s = .next { s with script := rest })

/-- R146: a write of 1 to `CTRL.SRST` gives every register its reset value and keeps the contents
of the buffers; with the bit 0 the write does nothing. -/
def Obligations.SoftResetClearsRegisters : Prop :=
  ∀ (s : State) (v : HostWord) (rest : List HostAction),
    s.script = .write 0 0x05 v :: rest →
    (v.getLsbD 0 = false → step s = .next { s with script := rest }) ∧
    (v.getLsbD 0 = true → ∃ t, step s = .next t ∧
      (∀ x, symGet t.freq x = 0 ∧ symGet t.clen x = 0 ∧ symGet t.cbits x = 0) ∧
      nodeCount t = 0 ∧ t.nodes = [] ∧ t.inLen = 0 ∧ t.bitLen = 0 ∧ t.outLen = 0 ∧ t.cmd = 0 ∧
      t.status = 0 ∧ t.esticky = 0 ∧ t.errPos = 0 ∧ t.errAux = 0 ∧
      (∀ b a, readByte t b a = readByte s b a) ∧
      t.config = s.config ∧ t.script = rest ∧ t.replies = s.replies)

/-- R175 on registers: a hardware reset between two host accesses gives every register its reset
value. Nothing is said of the buffers, whose contents become unspecified (that the reset is an
action of the script is the model's choice, log entry 11). -/
def Obligations.HardwareResetClearsRegisters : Prop :=
  ∀ (s : State) (rest : List HostAction), s.script = .hardReset :: rest →
    ∃ t, step s = .next t ∧
      (∀ x, symGet t.freq x = 0 ∧ symGet t.clen x = 0 ∧ symGet t.cbits x = 0) ∧
      nodeCount t = 0 ∧ t.nodes = [] ∧ t.inLen = 0 ∧ t.bitLen = 0 ∧ t.outLen = 0 ∧ t.cmd = 0 ∧
      t.status = 0 ∧ t.esticky = 0 ∧ t.errPos = 0 ∧ t.errAux = 0 ∧
      t.config = s.config ∧ t.script = rest ∧ t.replies = s.replies

/-- R30: the registers after reset; `CTRL` reads 0 always. -/
def Obligations.ResetRegisterValues : Prop :=
  (∀ x, symGet State.reset.freq x = 0 ∧ symGet State.reset.clen x = 0 ∧
    symGet State.reset.cbits x = 0) ∧
  nodeCount State.reset = 0 ∧ State.reset.nodes = [] ∧
  State.reset.inLen = 0 ∧ State.reset.bitLen = 0 ∧ State.reset.outLen = 0 ∧
  State.reset.cmd = 0 ∧ State.reset.status = 0 ∧ State.reset.esticky = 0 ∧
  State.reset.errPos = 0 ∧ State.reset.errAux = 0 ∧ ∀ s : State, hostRead s 0 0x05 = 0

/-- R177: what each command does on the reset state, whatever the capacities (the output buffer
holding 8 bytes) and whatever the unspecified bytes and slots hold. -/
def Obligations.CommandsOnTheResetState : Prop :=
  ∀ (c : Config) (d e : Nat), 8 ≤ c.obufBytes →
    let s := { State.reset with config := c, bufDraw := d, nodeDraw := e }
    (∃ f, exec .count s = .next { s with freq := f } ∧ ∀ x, symGet f x = 0) ∧
    (∃ t, exec .build s = .next t ∧ t.nodes = [] ∧
      (∀ x, symGet t.clen x = 0 ∧ symGet t.cbits x = 0) ∧
      t.status = 1 ∧ t.errPos = 0 ∧ t.errAux = 0 ∧ t.esticky = 0x02) ∧
    exec .encode s = .next s ∧
    exec .decode s = .next s ∧
    (∃ m, exec .pack s = .next { s with obuf := m, outLen := 8 } ∧
      ∀ a < 8, readByte { s with obuf := m, outLen := 8 } .obuf a = 0) ∧
    exec .unpack s = .next { s with status := 3, errPos := 0, errAux := 1, esticky := 0x08 }

/-! ## COUNT -/

/-- R86, R87: COUNT replaces the whole frequency map by the number of occurrences of each byte in
the input, or reports Capacity(IN_LEN, 1) and changes nothing else. -/
def Obligations.CountCountsTheInput : Prop :=
  ∀ s : State,
    (s.inLen.toNat ≤ s.config.ibufBytes →
      ∃ f, exec .count s = .next { s with freq := f, status := 0, errPos := 0, errAux := 0 } ∧
        ∀ x, (symGet f x).toNat = (inputBytes s).count x) ∧
    (s.config.ibufBytes < s.inLen.toNat →
      exec .count s = .next { s with
        status := 6, errPos := s.inLen, errAux := 1, esticky := s.esticky ||| 0x40 })

/-- R88: after a successful COUNT the counters sum to the input's length, a counter is not zero
exactly when its byte occurs, there are at most min(256, IN_LEN) keys, and the order of the input
bytes does not matter. -/
def Obligations.CountTotals : Prop :=
  ∀ s t : State, exec .count s = .next t → s.inLen.toNat ≤ s.config.ibufBytes →
    (allSymbols.map fun x => (symGet t.freq x).toNat).sum = s.inLen.toNat ∧
    (∀ x, symGet t.freq x ≠ 0 ↔ ∃ a < s.inLen.toNat, readByte s .ibuf a = x) ∧
    (keys t.freq).length ≤ min 256 s.inLen.toNat ∧
    ∀ s' t' : State, exec .count s' = .next t' → s'.inLen.toNat ≤ s'.config.ibufBytes →
      (inputBytes s').Perm (inputBytes s) → t'.freq = t.freq

/-! ## BUILD -/

/-- R95, R151: on the empty frequency map BUILD writes the empty tree and the empty code map and
reports EmptyInput; on every other map it reports nothing. -/
def Obligations.BuildReportsTheEmptyMap : Prop :=
  ∀ s : State, ∃ t, exec .build s = .next t ∧ t.errPos = 0 ∧ t.errAux = 0 ∧
    ((∀ x, symGet s.freq x = 0) →
      t.nodes = [] ∧ (∀ x, symGet t.clen x = 0 ∧ symGet t.cbits x = 0) ∧ t.status = 1 ∧
      t.esticky = s.esticky ||| 0x02) ∧
    ((∃ x, symGet s.freq x ≠ 0) → t.status = 0 ∧ t.esticky = s.esticky)

/-- R94: with one key the tree is its leaf and its code is the single bit 0. -/
def Obligations.BuildSingleSymbol : Prop :=
  ∀ (s : State) (x : Byte), (∀ y, symGet s.freq y ≠ 0 ↔ y = x) →
    ∃ t, exec .build s = .next t ∧
      t.nodes = [⟨.leaf, x, (symGet s.freq x).setWidth 72, nullHandle, nullHandle⟩] ∧
      symGet t.clen x = 1 ∧ codeOf t x = [false] ∧ symGet t.cbits x = 0 ∧
      ∀ y, y ≠ x → symGet t.clen y = 0 ∧ symGet t.cbits y = 0

/-- R91: the leaves are the keys in ascending order, handles 0 to n - 1, each with its counter
zero-extended and null children; a symbol whose counter is 0 gets no leaf and no code. -/
def Obligations.BuildLeavesInSymbolOrder : Prop :=
  ∀ s : State, ∃ t, exec .build s = .next t ∧
    (∀ x, x ∈ keys s.freq ↔ symGet s.freq x ≠ 0) ∧
    (keys s.freq).Pairwise (fun x y => x.toNat < y.toNat) ∧
    (t.nodes.take (keys s.freq).length = (keys s.freq).map fun x =>
      (⟨.leaf, x, (symGet s.freq x).setWidth 72, nullHandle, nullHandle⟩ : Node)) ∧
    (∀ nd ∈ t.nodes, nd.kind = .leaf → symGet s.freq nd.sym ≠ 0) ∧
    ∀ x, symGet s.freq x = 0 → symGet t.clen x = 0

/-- R92, R93: for n >= 2 keys BUILD makes internal nodes at handles n to 2n - 2; each merges the
two least nodes still in the queue, in the order of (FREQ, handle): the least is LEFT and the next
is RIGHT, SYM is 0 and FREQ is their exact sum. A handle is still in the queue at handle `h` when it is
below `h` and is no child of a node below `h`. -/
def Obligations.BuildMergesTheTwoLeast : Prop :=
  ∀ s : State, 2 ≤ (keys s.freq).length → ∃ t, exec .build s = .next t ∧
    t.nodes.length = 2 * (keys s.freq).length - 1 ∧
    ∀ h, (keys s.freq).length ≤ h → h < t.nodes.length → ∃ a b,
      HasChildren t.nodes h a b ∧ a < h ∧ b < h ∧ a ≠ b ∧
      (∀ nd, t.nodes[h]? = some nd → nd.sym = 0) ∧
      freqAt t.nodes h = freqAt t.nodes a + freqAt t.nodes b ∧
      (∀ k < h, ¬ IsChild t.nodes k a ∧ ¬ IsChild t.nodes k b) ∧
      LessFrequent t.nodes a b ∧
      ∀ c < h, (∀ k < h, ¬ IsChild t.nodes k c) → c ≠ a → c ≠ b → LessFrequent t.nodes b c

/-- R96: for n >= 2 keys each code is the path from the root to its leaf, left edge 0, right
edge 1, of 1 to n - 1 bits, and a symbol that is no key has no code. -/
def Obligations.BuildCodesAreLeafPaths : Prop :=
  ∀ s : State, 2 ≤ (keys s.freq).length → ∃ t, exec .build s = .next t ∧
    (∃ path : Nat → Bits, path (t.nodes.length - 1) = [] ∧
      (∀ h a b, HasChildren t.nodes h a b →
        path a = path h ++ [false] ∧ path b = path h ++ [true]) ∧
      ∀ h nd, t.nodes[h]? = some nd → nd.kind = .leaf →
        codeOf t nd.sym = path h ∧ 1 ≤ (path h).length ∧
          (path h).length ≤ (keys s.freq).length - 1) ∧
    ∀ x, symGet s.freq x = 0 → symGet t.clen x = 0 ∧ symGet t.cbits x = 0

/-- R98: after every BUILD, from whatever state, the code map is free of overlapping codes, every
code is non-empty, and exactly the keys have codes. -/
def Obligations.BuildIsPrefixFree : Prop :=
  ∀ s : State, ∃ t, exec .build s = .next t ∧ CodeInv t ∧
    ∀ x, symGet t.clen x ≠ 0 ↔ symGet s.freq x ≠ 0

/-- R99 (a): for n >= 2 keys no code map on the keys that is non-empty and free of overlapping
codes has a smaller weighted length than BUILD's. -/
def Obligations.BuildIsOptimal : Prop :=
  ∀ s : State, 2 ≤ (keys s.freq).length → ∃ t, exec .build s = .next t ∧
    ∀ codes : Byte → Bits,
      (∀ x ∈ keys s.freq, codes x ≠ []) →
      (∀ x ∈ keys s.freq, ∀ y ∈ keys s.freq, x ≠ y → ¬ codes x <+: codes y) →
      weightedLength s.freq (fun x => (symGet t.clen x).toNat) ≤
        weightedLength s.freq (fun x => (codes x).length)

/-- R99 (b): a key of greater frequency has no longer code. -/
def Obligations.FrequentSymbolsHaveShortCodes : Prop :=
  ∀ s : State, ∃ t, exec .build s = .next t ∧
    ∀ x y, symGet s.freq x ≠ 0 → symGet s.freq y ≠ 0 →
      (symGet s.freq y).toNat < (symGet s.freq x).toNat →
      (symGet t.clen x).toNat ≤ (symGet t.clen y).toNat

/-- R100: the shape of BUILD's result: the number of nodes and of codes, the depth, the root's
frequency, and for n >= 2 the completeness of the code, both as a sum and as the unique code every
infinite bit sequence begins with. -/
def Obligations.BuildResultShape : Prop :=
  ∀ s : State, ∃ t, exec .build s = .next t ∧
    ((keys s.freq).length = 0 → t.nodes.length = 0) ∧
    (1 ≤ (keys s.freq).length → t.nodes.length = 2 * (keys s.freq).length - 1 ∧
      freqAt t.nodes (t.nodes.length - 1) = (allSymbols.map fun x => (symGet s.freq x).toNat).sum) ∧
    (codeDomain t).length = (keys s.freq).length ∧
    (2 ≤ (keys s.freq).length →
      (∀ x, (symGet t.clen x).toNat ≤ (keys s.freq).length - 1) ∧
      ((codeDomain t).map fun x => 2 ^ (255 - (symGet t.clen x).toNat)).sum = 2 ^ 255 ∧
      ∀ bits : Nat → Bool, ∃ x, (symGet t.clen x ≠ 0 ∧
        codeOf t x = (List.range (symGet t.clen x).toNat).map bits) ∧
        ∀ y, symGet t.clen y ≠ 0 → codeOf t y = (List.range (symGet t.clen y).toNat).map bits →
          y = x) ∧
    ((keys s.freq).length = 1 → ∀ x, symGet t.clen x ≠ 0 → codeOf t x = [false])

/-! ## ENCODE -/

/-- R105, R106: when every input byte has a code and the result fits, ENCODE writes the
concatenated codes to `BBUF`, packed, and their exact number of bits to `BIT_LEN`. -/
def Obligations.EncodeConcatenatesTheCodes : Prop :=
  ∀ s : State, s.config.wellFormed = true → s.inLen.toNat ≤ s.config.ibufBytes →
    (∀ x ∈ inputBytes s, symGet s.clen x ≠ 0) →
    ((inputBytes s).flatMap (codeOf s)).length ≤ 8 * s.config.bbufBytes →
    ∃ t, exec .encode s = .next t ∧ Succeeded t ∧ t.esticky = s.esticky ∧
      t.bitLen.toNat = ((inputBytes s).flatMap (codeOf s)).length ∧
      encodedBits t = (inputBytes s).flatMap (codeOf s) ∧
      readBytes t .bbuf 0 (ceil8 t.bitLen.toNat) = packBits ((inputBytes s).flatMap (codeOf s)) ∧
      ∀ j, t.bitLen.toNat ≤ j → j < 8 * ceil8 t.bitLen.toNat → bitRead t .bbuf j = false

/-- R152, and R159 for ENCODE: the operand check comes first, then the first byte without a code
is reported with its index, then the size of the result; in all three cases nothing but the status
registers changes. UnknownSymbol is reported only where some input byte has no code. -/
def Obligations.EncodeErrorsInOrder : Prop :=
  ∀ s : State,
    (s.config.ibufBytes < s.inLen.toNat →
      exec .encode s = .next { s with
        status := 6, errPos := s.inLen, errAux := 1, esticky := s.esticky ||| 0x40 }) ∧
    (∀ i, s.inLen.toNat ≤ s.config.ibufBytes → i < s.inLen.toNat →
      symGet s.clen (readByte s .ibuf i) = 0 →
      (∀ j < i, symGet s.clen (readByte s .ibuf j) ≠ 0) →
      exec .encode s = .next { s with
        status := 2, errPos := BitVec.ofNat 64 i, errAux := readByte s .ibuf i,
        esticky := s.esticky ||| 0x04 }) ∧
    (s.inLen.toNat ≤ s.config.ibufBytes → (∀ x ∈ inputBytes s, symGet s.clen x ≠ 0) →
      8 * s.config.bbufBytes < ((inputBytes s).flatMap (codeOf s)).length →
      exec .encode s = .next { s with
        status := 6, errPos := BitVec.ofNat 64 ((inputBytes s).flatMap (codeOf s)).length,
        errAux := 3, esticky := s.esticky ||| 0x40 }) ∧
    ((∀ x ∈ inputBytes s, symGet s.clen x ≠ 0) →
      ∀ t, exec .encode s = .next t → t.status ≠ 2)

/-! ## DECODE -/

/-- R108, R115 (a): the bytes a scan emits re-encode to the bits it consumed, and with the residual
appended they are the whole bit sequence; no non-empty beginning of the residual is a code; the
residual starts where its length from the end says. -/
def Obligations.DecodeScanAccountsForEveryBit : Prop :=
  ∀ (s : State) (bits : Bits),
    let r := decodeBits (codeMap s) bits
    r.out.flatMap (codeOf s) ++ r.cand = bits ∧
    (∀ x ∈ r.out, symGet s.clen x ≠ 0) ∧
    (∀ c, c ≠ [] → c <+: r.cand → ∀ x, symGet s.clen x ≠ 0 → codeOf s x ≠ c) ∧
    (r.cand ≠ [] → r.start + r.cand.length = bits.length)

/-- R110, R111, R154: DECODE delivers the bytes of the scan in `OBUF` and their number in
`OUT_LEN`; it ends without an error when there is no residual, and otherwise reports
AmbiguousTrailingBits with the bit index where the residual starts. -/
def Obligations.DecodeDeliversTheScan : Prop :=
  ∀ s : State, s.config.wellFormed = true → s.bitLen.toNat ≤ 8 * s.config.bbufBytes →
    (decodeBits (codeMap s) (encodedBits s)).out.length ≤ s.config.obufBytes →
    ∃ t, exec .decode s = .next t ∧
      outputBytes t = (decodeBits (codeMap s) (encodedBits s)).out ∧
      t.outLen.toNat = (decodeBits (codeMap s) (encodedBits s)).out.length ∧
      ((decodeBits (codeMap s) (encodedBits s)).cand = [] →
        Succeeded t ∧ t.esticky = s.esticky) ∧
      ((decodeBits (codeMap s) (encodedBits s)).cand ≠ [] →
        t.status = 4 ∧ t.errAux = 0 ∧ t.esticky = s.esticky ||| 0x10 ∧
        t.errPos.toNat + (decodeBits (codeMap s) (encodedBits s)).cand.length = s.bitLen.toNat)

/-- R159 for DECODE and PACK, R157: the operand check comes first, then the size of the result; in
both cases nothing but the status registers changes. -/
def Obligations.DecodeAndPackCapacityErrors : Prop :=
  ∀ s : State,
    (8 * s.config.bbufBytes < s.bitLen.toNat → ∀ i, i = .decode ∨ i = .pack →
      exec i s = .next { s with
        status := 6, errPos := s.bitLen, errAux := 2, esticky := s.esticky ||| 0x40 }) ∧
    (s.bitLen.toNat ≤ 8 * s.config.bbufBytes →
      s.config.obufBytes < (decodeBits (codeMap s) (encodedBits s)).out.length →
      exec .decode s = .next { s with
        status := 6
        errPos := BitVec.ofNat 64 (decodeBits (codeMap s) (encodedBits s)).out.length
        errAux := 4
        esticky := s.esticky ||| 0x40 }) ∧
    (s.bitLen.toNat ≤ 8 * s.config.bbufBytes → s.config.obufBytes < containerSize s →
      exec .pack s = .next { s with
        status := 6, errPos := BitVec.ofNat 64 (containerSize s), errAux := 4,
        esticky := s.esticky ||| 0x40 })

/-- R114, its last sentence: with any code table that meets R15, decoding the encoding of bytes that
all have codes gives the bytes back and leaves no residual. -/
def Obligations.DecodeUndoesEncode : Prop :=
  ∀ (s : State) (bs : List Byte), CodeInv s → (∀ x ∈ bs, symGet s.clen x ≠ 0) →
    (decodeBits (codeMap s) (bs.flatMap (codeOf s))).out = bs ∧
    (decodeBits (codeMap s) (bs.flatMap (codeOf s))).cand = []

/-- R114: from any state, COUNT, BUILD, ENCODE, DECODE in this order give the input back, provided
the capacities suffice; on the empty input BUILD sets the EmptyInput sticky bit, and otherwise no
sticky bit is set. -/
def Obligations.CompressionRoundTrip : Prop :=
  ∀ s : State, s.config.wellFormed = true → s.inLen.toNat ≤ s.config.ibufBytes →
    s.inLen.toNat ≤ s.config.obufBytes →
    ∃ s₁ s₂, exec .count s = .next s₁ ∧ exec .build s₁ = .next s₂ ∧
      (((inputBytes s).flatMap (codeOf s₂)).length ≤ 8 * s.config.bbufBytes →
        ∃ s₃ s₄, exec .encode s₂ = .next s₃ ∧ exec .decode s₃ = .next s₄ ∧
          s₄.outLen = s.inLen ∧ (∀ a < s.inLen.toNat, readByte s₄ .obuf a = readByte s .ibuf a) ∧
          Succeeded s₃ ∧ Succeeded s₄ ∧
          s₄.esticky = if s.inLen = 0 then s.esticky ||| 0x02 else s.esticky)

/-- R80: COMPRESS on an empty input sets the EmptyInput sticky bit at BUILD and still produces the
container of eight zero bytes. -/
def Obligations.CompressOfTheEmptyInput : Prop :=
  ∀ s : State, s.inLen = 0 → 8 ≤ s.config.obufBytes →
    ∃ s₁ s₂ s₃ s₄, exec .count s = .next s₁ ∧ exec .build s₁ = .next s₂ ∧
      exec .encode s₂ = .next s₃ ∧ exec .pack s₃ = .next s₄ ∧
      s₂.status = 1 ∧ Succeeded s₄ ∧ s₄.esticky = s.esticky ||| 0x02 ∧ s₄.bitLen = 0 ∧
      s₄.outLen = 8 ∧ outputBytes s₄ = [0, 0, 0, 0, 0, 0, 0, 0]

/-- R107: in the compress flow the number of bits is the weighted length of the code, at most eight
bits a byte for two or more distinct symbols, and one bit a byte for one; so ENCODE fits wherever
`BBUF` is no smaller than `IBUF`. -/
def Obligations.CompressedSizeBound : Prop :=
  ∀ s s₁ s₂ : State, s.inLen.toNat ≤ s.config.ibufBytes →
    exec .count s = .next s₁ → exec .build s₁ = .next s₂ →
    ((inputBytes s).flatMap (codeOf s₂)).length =
      weightedLength s₁.freq (fun x => (symGet s₂.clen x).toNat) ∧
    (2 ≤ (keys s₁.freq).length →
      ((inputBytes s).flatMap (codeOf s₂)).length ≤ 8 * s.inLen.toNat) ∧
    ((keys s₁.freq).length = 1 →
      ((inputBytes s).flatMap (codeOf s₂)).length = s.inLen.toNat) ∧
    (s.config.ibufBytes ≤ s.config.bbufBytes → ∃ s₃, exec .encode s₂ = .next s₃ ∧ Succeeded s₃)

/-- R113, R179: decoding a padded bit sequence gives the true bytes first, because the padded
sequence is the true one followed by zeros. -/
def Obligations.PaddedDecodeBeginsWithTheTrueBytes : Prop :=
  ∀ (s : State) (bs : List Byte) (n : Nat), CodeInv s → (∀ x ∈ bs, symGet s.clen x ≠ 0) →
    bs <+: (decodeBits (codeMap s) (bs.flatMap (codeOf s) ++ List.replicate n false)).out

/-! ## PACK and UNPACK -/

/-- R120, R121: PACK writes the symbol count, the entries in ascending symbol order and the packed
payload to `OBUF` and their number to `OUT_LEN`, and touches nothing else but the status registers;
where a check of R121 fails it changes the status registers alone. -/
def Obligations.PackWritesTheContainer : Prop :=
  ∀ s : State,
    (8 * s.config.bbufBytes < s.bitLen.toNat → exec .pack s = .next { s with
      status := 6, errPos := s.bitLen, errAux := 2, esticky := s.esticky ||| 0x40 }) ∧
    (s.bitLen.toNat ≤ 8 * s.config.bbufBytes → s.config.obufBytes < containerSize s →
      exec .pack s = .next { s with
        status := 6, errPos := BitVec.ofNat 64 (containerSize s), errAux := 4,
        esticky := s.esticky ||| 0x40 }) ∧
    (s.config.wellFormed = true → s.bitLen.toNat ≤ 8 * s.config.bbufBytes →
      containerSize s ≤ s.config.obufBytes →
      ∃ (m : Memory) (n : Word64),
        let t := { s with obuf := m, outLen := n, status := 0, errPos := 0, errAux := 0 }
        exec .pack s = .next t ∧ n.toNat = containerSize s ∧
        outputBytes t = bytesOfNat64 (codeDomain s).length ++
          (codeDomain s).flatMap (fun x =>
            [x] ++ bytesOfNat64 (codeOf s x).length ++ packBits (codeOf s x)) ++
          packBits (encodedBits s) ∧
        SameFrom .obuf (containerSize s) s t)

/-- R122 (c), R78: the payload PACK writes depends on the first `BIT_LEN` bits of `BBUF` alone, and
its padding bits are zero whatever `BBUF` holds there. -/
def Obligations.PackPadsWithZeros : Prop :=
  ∀ s t : State, exec .pack s = .next t → Succeeded t → s.config.wellFormed = true →
    ∀ j, j < 8 * ceil8 s.bitLen.toNat →
      bitRead t .obuf (8 * (containerSize s - ceil8 s.bitLen.toNat) + j) =
        (if j < s.bitLen.toNat then bitRead s .bbuf j else false)

/-- R126, R159, R85 sub-code 1: UNPACK's operand check comes first, whatever the bytes hold. Then
R124, R84 sub-reasons 1 to 5: which check fails first, at which offset, and what is reported. Nothing
but the status registers changes. The entries before the faulty one are `codes`, well formed, in
bytes `table`. -/
def Obligations.UnpackReportsTheFirstFault : Prop :=
  ∀ s : State,
    (s.config.ibufBytes < s.inLen.toNat →
      exec .unpack s = .next { s with
        status := 6, errPos := s.inLen, errAux := 1, esticky := s.esticky ||| 0x40 }) ∧
    (s.inLen.toNat ≤ s.config.ibufBytes →
    let malformed := fun (pos aux : Nat) => exec .unpack s = .next { s with
      status := 3, errPos := BitVec.ofNat 64 pos, errAux := BitVec.ofNat 8 aux,
      esticky := s.esticky ||| 0x08 }
    ((inputBytes s).length < 8 → malformed 0 1) ∧
    (8 ≤ (inputBytes s).length → 256 < natOfBytes ((inputBytes s).take 8) → malformed 0 2) ∧
    ∀ (codes : CodeMap) (table tail : List Byte) (n : Nat),
      ListsCodeMap codes → TableBytes codes table → codes.length < n → n ≤ 256 →
      inputBytes s = bytesOfNat64 n ++ table ++ tail →
      let e := 8 + table.length
      let len := natOfBytes ((tail.drop 1).take 8)
      (tail.length < 9 → malformed e 3) ∧
      (9 ≤ tail.length → len = 0 ∨ 255 < len → malformed (e + 1) 4) ∧
      (9 ≤ tail.length → 1 ≤ len → len ≤ 255 → tail.length < 9 + ceil8 len →
        malformed (e + 9) 5))

/-- R84 sub-reasons 6 and 7, R124: after well-formed entries, an entry whose symbol already appeared
is reported as a duplicate, and one whose code overlaps an earlier one as an overlap; the position
is the entry's offset. -/
def Obligations.UnpackRefusesBadEntries : Prop :=
  ∀ (s : State) (codes : CodeMap) (x : Byte) (c : Bits) (n : Nat) (table entry tail : List Byte),
    s.inLen.toNat ≤ s.config.ibufBytes → ListsCodeMap codes → TableBytes codes table →
    1 ≤ c.length → c.length ≤ 255 → TableBytes [(x, c)] entry → codes.length < n → n ≤ 256 →
    inputBytes s = bytesOfNat64 n ++ table ++ entry ++ tail →
    ((∃ d, (x, d) ∈ codes) → exec .unpack s = .next { s with
      status := 3, errPos := BitVec.ofNat 64 (8 + table.length), errAux := 6,
      esticky := s.esticky ||| 0x08 }) ∧
    ((∀ d, (x, d) ∉ codes) → (∃ y d, (y, d) ∈ codes ∧ (d <+: c ∨ c <+: d)) →
      exec .unpack s = .next { s with
        status := 3, errPos := BitVec.ofNat 64 (8 + table.length), errAux := 7,
        esticky := s.esticky ||| 0x08 })

/-- R123, and R126 for a well-formed container: UNPACK, its entries in any order and with any
padding bits in their code fields, gives back its code map, puts the payload into `BBUF` and the
padded number of bits into `BIT_LEN`; it is written only where the payload fits. -/
def Obligations.UnpackReadsBackTheContainer : Prop :=
  ∀ (s : State) (codes : CodeMap) (table payload : List Byte), s.config.wellFormed = true →
    s.inLen.toNat ≤ s.config.ibufBytes → ListsCodeMap codes → TableBytes codes table →
    inputBytes s = bytesOfNat64 codes.length ++ table ++ payload →
    (payload.length ≤ s.config.bbufBytes → ∃ t, exec .unpack s = .next t ∧ Succeeded t ∧
      t.esticky = s.esticky ∧
      (∀ x c, (x, c) ∈ codes → (symGet t.clen x).toNat = c.length ∧ symGet t.cbits x = codeImage c ∧
        codeOf t x = c) ∧
      (∀ x, (∀ c, (x, c) ∉ codes) → symGet t.clen x = 0 ∧ symGet t.cbits x = 0) ∧
      t.bitLen.toNat = 8 * payload.length ∧ readBytes t .bbuf 0 payload.length = payload) ∧
    (s.config.bbufBytes < payload.length → exec .unpack s = .next { s with
      status := 6, errPos := BitVec.ofNat 64 (8 * payload.length), errAux := 3,
      esticky := s.esticky ||| 0x40 })

/-- R125, R15: whatever the input, an UNPACK that succeeds leaves a code table that meets the
invariants of `CODE`, from whatever state. -/
def Obligations.UnpackAcceptsOnlyCodeMaps : Prop :=
  ∀ s t : State, exec .unpack s = .next t → t.status = 0 → CodeInv t

/-- R127: after PACK, a copy of the output to the input of a core of the same capacities, and
UNPACK, the code table is exactly the old one and the bits are the old ones followed by the zero
padding. -/
def Obligations.ContainerRoundTrip : Prop :=
  ∀ s : State, s.config.wellFormed = true → CodeInv s →
    s.bitLen.toNat ≤ 8 * s.config.bbufBytes → containerSize s ≤ s.config.obufBytes →
    containerSize s ≤ s.config.ibufBytes →
    ∃ t, exec .pack s = .next t ∧ Succeeded t ∧
      ∀ u : State, u.config = s.config → u.inLen = t.outLen → inputBytes u = outputBytes t →
        ∃ v, exec .unpack u = .next v ∧ Succeeded v ∧ v.clen = s.clen ∧ v.cbits = s.cbits ∧
          v.bitLen.toNat = 8 * ceil8 s.bitLen.toNat ∧
          encodedBits v = encodedBits s ++
            List.replicate ((8 - s.bitLen.toNat % 8) % 8) false

/-! ## Frames and how commands end -/

/-- R33: what every command leaves alone, register by register, and every byte of the buffers that
are not its destination; no command changes its own operands. -/
def Obligations.CommandsLeaveTheRestAlone : Prop :=
  ∀ (i : Instr) (s t : State), exec i s = .next t →
    t.config = s.config ∧ t.cmd = s.cmd ∧ t.script = s.script ∧ t.replies = s.replies ∧
    t.bufDraw = s.bufDraw ∧ t.inLen = s.inLen ∧ SameFrom .ibuf 0 s t ∧
    (i ≠ .count → t.freq = s.freq) ∧
    (i ≠ .build → t.nodes = s.nodes ∧ t.nodeDraw = s.nodeDraw) ∧
    (i ≠ .build → i ≠ .unpack → t.clen = s.clen ∧ t.cbits = s.cbits) ∧
    (i ≠ .encode → i ≠ .unpack → t.bitLen = s.bitLen ∧ SameFrom .bbuf 0 s t) ∧
    (i ≠ .decode → i ≠ .pack → t.outLen = s.outLen ∧ SameFrom .obuf 0 s t)

/-- R55, U7: the four storing commands store from index 0 on the bytes of their result and leave
every byte beyond them as it was. -/
def Obligations.StoringCommandsKeepTheBytesBeyond : Prop :=
  ∀ s t : State,
    (exec .encode s = .next t →
      SameFrom .bbuf (packBits (encodeBytes (codeOf s) (inputBytes s))).length s t) ∧
    (exec .decode s = .next t →
      SameFrom .obuf (decodeBits (codeMap s) (encodedBits s)).out.length s t) ∧
    (exec .pack s = .next t →
      SameFrom .obuf (packContainer (codeMap s) (encodedBits s)).length s t) ∧
    (exec .unpack s = .next t →
      (∀ codes p, parseContainer (inputBytes s) = .ok (codes, p) →
        SameFrom .bbuf ((inputBytes s).drop p).length s t) ∧
      (∀ e, parseContainer (inputBytes s) = .error e → SameFrom .bbuf 0 s t))

/-- R158: every command, and every `CMD` write, ends in exactly one of three ways; only a report of
EmptyInput or AmbiguousTrailingBits comes with changed data state. -/
def Obligations.CommandsEndInThreeWays : Prop :=
  (∀ (i : Instr) (s : State), ∃ t, exec i s = .next t ∧ EndsAsCommandsDo s t) ∧
  ∀ (s : State) (v : HostWord) (rest : List HostAction), s.script = .write 0 0x00 v :: rest →
    ∃ t, step s = .next t ∧
      EndsAsCommandsDo { s with script := rest, cmd := v.setWidth 8 } t

/-- R46: a command run twice in a row leaves the state that running it once leaves (the model's draw
counter of the unspecified node slots apart, log entry 9), where the buffers are in the form in which
the model keeps them (log entry 7). -/
def Obligations.CommandsAreIdempotent : Prop :=
  ∀ (i : Instr) (s t : State), BufferInv s → exec i s = .next t →
    exec i t = .next { t with nodeDraw := if i = .build then t.nodeDraw + 1 else t.nodeDraw }

/-- R21, R161: a sticky bit that is set stays set unless the host writes `ESTICKY`, resets the core
through `CTRL`, or the core is reset. -/
def Obligations.StickyBitsStaySet : Prop :=
  ∀ (s t : State) (k : Nat), step s = .next t → s.esticky.getLsbD k = true →
    (∀ v rest, s.script ≠ .write 0 0x02 v :: rest) →
    (∀ v rest, s.script ≠ .write 0 0x05 v :: rest) →
    (∀ rest, s.script ≠ .hardReset :: rest) → t.esticky.getLsbD k = true

/-- R31: only a `CMD` write of BUILD or UNPACK, a soft reset or a hardware reset changes the code
table; the host cannot write it. -/
def Obligations.OnlyBuildUnpackAndResetChangeCodes : Prop :=
  ∀ s t : State, step s = .next t → t.clen ≠ s.clen ∨ t.cbits ≠ s.cbits →
    (∃ v rest, s.script = .write 0 0x00 v :: rest ∧
      (decode (v.setWidth 8) = .ok .build ∨ decode (v.setWidth 8) = .ok .unpack)) ∨
    (∃ v rest, s.script = .write 0 0x05 v :: rest ∧ v.getLsbD 0 = true) ∨
    ∃ rest, s.script = .hardReset :: rest

/-- R29, R5: the capacities are configuration: no step changes them; and every step answers a next
state, since no command and no access stops the core (R161, R178). -/
def Obligations.EveryStepGoesOn : Prop :=
  ∀ s : State, ∃ t, step s = .next t ∧ t.config = s.config

/-! ## Invariants -/

/-- R15: every step keeps the invariants of `CODE`. -/
def Obligations.StepKeepsTheCodeTable : Prop :=
  ∀ s t : State, CodeInv s → step s = .next t → CodeInv t

/-- R32: every step keeps the invariants of `TREE`. -/
def Obligations.StepKeepsTheTree : Prop :=
  ∀ s t : State, TreeInv s.nodes → step s = .next t → TreeInv t.nodes

/-- R48, of writes: every step keeps the buffers free of any byte listed outside their capacity, so
no command and no host access writes outside a buffer. That a buffer is a list whose addresses rise
strictly, the form every step keeps as well, is the model's choice (log entry 7). -/
def Obligations.StepKeepsTheBuffers : Prop :=
  ∀ s t : State, BufferInv s → step s = .next t → BufferInv t

/-- R20 to R23, U11: every step keeps the status registers legal. -/
def Obligations.StepKeepsTheStatusLegal : Prop :=
  ∀ s t : State, StatusInv s → step s = .next t → StatusInv t

/-- The reset state meets all four invariants; the form of the buffers is the model's choice (log
entry 7). -/
def Obligations.ResetMeetsTheInvariants : Prop :=
  CodeInv State.reset ∧ TreeInv State.reset.nodes ∧ BufferInv State.reset ∧ StatusInv State.reset
end

