-- ==== Sys2Proof/Laws/Bits.lean ====
section
/-!
SUPPORT. The small laws of packing: lengths, and what single bits and bytes of the results are.
-/

namespace Sys2Proof.Machine

open Sys2Proof

@[simp] theorem ceil8_zero : ceil8 0 = 0 := rfl

theorem ceil8_le_iff (n k : Nat) : ceil8 n ≤ k ↔ n ≤ 8 * k := by unfold ceil8; omega

theorem le_eight_mul_ceil8 (n : Nat) : n ≤ 8 * ceil8 n := by unfold ceil8; omega

@[simp] theorem ceil8_eight_mul (k : Nat) : ceil8 (8 * k) = k := by unfold ceil8; omega

@[simp] theorem length_packBits (b : Bits) : (packBits b).length = ceil8 b.length := by
  simp [packBits]

@[simp] theorem packBits_nil : packBits [] = [] := rfl

@[simp] theorem length_unpackBits (bs : List Byte) (n : Nat) : (unpackBits bs n).length = n := by
  simp [unpackBits]

theorem getElem?_unpackBits (bs : List Byte) (n i : Nat) (h : i < n) :
    (unpackBits bs n)[i]? = some (bitOfBytes bs i) := by simp [unpackBits, h]

@[simp] theorem length_bytesOfNat64 (v : Nat) : (bytesOfNat64 v).length = 8 := by
  simp [bytesOfNat64]

@[simp] theorem length_imageBits (n : Nat) (v : CodeImage) : (imageBits n v).length = n := by
  simp [imageBits]

/-- One more bit at the end of a sequence doubles the integer and adds the bit. -/
theorem natOfBits_append_singleton (b : Bits) (x : Bool) :
    natOfBits (b ++ [x]) = 2 * natOfBits b + x.toNat := by simp [natOfBits, List.foldl_append]

@[simp] theorem natOfBits_nil : natOfBits [] = 0 := rfl

/-- A sequence of `n` bits spells an integer below `2 ^ n`. -/
theorem natOfBits_lt (b : Bits) : natOfBits b < 2 ^ b.length := by
  induction b using List.reverseRecOn with
  | nil => simp
  | append_singleton b x ih =>
    rw [natOfBits_append_singleton, List.length_append, List.length_singleton, pow_succ]
    have : x.toNat ≤ 1 := Bool.toNat_le x
    omega

/-- One more byte at the end of a sequence. -/
theorem natOfBytes_append_singleton (bs : List Byte) (x : Byte) :
    natOfBytes (bs ++ [x]) = 256 * natOfBytes bs + x.toNat := by
  simp [natOfBytes, List.foldl_append]

@[simp] theorem natOfBytes_nil : natOfBytes [] = 0 := rfl

end Sys2Proof.Machine
end

