-- ==== Sys2Proof/Laws/Memory.lean ====
section
/-!
SUPPORT. The laws of a buffer's contents: what is read after a write, that every operation keeps the
canonical form, and that in canonical form equal contents are equal lists.
-/

namespace Sys2Proof.Machine

open Sys2Proof

@[simp] theorem Memory.get?_nil (a : Nat) : Memory.get? [] a = none := rfl

theorem Memory.get?_set (m : Memory) (a b : Nat) (v : Byte) :
    (Memory.set m a v).get? b = if b = a then some v else m.get? b := by
  induction m with
  | nil =>
    by_cases h : b = a
    · simp [Memory.set, Memory.get?, h]
    · simp [Memory.set, Memory.get?, h, Ne.symm h]
  | cons e rest ih =>
    obtain ⟨k, w⟩ := e
    rcases Nat.lt_trichotomy a k with hak | hak | hak
    · by_cases h : b = a
      · simp [Memory.set, Memory.get?, hak, h]
      · simp [Memory.set, Memory.get?, hak, h, Ne.symm h]
    · subst hak
      by_cases h : b = a
      · simp [Memory.set, Memory.get?, h]
      · simp [Memory.set, Memory.get?, h, Ne.symm h]
    · simp only [Memory.set, if_neg (Nat.not_lt_of_gt hak), if_neg (Nat.ne_of_gt hak), Memory.get?,
        ih]
      by_cases h : b = a
      · rw [if_neg (by omega), if_pos h, if_pos h]
      · rw [if_neg h, if_neg h]

@[simp] theorem Memory.get?_set_same (m : Memory) (a : Nat) (v : Byte) :
    (Memory.set m a v).get? a = some v := by simp [Memory.get?_set]

theorem Memory.get?_set_of_ne (m : Memory) {a b : Nat} (v : Byte) (h : b ≠ a) :
    (Memory.set m a v).get? b = m.get? b := by simp [Memory.get?_set, h]

/-- What is read after consecutive bytes are written. -/
theorem Memory.get?_write (m : Memory) (a b : Nat) (bs : List Byte) :
    (Memory.write m a bs).get? b =
      if a ≤ b ∧ b < a + bs.length then bs[b - a]? else m.get? b := by
  induction bs generalizing m a with
  | nil => rw [if_neg (by simp only [List.length_nil]; omega)]; rfl
  | cons v rest ih =>
    rw [Memory.write, ih, Memory.get?_set]
    by_cases hab : b = a
    · subst hab; simp
    · by_cases h : a + 1 ≤ b ∧ b < a + 1 + rest.length
      · obtain ⟨n, rfl⟩ : ∃ n, b = a + 1 + n := ⟨b - (a + 1), by omega⟩
        rw [if_pos h, if_pos (by simp only [List.length_cons]; omega),
          show a + 1 + n - a = n + 1 by omega, show a + 1 + n - (a + 1) = n by omega]
        rfl
      · rw [if_neg h, if_neg hab, if_neg (by simp only [List.length_cons]; omega)]

/-- A write lists nothing but the bytes written and what was listed. -/
theorem Memory.mem_set {m : Memory} {a : Nat} {v : Byte} {e : Host.Cell}
    (h : e ∈ Memory.set m a v) : e = (a, v) ∨ e ∈ m := by
  induction m with
  | nil => simpa [Memory.set] using h
  | cons c rest ih =>
    obtain ⟨k, w⟩ := c
    simp only [Memory.set] at h
    split at h
    · simpa using h
    · split at h
      · rcases List.mem_cons.1 h with h | h
        · exact .inl h
        · exact .inr (List.mem_cons_of_mem _ h)
      · rcases List.mem_cons.1 h with h | h
        · exact .inr (h ▸ List.mem_cons_self)
        · exact (ih h).imp_right (List.mem_cons_of_mem _)

theorem Memory.mem_write {m : Memory} {a : Nat} {bs : List Byte} {e : Host.Cell}
    (h : e ∈ Memory.write m a bs) : (a ≤ e.1 ∧ e.1 < a + bs.length) ∨ e ∈ m := by
  induction bs generalizing m a with
  | nil => exact .inr h
  | cons v rest ih =>
    rcases ih h with h | h
    · left; simp only [List.length_cons]; omega
    · rcases Memory.mem_set h with rfl | h
      · left; simp
      · exact .inr h

theorem Memory.wf_nil : Memory.wf [] := List.Pairwise.nil

/-- A write of one byte keeps the canonical form. -/
theorem Memory.wf_set {m : Memory} (a : Nat) (v : Byte) (h : m.wf) : (Memory.set m a v).wf := by
  induction m with
  | nil => exact List.pairwise_singleton _ _
  | cons e rest ih =>
    obtain ⟨k, w⟩ := e
    have hk := List.pairwise_cons.1 h
    simp only [Memory.set]
    split
    · rename_i hak
      refine List.pairwise_cons.2 ⟨fun e he => ?_, h⟩
      rcases List.mem_cons.1 he with rfl | he
      · exact hak
      · exact Nat.lt_trans hak (hk.1 e he)
    · split
      · rename_i hak
        exact List.pairwise_cons.2 ⟨fun e he => hak ▸ hk.1 e he, hk.2⟩
      · refine List.pairwise_cons.2 ⟨fun e he => ?_, ih hk.2⟩
        rcases Memory.mem_set he with rfl | he
        · simp only; omega
        · exact hk.1 e he

/-- A write of consecutive bytes keeps the canonical form. -/
theorem Memory.wf_write {m : Memory} (a : Nat) (bs : List Byte) (h : m.wf) :
    (Memory.write m a bs).wf := by
  induction bs generalizing m a with
  | nil => exact h
  | cons v rest ih => exact ih (a + 1) (Memory.wf_set a v h)

/-- An index below every listed one reads as nothing written. -/
theorem Memory.get?_eq_none {m : Memory} {a : Nat} (h : ∀ e ∈ m, a < e.1) : m.get? a = none := by
  induction m with
  | nil => rfl
  | cons e rest ih =>
    obtain ⟨k, w⟩ := e
    have : a < k := h (k, w) List.mem_cons_self
    simp only [Memory.get?]
    rw [if_neg (by omega)]
    exact ih fun e he => h e (List.mem_cons_of_mem _ he)

/-- In canonical form equal contents are equal data. -/
theorem Memory.eq_of_get?_eq {m m' : Memory} (h : m.wf) (h' : m'.wf)
    (hg : ∀ a, m.get? a = m'.get? a) : m = m' := by
  induction m generalizing m' with
  | nil =>
    cases m' with
    | nil => rfl
    | cons e' rest' => have := hg e'.1; simp [Memory.get?] at this
  | cons e rest ih =>
    obtain ⟨k, w⟩ := e
    cases m' with
    | nil => have := hg k; simp [Memory.get?] at this
    | cons e' rest' =>
      obtain ⟨k', w'⟩ := e'
      have hk := List.pairwise_cons.1 h
      have hk' := List.pairwise_cons.1 h'
      have below : ∀ {j : Nat}, j < k → Memory.get? ((k, w) :: rest) j = none := fun {j} hj =>
        Memory.get?_eq_none fun e he => by
          rcases List.mem_cons.1 he with rfl | he
          · exact hj
          · exact Nat.lt_trans hj (hk.1 e he)
      have below' : ∀ {j : Nat}, j < k' → Memory.get? ((k', w') :: rest') j = none := fun {j} hj =>
        Memory.get?_eq_none fun e he => by
          rcases List.mem_cons.1 he with rfl | he
          · exact hj
          · exact Nat.lt_trans hj (hk'.1 e he)
      have hkk : k = k' := by
        rcases Nat.lt_trichotomy k k' with hl | hl | hl
        · have := hg k; rw [below' hl] at this; simp [Memory.get?] at this
        · exact hl
        · have := hg k'; rw [below hl] at this; simp [Memory.get?] at this
      subst hkk
      have hw : w = w' := by have := hg k; simpa [Memory.get?] using this
      subst hw
      have hr : rest = rest' := ih hk.2 hk'.2 fun a => by
        by_cases hak : k = a
        · subst hak
          rw [Memory.get?_eq_none hk.1, Memory.get?_eq_none hk'.1]
        · have := hg a
          simpa [Memory.get?, hak] using this
      rw [hr]

/-- The reset state's buffers are in canonical form. -/
theorem reset_buffers_wf (b : Buffer) : (bufferOf State.reset b).wf := by
  cases b <;> exact Memory.wf_nil

end Sys2Proof.Machine
end

