-- ==== Sys2Proof/Laws/State.lean ====
section
/-!
SUPPORT. One lemma per field per update: what each named operation leaves in each field of State, so
that no later proof unfolds a record update.
-/

namespace Sys2Proof.Machine

open Sys2Proof

/-! ### `withBuffer` -/

@[simp] theorem withBuffer_config (s : State) (b : Buffer) (m : Memory) :
    (withBuffer s b m).config = s.config := by cases b <;> rfl
@[simp] theorem withBuffer_freq (s : State) (b : Buffer) (m : Memory) :
    (withBuffer s b m).freq = s.freq := by cases b <;> rfl
@[simp] theorem withBuffer_nodes (s : State) (b : Buffer) (m : Memory) :
    (withBuffer s b m).nodes = s.nodes := by cases b <;> rfl
@[simp] theorem withBuffer_clen (s : State) (b : Buffer) (m : Memory) :
    (withBuffer s b m).clen = s.clen := by cases b <;> rfl
@[simp] theorem withBuffer_cbits (s : State) (b : Buffer) (m : Memory) :
    (withBuffer s b m).cbits = s.cbits := by cases b <;> rfl
@[simp] theorem withBuffer_ibuf (s : State) (b : Buffer) (m : Memory) :
    (withBuffer s b m).ibuf = if b = .ibuf then m else s.ibuf := by cases b <;> rfl
@[simp] theorem withBuffer_inLen (s : State) (b : Buffer) (m : Memory) :
    (withBuffer s b m).inLen = s.inLen := by cases b <;> rfl
@[simp] theorem withBuffer_bbuf (s : State) (b : Buffer) (m : Memory) :
    (withBuffer s b m).bbuf = if b = .bbuf then m else s.bbuf := by cases b <;> rfl
@[simp] theorem withBuffer_bitLen (s : State) (b : Buffer) (m : Memory) :
    (withBuffer s b m).bitLen = s.bitLen := by cases b <;> rfl
@[simp] theorem withBuffer_obuf (s : State) (b : Buffer) (m : Memory) :
    (withBuffer s b m).obuf = if b = .obuf then m else s.obuf := by cases b <;> rfl
@[simp] theorem withBuffer_outLen (s : State) (b : Buffer) (m : Memory) :
    (withBuffer s b m).outLen = s.outLen := by cases b <;> rfl
@[simp] theorem withBuffer_cmd (s : State) (b : Buffer) (m : Memory) :
    (withBuffer s b m).cmd = s.cmd := by cases b <;> rfl
@[simp] theorem withBuffer_status (s : State) (b : Buffer) (m : Memory) :
    (withBuffer s b m).status = s.status := by cases b <;> rfl
@[simp] theorem withBuffer_esticky (s : State) (b : Buffer) (m : Memory) :
    (withBuffer s b m).esticky = s.esticky := by cases b <;> rfl
@[simp] theorem withBuffer_errPos (s : State) (b : Buffer) (m : Memory) :
    (withBuffer s b m).errPos = s.errPos := by cases b <;> rfl
@[simp] theorem withBuffer_errAux (s : State) (b : Buffer) (m : Memory) :
    (withBuffer s b m).errAux = s.errAux := by cases b <;> rfl
@[simp] theorem withBuffer_script (s : State) (b : Buffer) (m : Memory) :
    (withBuffer s b m).script = s.script := by cases b <;> rfl
@[simp] theorem withBuffer_replies (s : State) (b : Buffer) (m : Memory) :
    (withBuffer s b m).replies = s.replies := by cases b <;> rfl
@[simp] theorem withBuffer_bufDraw (s : State) (b : Buffer) (m : Memory) :
    (withBuffer s b m).bufDraw = s.bufDraw := by cases b <;> rfl
@[simp] theorem withBuffer_nodeDraw (s : State) (b : Buffer) (m : Memory) :
    (withBuffer s b m).nodeDraw = s.nodeDraw := by cases b <;> rfl

/-! ### `writeBytes` -/

@[simp] theorem writeBytes_config (s : State) (b : Buffer) (a : Nat) (bs : List Byte) :
    (writeBytes s b a bs).config = s.config := by cases b <;> rfl
@[simp] theorem writeBytes_freq (s : State) (b : Buffer) (a : Nat) (bs : List Byte) :
    (writeBytes s b a bs).freq = s.freq := by cases b <;> rfl
@[simp] theorem writeBytes_nodes (s : State) (b : Buffer) (a : Nat) (bs : List Byte) :
    (writeBytes s b a bs).nodes = s.nodes := by cases b <;> rfl
@[simp] theorem writeBytes_clen (s : State) (b : Buffer) (a : Nat) (bs : List Byte) :
    (writeBytes s b a bs).clen = s.clen := by cases b <;> rfl
@[simp] theorem writeBytes_cbits (s : State) (b : Buffer) (a : Nat) (bs : List Byte) :
    (writeBytes s b a bs).cbits = s.cbits := by cases b <;> rfl
@[simp] theorem writeBytes_ibuf (s : State) (b : Buffer) (a : Nat) (bs : List Byte) :
    (writeBytes s b a bs).ibuf = if b = .ibuf then s.ibuf.write a bs else s.ibuf :=
  by cases b <;> rfl
@[simp] theorem writeBytes_inLen (s : State) (b : Buffer) (a : Nat) (bs : List Byte) :
    (writeBytes s b a bs).inLen = s.inLen := by cases b <;> rfl
@[simp] theorem writeBytes_bbuf (s : State) (b : Buffer) (a : Nat) (bs : List Byte) :
    (writeBytes s b a bs).bbuf = if b = .bbuf then s.bbuf.write a bs else s.bbuf :=
  by cases b <;> rfl
@[simp] theorem writeBytes_bitLen (s : State) (b : Buffer) (a : Nat) (bs : List Byte) :
    (writeBytes s b a bs).bitLen = s.bitLen := by cases b <;> rfl
@[simp] theorem writeBytes_obuf (s : State) (b : Buffer) (a : Nat) (bs : List Byte) :
    (writeBytes s b a bs).obuf = if b = .obuf then s.obuf.write a bs else s.obuf :=
  by cases b <;> rfl
@[simp] theorem writeBytes_outLen (s : State) (b : Buffer) (a : Nat) (bs : List Byte) :
    (writeBytes s b a bs).outLen = s.outLen := by cases b <;> rfl
@[simp] theorem writeBytes_cmd (s : State) (b : Buffer) (a : Nat) (bs : List Byte) :
    (writeBytes s b a bs).cmd = s.cmd := by cases b <;> rfl
@[simp] theorem writeBytes_status (s : State) (b : Buffer) (a : Nat) (bs : List Byte) :
    (writeBytes s b a bs).status = s.status := by cases b <;> rfl
@[simp] theorem writeBytes_esticky (s : State) (b : Buffer) (a : Nat) (bs : List Byte) :
    (writeBytes s b a bs).esticky = s.esticky := by cases b <;> rfl
@[simp] theorem writeBytes_errPos (s : State) (b : Buffer) (a : Nat) (bs : List Byte) :
    (writeBytes s b a bs).errPos = s.errPos := by cases b <;> rfl
@[simp] theorem writeBytes_errAux (s : State) (b : Buffer) (a : Nat) (bs : List Byte) :
    (writeBytes s b a bs).errAux = s.errAux := by cases b <;> rfl
@[simp] theorem writeBytes_script (s : State) (b : Buffer) (a : Nat) (bs : List Byte) :
    (writeBytes s b a bs).script = s.script := by cases b <;> rfl
@[simp] theorem writeBytes_replies (s : State) (b : Buffer) (a : Nat) (bs : List Byte) :
    (writeBytes s b a bs).replies = s.replies := by cases b <;> rfl
@[simp] theorem writeBytes_bufDraw (s : State) (b : Buffer) (a : Nat) (bs : List Byte) :
    (writeBytes s b a bs).bufDraw = s.bufDraw := by cases b <;> rfl
@[simp] theorem writeBytes_nodeDraw (s : State) (b : Buffer) (a : Nat) (bs : List Byte) :
    (writeBytes s b a bs).nodeDraw = s.nodeDraw := by cases b <;> rfl

/-! ### `writeCodes` -/

@[simp] theorem writeCodes_config (s : State) (codes : CodeMap) :
    (writeCodes s codes).config = s.config := rfl
@[simp] theorem writeCodes_freq (s : State) (codes : CodeMap) :
    (writeCodes s codes).freq = s.freq := rfl
@[simp] theorem writeCodes_nodes (s : State) (codes : CodeMap) :
    (writeCodes s codes).nodes = s.nodes := rfl
@[simp] theorem writeCodes_clen (s : State) (codes : CodeMap) :
    (writeCodes s codes).clen = symFill (codeLength codes) := rfl
@[simp] theorem writeCodes_cbits (s : State) (codes : CodeMap) :
    (writeCodes s codes).cbits = symFill (codeBitsImage codes) := rfl
@[simp] theorem writeCodes_ibuf (s : State) (codes : CodeMap) :
    (writeCodes s codes).ibuf = s.ibuf := rfl
@[simp] theorem writeCodes_inLen (s : State) (codes : CodeMap) :
    (writeCodes s codes).inLen = s.inLen := rfl
@[simp] theorem writeCodes_bbuf (s : State) (codes : CodeMap) :
    (writeCodes s codes).bbuf = s.bbuf := rfl
@[simp] theorem writeCodes_bitLen (s : State) (codes : CodeMap) :
    (writeCodes s codes).bitLen = s.bitLen := rfl
@[simp] theorem writeCodes_obuf (s : State) (codes : CodeMap) :
    (writeCodes s codes).obuf = s.obuf := rfl
@[simp] theorem writeCodes_outLen (s : State) (codes : CodeMap) :
    (writeCodes s codes).outLen = s.outLen := rfl
@[simp] theorem writeCodes_cmd (s : State) (codes : CodeMap) :
    (writeCodes s codes).cmd = s.cmd := rfl
@[simp] theorem writeCodes_status (s : State) (codes : CodeMap) :
    (writeCodes s codes).status = s.status := rfl
@[simp] theorem writeCodes_esticky (s : State) (codes : CodeMap) :
    (writeCodes s codes).esticky = s.esticky := rfl
@[simp] theorem writeCodes_errPos (s : State) (codes : CodeMap) :
    (writeCodes s codes).errPos = s.errPos := rfl
@[simp] theorem writeCodes_errAux (s : State) (codes : CodeMap) :
    (writeCodes s codes).errAux = s.errAux := rfl
@[simp] theorem writeCodes_script (s : State) (codes : CodeMap) :
    (writeCodes s codes).script = s.script := rfl
@[simp] theorem writeCodes_replies (s : State) (codes : CodeMap) :
    (writeCodes s codes).replies = s.replies := rfl
@[simp] theorem writeCodes_bufDraw (s : State) (codes : CodeMap) :
    (writeCodes s codes).bufDraw = s.bufDraw := rfl
@[simp] theorem writeCodes_nodeDraw (s : State) (codes : CodeMap) :
    (writeCodes s codes).nodeDraw = s.nodeDraw := rfl

/-! ### `writeTree` -/

@[simp] theorem writeTree_config (s : State) (nodes : List Node) :
    (writeTree s nodes).config = s.config := rfl
@[simp] theorem writeTree_freq (s : State) (nodes : List Node) :
    (writeTree s nodes).freq = s.freq := rfl
@[simp] theorem writeTree_nodes (s : State) (nodes : List Node) :
    (writeTree s nodes).nodes = nodes := rfl
@[simp] theorem writeTree_clen (s : State) (nodes : List Node) :
    (writeTree s nodes).clen = s.clen := rfl
@[simp] theorem writeTree_cbits (s : State) (nodes : List Node) :
    (writeTree s nodes).cbits = s.cbits := rfl
@[simp] theorem writeTree_ibuf (s : State) (nodes : List Node) :
    (writeTree s nodes).ibuf = s.ibuf := rfl
@[simp] theorem writeTree_inLen (s : State) (nodes : List Node) :
    (writeTree s nodes).inLen = s.inLen := rfl
@[simp] theorem writeTree_bbuf (s : State) (nodes : List Node) :
    (writeTree s nodes).bbuf = s.bbuf := rfl
@[simp] theorem writeTree_bitLen (s : State) (nodes : List Node) :
    (writeTree s nodes).bitLen = s.bitLen := rfl
@[simp] theorem writeTree_obuf (s : State) (nodes : List Node) :
    (writeTree s nodes).obuf = s.obuf := rfl
@[simp] theorem writeTree_outLen (s : State) (nodes : List Node) :
    (writeTree s nodes).outLen = s.outLen := rfl
@[simp] theorem writeTree_cmd (s : State) (nodes : List Node) :
    (writeTree s nodes).cmd = s.cmd := rfl
@[simp] theorem writeTree_status (s : State) (nodes : List Node) :
    (writeTree s nodes).status = s.status := rfl
@[simp] theorem writeTree_esticky (s : State) (nodes : List Node) :
    (writeTree s nodes).esticky = s.esticky := rfl
@[simp] theorem writeTree_errPos (s : State) (nodes : List Node) :
    (writeTree s nodes).errPos = s.errPos := rfl
@[simp] theorem writeTree_errAux (s : State) (nodes : List Node) :
    (writeTree s nodes).errAux = s.errAux := rfl
@[simp] theorem writeTree_script (s : State) (nodes : List Node) :
    (writeTree s nodes).script = s.script := rfl
@[simp] theorem writeTree_replies (s : State) (nodes : List Node) :
    (writeTree s nodes).replies = s.replies := rfl
@[simp] theorem writeTree_bufDraw (s : State) (nodes : List Node) :
    (writeTree s nodes).bufDraw = s.bufDraw := rfl
@[simp] theorem writeTree_nodeDraw (s : State) (nodes : List Node) :
    (writeTree s nodes).nodeDraw = s.nodeDraw + 1 := rfl

/-! ### `finishOk` -/

@[simp] theorem finishOk_config (s : State) : (finishOk s).config = s.config := rfl
@[simp] theorem finishOk_freq (s : State) : (finishOk s).freq = s.freq := rfl
@[simp] theorem finishOk_nodes (s : State) : (finishOk s).nodes = s.nodes := rfl
@[simp] theorem finishOk_clen (s : State) : (finishOk s).clen = s.clen := rfl
@[simp] theorem finishOk_cbits (s : State) : (finishOk s).cbits = s.cbits := rfl
@[simp] theorem finishOk_ibuf (s : State) : (finishOk s).ibuf = s.ibuf := rfl
@[simp] theorem finishOk_inLen (s : State) : (finishOk s).inLen = s.inLen := rfl
@[simp] theorem finishOk_bbuf (s : State) : (finishOk s).bbuf = s.bbuf := rfl
@[simp] theorem finishOk_bitLen (s : State) : (finishOk s).bitLen = s.bitLen := rfl
@[simp] theorem finishOk_obuf (s : State) : (finishOk s).obuf = s.obuf := rfl
@[simp] theorem finishOk_outLen (s : State) : (finishOk s).outLen = s.outLen := rfl
@[simp] theorem finishOk_cmd (s : State) : (finishOk s).cmd = s.cmd := rfl
@[simp] theorem finishOk_status (s : State) : (finishOk s).status = 0 := rfl
@[simp] theorem finishOk_esticky (s : State) : (finishOk s).esticky = s.esticky := rfl
@[simp] theorem finishOk_errPos (s : State) : (finishOk s).errPos = 0 := rfl
@[simp] theorem finishOk_errAux (s : State) : (finishOk s).errAux = 0 := rfl
@[simp] theorem finishOk_script (s : State) : (finishOk s).script = s.script := rfl
@[simp] theorem finishOk_replies (s : State) : (finishOk s).replies = s.replies := rfl
@[simp] theorem finishOk_bufDraw (s : State) : (finishOk s).bufDraw = s.bufDraw := rfl
@[simp] theorem finishOk_nodeDraw (s : State) : (finishOk s).nodeDraw = s.nodeDraw := rfl

/-! ### `report` -/

@[simp] theorem report_config (e : CmdError) (s : State) : (report e s).config = s.config := rfl
@[simp] theorem report_freq (e : CmdError) (s : State) : (report e s).freq = s.freq := rfl
@[simp] theorem report_nodes (e : CmdError) (s : State) : (report e s).nodes = s.nodes := rfl
@[simp] theorem report_clen (e : CmdError) (s : State) : (report e s).clen = s.clen := rfl
@[simp] theorem report_cbits (e : CmdError) (s : State) : (report e s).cbits = s.cbits := rfl
@[simp] theorem report_ibuf (e : CmdError) (s : State) : (report e s).ibuf = s.ibuf := rfl
@[simp] theorem report_inLen (e : CmdError) (s : State) : (report e s).inLen = s.inLen := rfl
@[simp] theorem report_bbuf (e : CmdError) (s : State) : (report e s).bbuf = s.bbuf := rfl
@[simp] theorem report_bitLen (e : CmdError) (s : State) : (report e s).bitLen = s.bitLen := rfl
@[simp] theorem report_obuf (e : CmdError) (s : State) : (report e s).obuf = s.obuf := rfl
@[simp] theorem report_outLen (e : CmdError) (s : State) : (report e s).outLen = s.outLen := rfl
@[simp] theorem report_cmd (e : CmdError) (s : State) : (report e s).cmd = s.cmd := rfl
@[simp] theorem report_status (e : CmdError) (s : State) :
    (report e s).status = statusOf e.code := rfl
@[simp] theorem report_esticky (e : CmdError) (s : State) :
    (report e s).esticky = stickySet s.esticky e.code := rfl
@[simp] theorem report_errPos (e : CmdError) (s : State) : (report e s).errPos = e.pos := rfl
@[simp] theorem report_errAux (e : CmdError) (s : State) : (report e s).errAux = e.aux := rfl
@[simp] theorem report_script (e : CmdError) (s : State) : (report e s).script = s.script := rfl
@[simp] theorem report_replies (e : CmdError) (s : State) : (report e s).replies = s.replies := rfl
@[simp] theorem report_bufDraw (e : CmdError) (s : State) : (report e s).bufDraw = s.bufDraw := rfl
@[simp] theorem report_nodeDraw (e : CmdError) (s : State) :
    (report e s).nodeDraw = s.nodeDraw := rfl

/-! ### `clearSticky` -/

@[simp] theorem clearSticky_config (v : Byte) (s : State) :
    (clearSticky v s).config = s.config := rfl
@[simp] theorem clearSticky_freq (v : Byte) (s : State) : (clearSticky v s).freq = s.freq := rfl
@[simp] theorem clearSticky_nodes (v : Byte) (s : State) : (clearSticky v s).nodes = s.nodes := rfl
@[simp] theorem clearSticky_clen (v : Byte) (s : State) : (clearSticky v s).clen = s.clen := rfl
@[simp] theorem clearSticky_cbits (v : Byte) (s : State) : (clearSticky v s).cbits = s.cbits := rfl
@[simp] theorem clearSticky_ibuf (v : Byte) (s : State) : (clearSticky v s).ibuf = s.ibuf := rfl
@[simp] theorem clearSticky_inLen (v : Byte) (s : State) : (clearSticky v s).inLen = s.inLen := rfl
@[simp] theorem clearSticky_bbuf (v : Byte) (s : State) : (clearSticky v s).bbuf = s.bbuf := rfl
@[simp] theorem clearSticky_bitLen (v : Byte) (s : State) :
    (clearSticky v s).bitLen = s.bitLen := rfl
@[simp] theorem clearSticky_obuf (v : Byte) (s : State) : (clearSticky v s).obuf = s.obuf := rfl
@[simp] theorem clearSticky_outLen (v : Byte) (s : State) :
    (clearSticky v s).outLen = s.outLen := rfl
@[simp] theorem clearSticky_cmd (v : Byte) (s : State) : (clearSticky v s).cmd = s.cmd := rfl
@[simp] theorem clearSticky_status (v : Byte) (s : State) :
    (clearSticky v s).status = s.status := rfl
@[simp] theorem clearSticky_esticky (v : Byte) (s : State) :
    (clearSticky v s).esticky = stickyClear s.esticky v := rfl
@[simp] theorem clearSticky_errPos (v : Byte) (s : State) :
    (clearSticky v s).errPos = s.errPos := rfl
@[simp] theorem clearSticky_errAux (v : Byte) (s : State) :
    (clearSticky v s).errAux = s.errAux := rfl
@[simp] theorem clearSticky_script (v : Byte) (s : State) :
    (clearSticky v s).script = s.script := rfl
@[simp] theorem clearSticky_replies (v : Byte) (s : State) :
    (clearSticky v s).replies = s.replies := rfl
@[simp] theorem clearSticky_bufDraw (v : Byte) (s : State) :
    (clearSticky v s).bufDraw = s.bufDraw := rfl
@[simp] theorem clearSticky_nodeDraw (v : Byte) (s : State) :
    (clearSticky v s).nodeDraw = s.nodeDraw := rfl

/-! ### `softReset` -/

@[simp] theorem softReset_config (s : State) : (softReset s).config = s.config := rfl
@[simp] theorem softReset_freq (s : State) : (softReset s).freq = Vector.replicate 256 0 := rfl
@[simp] theorem softReset_nodes (s : State) : (softReset s).nodes = [] := rfl
@[simp] theorem softReset_clen (s : State) : (softReset s).clen = Vector.replicate 256 0 := rfl
@[simp] theorem softReset_cbits (s : State) : (softReset s).cbits = Vector.replicate 256 0 := rfl
@[simp] theorem softReset_ibuf (s : State) : (softReset s).ibuf = s.ibuf := rfl
@[simp] theorem softReset_inLen (s : State) : (softReset s).inLen = 0 := rfl
@[simp] theorem softReset_bbuf (s : State) : (softReset s).bbuf = s.bbuf := rfl
@[simp] theorem softReset_bitLen (s : State) : (softReset s).bitLen = 0 := rfl
@[simp] theorem softReset_obuf (s : State) : (softReset s).obuf = s.obuf := rfl
@[simp] theorem softReset_outLen (s : State) : (softReset s).outLen = 0 := rfl
@[simp] theorem softReset_cmd (s : State) : (softReset s).cmd = 0 := rfl
@[simp] theorem softReset_status (s : State) : (softReset s).status = 0 := rfl
@[simp] theorem softReset_esticky (s : State) : (softReset s).esticky = 0 := rfl
@[simp] theorem softReset_errPos (s : State) : (softReset s).errPos = 0 := rfl
@[simp] theorem softReset_errAux (s : State) : (softReset s).errAux = 0 := rfl
@[simp] theorem softReset_script (s : State) : (softReset s).script = s.script := rfl
@[simp] theorem softReset_replies (s : State) : (softReset s).replies = s.replies := rfl
@[simp] theorem softReset_bufDraw (s : State) : (softReset s).bufDraw = s.bufDraw := rfl
@[simp] theorem softReset_nodeDraw (s : State) : (softReset s).nodeDraw = s.nodeDraw + 1 := rfl

/-! ### `hardReset` -/

@[simp] theorem hardReset_config (s : State) : (hardReset s).config = s.config := rfl
@[simp] theorem hardReset_freq (s : State) : (hardReset s).freq = Vector.replicate 256 0 := rfl
@[simp] theorem hardReset_nodes (s : State) : (hardReset s).nodes = [] := rfl
@[simp] theorem hardReset_clen (s : State) : (hardReset s).clen = Vector.replicate 256 0 := rfl
@[simp] theorem hardReset_cbits (s : State) : (hardReset s).cbits = Vector.replicate 256 0 := rfl
@[simp] theorem hardReset_ibuf (s : State) : (hardReset s).ibuf = [] := rfl
@[simp] theorem hardReset_inLen (s : State) : (hardReset s).inLen = 0 := rfl
@[simp] theorem hardReset_bbuf (s : State) : (hardReset s).bbuf = [] := rfl
@[simp] theorem hardReset_bitLen (s : State) : (hardReset s).bitLen = 0 := rfl
@[simp] theorem hardReset_obuf (s : State) : (hardReset s).obuf = [] := rfl
@[simp] theorem hardReset_outLen (s : State) : (hardReset s).outLen = 0 := rfl
@[simp] theorem hardReset_cmd (s : State) : (hardReset s).cmd = 0 := rfl
@[simp] theorem hardReset_status (s : State) : (hardReset s).status = 0 := rfl
@[simp] theorem hardReset_esticky (s : State) : (hardReset s).esticky = 0 := rfl
@[simp] theorem hardReset_errPos (s : State) : (hardReset s).errPos = 0 := rfl
@[simp] theorem hardReset_errAux (s : State) : (hardReset s).errAux = 0 := rfl
@[simp] theorem hardReset_script (s : State) : (hardReset s).script = s.script := rfl
@[simp] theorem hardReset_replies (s : State) : (hardReset s).replies = s.replies := rfl
@[simp] theorem hardReset_bufDraw (s : State) : (hardReset s).bufDraw = s.bufDraw + 1 := rfl
@[simp] theorem hardReset_nodeDraw (s : State) : (hardReset s).nodeDraw = s.nodeDraw + 1 := rfl

/-! ### `writeEncoded` -/

@[simp] theorem writeEncoded_config (s : State) (bits : Bits) :
    (writeEncoded s bits).config = s.config := rfl
@[simp] theorem writeEncoded_freq (s : State) (bits : Bits) :
    (writeEncoded s bits).freq = s.freq := rfl
@[simp] theorem writeEncoded_nodes (s : State) (bits : Bits) :
    (writeEncoded s bits).nodes = s.nodes := rfl
@[simp] theorem writeEncoded_clen (s : State) (bits : Bits) :
    (writeEncoded s bits).clen = s.clen := rfl
@[simp] theorem writeEncoded_cbits (s : State) (bits : Bits) :
    (writeEncoded s bits).cbits = s.cbits := rfl
@[simp] theorem writeEncoded_ibuf (s : State) (bits : Bits) :
    (writeEncoded s bits).ibuf = s.ibuf := rfl
@[simp] theorem writeEncoded_inLen (s : State) (bits : Bits) :
    (writeEncoded s bits).inLen = s.inLen := rfl
@[simp] theorem writeEncoded_bbuf (s : State) (bits : Bits) :
    (writeEncoded s bits).bbuf = s.bbuf.write 0 (packBits bits) := rfl
@[simp] theorem writeEncoded_bitLen (s : State) (bits : Bits) :
    (writeEncoded s bits).bitLen = BitVec.ofNat 64 bits.length := rfl
@[simp] theorem writeEncoded_obuf (s : State) (bits : Bits) :
    (writeEncoded s bits).obuf = s.obuf := rfl
@[simp] theorem writeEncoded_outLen (s : State) (bits : Bits) :
    (writeEncoded s bits).outLen = s.outLen := rfl
@[simp] theorem writeEncoded_cmd (s : State) (bits : Bits) :
    (writeEncoded s bits).cmd = s.cmd := rfl
@[simp] theorem writeEncoded_status (s : State) (bits : Bits) :
    (writeEncoded s bits).status = s.status := rfl
@[simp] theorem writeEncoded_esticky (s : State) (bits : Bits) :
    (writeEncoded s bits).esticky = s.esticky := rfl
@[simp] theorem writeEncoded_errPos (s : State) (bits : Bits) :
    (writeEncoded s bits).errPos = s.errPos := rfl
@[simp] theorem writeEncoded_errAux (s : State) (bits : Bits) :
    (writeEncoded s bits).errAux = s.errAux := rfl
@[simp] theorem writeEncoded_script (s : State) (bits : Bits) :
    (writeEncoded s bits).script = s.script := rfl
@[simp] theorem writeEncoded_replies (s : State) (bits : Bits) :
    (writeEncoded s bits).replies = s.replies := rfl
@[simp] theorem writeEncoded_bufDraw (s : State) (bits : Bits) :
    (writeEncoded s bits).bufDraw = s.bufDraw := rfl
@[simp] theorem writeEncoded_nodeDraw (s : State) (bits : Bits) :
    (writeEncoded s bits).nodeDraw = s.nodeDraw := rfl

/-! ### `writeOutput` -/

@[simp] theorem writeOutput_config (s : State) (bs : List Byte) :
    (writeOutput s bs).config = s.config := rfl
@[simp] theorem writeOutput_freq (s : State) (bs : List Byte) :
    (writeOutput s bs).freq = s.freq := rfl
@[simp] theorem writeOutput_nodes (s : State) (bs : List Byte) :
    (writeOutput s bs).nodes = s.nodes := rfl
@[simp] theorem writeOutput_clen (s : State) (bs : List Byte) :
    (writeOutput s bs).clen = s.clen := rfl
@[simp] theorem writeOutput_cbits (s : State) (bs : List Byte) :
    (writeOutput s bs).cbits = s.cbits := rfl
@[simp] theorem writeOutput_ibuf (s : State) (bs : List Byte) :
    (writeOutput s bs).ibuf = s.ibuf := rfl
@[simp] theorem writeOutput_inLen (s : State) (bs : List Byte) :
    (writeOutput s bs).inLen = s.inLen := rfl
@[simp] theorem writeOutput_bbuf (s : State) (bs : List Byte) :
    (writeOutput s bs).bbuf = s.bbuf := rfl
@[simp] theorem writeOutput_bitLen (s : State) (bs : List Byte) :
    (writeOutput s bs).bitLen = s.bitLen := rfl
@[simp] theorem writeOutput_obuf (s : State) (bs : List Byte) :
    (writeOutput s bs).obuf = s.obuf.write 0 bs := rfl
@[simp] theorem writeOutput_outLen (s : State) (bs : List Byte) :
    (writeOutput s bs).outLen = BitVec.ofNat 64 bs.length := rfl
@[simp] theorem writeOutput_cmd (s : State) (bs : List Byte) : (writeOutput s bs).cmd = s.cmd := rfl
@[simp] theorem writeOutput_status (s : State) (bs : List Byte) :
    (writeOutput s bs).status = s.status := rfl
@[simp] theorem writeOutput_esticky (s : State) (bs : List Byte) :
    (writeOutput s bs).esticky = s.esticky := rfl
@[simp] theorem writeOutput_errPos (s : State) (bs : List Byte) :
    (writeOutput s bs).errPos = s.errPos := rfl
@[simp] theorem writeOutput_errAux (s : State) (bs : List Byte) :
    (writeOutput s bs).errAux = s.errAux := rfl
@[simp] theorem writeOutput_script (s : State) (bs : List Byte) :
    (writeOutput s bs).script = s.script := rfl
@[simp] theorem writeOutput_replies (s : State) (bs : List Byte) :
    (writeOutput s bs).replies = s.replies := rfl
@[simp] theorem writeOutput_bufDraw (s : State) (bs : List Byte) :
    (writeOutput s bs).bufDraw = s.bufDraw := rfl
@[simp] theorem writeOutput_nodeDraw (s : State) (bs : List Byte) :
    (writeOutput s bs).nodeDraw = s.nodeDraw := rfl

/-! ### `writeUnpacked` -/

@[simp] theorem writeUnpacked_config (s : State) (codes : CodeMap) (payload : List Byte) :
    (writeUnpacked s codes payload).config = s.config := rfl
@[simp] theorem writeUnpacked_freq (s : State) (codes : CodeMap) (payload : List Byte) :
    (writeUnpacked s codes payload).freq = s.freq := rfl
@[simp] theorem writeUnpacked_nodes (s : State) (codes : CodeMap) (payload : List Byte) :
    (writeUnpacked s codes payload).nodes = s.nodes := rfl
@[simp] theorem writeUnpacked_clen (s : State) (codes : CodeMap) (payload : List Byte) :
    (writeUnpacked s codes payload).clen = symFill (codeLength codes) := rfl
@[simp] theorem writeUnpacked_cbits (s : State) (codes : CodeMap) (payload : List Byte) :
    (writeUnpacked s codes payload).cbits = symFill (codeBitsImage codes) := rfl
@[simp] theorem writeUnpacked_ibuf (s : State) (codes : CodeMap) (payload : List Byte) :
    (writeUnpacked s codes payload).ibuf = s.ibuf := rfl
@[simp] theorem writeUnpacked_inLen (s : State) (codes : CodeMap) (payload : List Byte) :
    (writeUnpacked s codes payload).inLen = s.inLen := rfl
@[simp] theorem writeUnpacked_bbuf (s : State) (codes : CodeMap) (payload : List Byte) :
    (writeUnpacked s codes payload).bbuf = s.bbuf.write 0 payload := rfl
@[simp] theorem writeUnpacked_bitLen (s : State) (codes : CodeMap) (payload : List Byte) :
    (writeUnpacked s codes payload).bitLen = BitVec.ofNat 64 (8 * payload.length) := rfl
@[simp] theorem writeUnpacked_obuf (s : State) (codes : CodeMap) (payload : List Byte) :
    (writeUnpacked s codes payload).obuf = s.obuf := rfl
@[simp] theorem writeUnpacked_outLen (s : State) (codes : CodeMap) (payload : List Byte) :
    (writeUnpacked s codes payload).outLen = s.outLen := rfl
@[simp] theorem writeUnpacked_cmd (s : State) (codes : CodeMap) (payload : List Byte) :
    (writeUnpacked s codes payload).cmd = s.cmd := rfl
@[simp] theorem writeUnpacked_status (s : State) (codes : CodeMap) (payload : List Byte) :
    (writeUnpacked s codes payload).status = s.status := rfl
@[simp] theorem writeUnpacked_esticky (s : State) (codes : CodeMap) (payload : List Byte) :
    (writeUnpacked s codes payload).esticky = s.esticky := rfl
@[simp] theorem writeUnpacked_errPos (s : State) (codes : CodeMap) (payload : List Byte) :
    (writeUnpacked s codes payload).errPos = s.errPos := rfl
@[simp] theorem writeUnpacked_errAux (s : State) (codes : CodeMap) (payload : List Byte) :
    (writeUnpacked s codes payload).errAux = s.errAux := rfl
@[simp] theorem writeUnpacked_script (s : State) (codes : CodeMap) (payload : List Byte) :
    (writeUnpacked s codes payload).script = s.script := rfl
@[simp] theorem writeUnpacked_replies (s : State) (codes : CodeMap) (payload : List Byte) :
    (writeUnpacked s codes payload).replies = s.replies := rfl
@[simp] theorem writeUnpacked_bufDraw (s : State) (codes : CodeMap) (payload : List Byte) :
    (writeUnpacked s codes payload).bufDraw = s.bufDraw := rfl
@[simp] theorem writeUnpacked_nodeDraw (s : State) (codes : CodeMap) (payload : List Byte) :
    (writeUnpacked s codes payload).nodeDraw = s.nodeDraw := rfl

/-! ### `writeBuild` -/

@[simp] theorem writeBuild_config (s : State) : (writeBuild s).config = s.config := rfl
@[simp] theorem writeBuild_freq (s : State) : (writeBuild s).freq = s.freq := rfl
@[simp] theorem writeBuild_nodes (s : State) : (writeBuild s).nodes = buildTree s.freq := rfl
@[simp] theorem writeBuild_clen (s : State) :
    (writeBuild s).clen = symFill (codeLength (buildCodes (keys s.freq) (buildTree s.freq))) := rfl
@[simp] theorem writeBuild_cbits (s : State) :
    (writeBuild s).cbits = symFill (codeBitsImage (buildCodes (keys s.freq) (buildTree s.freq))) :=
  rfl
@[simp] theorem writeBuild_ibuf (s : State) : (writeBuild s).ibuf = s.ibuf := rfl
@[simp] theorem writeBuild_inLen (s : State) : (writeBuild s).inLen = s.inLen := rfl
@[simp] theorem writeBuild_bbuf (s : State) : (writeBuild s).bbuf = s.bbuf := rfl
@[simp] theorem writeBuild_bitLen (s : State) : (writeBuild s).bitLen = s.bitLen := rfl
@[simp] theorem writeBuild_obuf (s : State) : (writeBuild s).obuf = s.obuf := rfl
@[simp] theorem writeBuild_outLen (s : State) : (writeBuild s).outLen = s.outLen := rfl
@[simp] theorem writeBuild_cmd (s : State) : (writeBuild s).cmd = s.cmd := rfl
@[simp] theorem writeBuild_status (s : State) : (writeBuild s).status = s.status := rfl
@[simp] theorem writeBuild_esticky (s : State) : (writeBuild s).esticky = s.esticky := rfl
@[simp] theorem writeBuild_errPos (s : State) : (writeBuild s).errPos = s.errPos := rfl
@[simp] theorem writeBuild_errAux (s : State) : (writeBuild s).errAux = s.errAux := rfl
@[simp] theorem writeBuild_script (s : State) : (writeBuild s).script = s.script := rfl
@[simp] theorem writeBuild_replies (s : State) : (writeBuild s).replies = s.replies := rfl
@[simp] theorem writeBuild_bufDraw (s : State) : (writeBuild s).bufDraw = s.bufDraw := rfl
@[simp] theorem writeBuild_nodeDraw (s : State) : (writeBuild s).nodeDraw = s.nodeDraw + 1 := rfl

end Sys2Proof.Machine
end

