-- ==== Sys2Proof/Laws/Buffers.lean ====
section
/-!
SUPPORT. What a command or the host reads from a buffer, before and after a write.
-/

namespace Sys2Proof.Machine

open Sys2Proof

@[simp] theorem bufferOf_withBuffer (s : State) (b c : Buffer) (m : Memory) :
    bufferOf (withBuffer s b m) c = if c = b then m else bufferOf s c := by
  cases b <;> cases c <;> rfl

/-- What a byte reads as depends on that buffer's contents and on the draw alone. -/
theorem readByte_congr {s t : State} {b : Buffer} (hb : bufferOf t b = bufferOf s b)
    (hd : t.bufDraw = s.bufDraw) (a : Nat) : readByte t b a = readByte s b a := by
  simp only [readByte, hb, hd]

/-- `MemRead` depends on that buffer's contents and on the draw alone. -/
theorem readBytes_congr {s t : State} {b : Buffer} (hb : bufferOf t b = bufferOf s b)
    (hd : t.bufDraw = s.bufDraw) (a n : Nat) : readBytes t b a n = readBytes s b a n := by
  simp only [readBytes, readByte_congr hb hd]

@[simp] theorem length_readBytes (s : State) (b : Buffer) (a n : Nat) :
    (readBytes s b a n).length = n := by simp [readBytes]

theorem getElem?_readBytes (s : State) (b : Buffer) (a n k : Nat) (h : k < n) :
    (readBytes s b a n)[k]? = some (readByte s b (a + k)) := by
  simp [readBytes, h]

theorem mem_readBytes {s : State} {b : Buffer} {a n : Nat} {x : Byte} :
    x ∈ readBytes s b a n ↔ ∃ k < n, readByte s b (a + k) = x := by
  simp [readBytes]

/-- What a byte reads as after `MemWrite`: the byte written, or what it read as before. -/
theorem readByte_writeBytes (s : State) (b c : Buffer) (a i : Nat) (bs : List Byte) :
    readByte (writeBytes s b a bs) c i =
      if c = b ∧ a ≤ i ∧ i < a + bs.length then bs.getD (i - a) 0 else readByte s c i := by
  have hd : (writeBytes s b a bs).bufDraw = s.bufDraw := writeBytes_bufDraw s b a bs
  by_cases hc : c = b
  · subst hc
    have hm : bufferOf (writeBytes s c a bs) c = (bufferOf s c).write a bs := by
      rw [writeBytes, bufferOf_withBuffer, if_pos rfl]
    simp only [readByte, hm, hd, Memory.get?_write, true_and]
    by_cases h : a ≤ i ∧ i < a + bs.length
    · have hi : i - a < bs.length := by omega
      rw [if_pos h, if_pos h, List.getElem?_eq_getElem hi, List.getD_eq_getElem _ _ hi]
    · rw [if_neg h, if_neg h]
  · rw [if_neg fun h => hc h.1]
    exact readByte_congr (by rw [writeBytes, bufferOf_withBuffer, if_neg hc]) hd i

/-- `MemRead` of what `MemWrite` has just written. -/
theorem readBytes_writeBytes (s : State) (b : Buffer) (a : Nat) (bs : List Byte) :
    readBytes (writeBytes s b a bs) b a bs.length = bs := by
  apply List.ext_getElem?
  intro k
  by_cases hk : k < bs.length
  · rw [getElem?_readBytes _ _ _ _ _ hk, readByte_writeBytes,
      if_pos ⟨rfl, Nat.le_add_right a k, Nat.add_lt_add_left hk a⟩, Nat.add_sub_cancel_left,
      List.getD_eq_getElem _ _ hk, List.getElem?_eq_getElem hk]
  · rw [List.getElem?_eq_none (by simpa using hk), List.getElem?_eq_none (by simpa using hk)]

@[simp] theorem length_inputBytes (s : State) : (inputBytes s).length = s.inLen.toNat := by
  simp [inputBytes]

@[simp] theorem length_outputBytes (s : State) : (outputBytes s).length = s.outLen.toNat := by
  simp [outputBytes]

@[simp] theorem length_encodedBits (s : State) : (encodedBits s).length = s.bitLen.toNat := by
  simp [encodedBits, unpackBits]

/-- The input is the same wherever `IBUF`, `IN_LEN` and the draw are. -/
theorem inputBytes_congr {s t : State} (hm : t.ibuf = s.ibuf) (hl : t.inLen = s.inLen)
    (hd : t.bufDraw = s.bufDraw) : inputBytes t = inputBytes s := by
  rw [inputBytes, inputBytes, hl]
  exact readBytes_congr (b := .ibuf) hm hd _ _

/-- The bits are the same wherever `BBUF`, `BIT_LEN` and the draw are. -/
theorem encodedBits_congr {s t : State} (hm : t.bbuf = s.bbuf) (hl : t.bitLen = s.bitLen)
    (hd : t.bufDraw = s.bufDraw) : encodedBits t = encodedBits s := by
  rw [encodedBits, encodedBits, hl, readBytes_congr (s := s) (t := t) (b := .bbuf) hm hd]

/-- The codes are the same wherever `CLEN` and `CBITS` are. -/
theorem codeOf_congr {s t : State} (hl : t.clen = s.clen) (hb : t.cbits = s.cbits) :
    codeOf t = codeOf s := by
  funext x
  rw [codeOf, codeOf, hl, hb]

/-- The code map is the same wherever `CLEN` and `CBITS` are. -/
theorem codeMap_congr {s t : State} (hl : t.clen = s.clen) (hb : t.cbits = s.cbits) :
    codeMap t = codeMap s := by
  rw [codeMap, codeMap, codeDomain, codeDomain, hl, codeOf_congr hl hb]

end Sys2Proof.Machine
end

