-- ==== Sys2Proof/Laws/Registers.lean ====
section
/-!
SUPPORT. The laws of the 256-entry register files, of the list of all symbols, and of the lookups
over them.
-/

namespace Sys2Proof.Machine

open Sys2Proof

variable {α : Type}

theorem symGet_symSet (v : Vector α 256) (x y : Byte) (a : α) :
    symGet (symSet v x a) y = if y = x then a else symGet v y := by
  unfold symGet symSet
  rw [Vector.getElem_set]
  by_cases h : y = x
  · simp [h]
  · rw [if_neg h, if_neg fun e => h (BitVec.eq_of_toNat_eq e.symm)]

@[simp] theorem symGet_symFill (f : Byte → α) (x : Byte) : symGet (symFill f) x = f x := by
  unfold symGet symFill
  simp [allSymbols]

@[simp] theorem symGet_replicate (a : α) (x : Byte) : symGet (Vector.replicate 256 a) x = a := by
  unfold symGet
  exact Vector.getElem_replicate _

/-- Two register files that agree on every symbol are equal. -/
theorem eq_of_symGet_eq {v w : Vector α 256} (h : ∀ x, symGet v x = symGet w x) : v = w := by
  apply Vector.ext
  intro i hi
  have hx : (BitVec.ofNat 8 i).toNat = i := by simpa using hi
  have := h (BitVec.ofNat 8 i)
  unfold symGet at this
  simpa only [hx] using this

@[simp] theorem length_allSymbols : allSymbols.length = 256 := by simp [allSymbols]

theorem getElem_allSymbols (i : Nat) (h : i < allSymbols.length) :
    allSymbols[i] = BitVec.ofNat 8 i := by simp [allSymbols]

@[simp] theorem mem_allSymbols (x : Byte) : x ∈ allSymbols := by
  unfold allSymbols
  exact List.mem_map.2 ⟨x.toNat, List.mem_range.2 x.isLt, by simp⟩

/-- The symbols stand in ascending order. -/
theorem allSymbols_ascending : allSymbols.Pairwise fun x y => x.toNat < y.toNat := by
  unfold allSymbols
  rw [List.pairwise_map]
  refine List.Pairwise.imp_of_mem ?_ List.pairwise_lt_range
  intro a b ha hb hab
  have := List.mem_range.1 ha
  have := List.mem_range.1 hb
  simp only [BitVec.toNat_ofNat]
  omega

theorem allSymbols_nodup : allSymbols.Nodup :=
  allSymbols_ascending.imp fun h e => by simp [e] at h

/-- `symbolsWith` by index: the symbols whose register is not 0. -/
theorem symbolsWith_eq {w : Nat} (v : Vector (BitVec w) 256) :
    symbolsWith v = allSymbols.filter fun x => symGet v x ≠ 0 := by
  have hv : v.toList = allSymbols.map (symGet v) := by
    apply List.ext_getElem
    · simp
    · intro i h1 h2
      have hi : i < 256 := by simpa using h1
      simp [allSymbols, symGet, Nat.mod_eq_of_lt hi]
  have hz (l : List Byte) : (((l.zip (l.map (symGet v))).filter fun e => e.2 ≠ 0).map Prod.fst) =
      l.filter fun x => symGet v x ≠ 0 := by
    induction l with
    | nil => rfl
    | cons x rest ih =>
      by_cases hx : symGet v x = 0 <;> simp_all
  rw [symbolsWith, hv, hz]

@[simp] theorem mem_keys {freq : Vector Word64 256} {x : Byte} :
    x ∈ keys freq ↔ symGet freq x ≠ 0 := by simp [keys, symbolsWith_eq]

theorem keys_ascending (freq : Vector Word64 256) :
    (keys freq).Pairwise fun x y => x.toNat < y.toNat := by
  rw [keys, symbolsWith_eq]
  exact allSymbols_ascending.filter _

theorem length_keys_le (freq : Vector Word64 256) : (keys freq).length ≤ 256 :=
  by rw [keys, symbolsWith_eq, ← length_allSymbols]; exact List.length_filter_le _ _

@[simp] theorem mem_codeDomain {s : State} {x : Byte} :
    x ∈ codeDomain s ↔ symGet s.clen x ≠ 0 := by simp [codeDomain, symbolsWith_eq]

theorem codeDomain_ascending (s : State) :
    (codeDomain s).Pairwise fun x y => x.toNat < y.toNat := by
  rw [codeDomain, symbolsWith_eq]
  exact allSymbols_ascending.filter _

theorem mem_codeMap {s : State} {e : Byte × Bits} :
    e ∈ codeMap s ↔ symGet s.clen e.1 ≠ 0 ∧ e.2 = codeOf s e.1 := by
  obtain ⟨x, c⟩ := e
  simp only [codeMap, List.mem_map, mem_codeDomain, Prod.mk.injEq]
  constructor
  · rintro ⟨y, hy, rfl, rfl⟩; exact ⟨hy, rfl⟩
  · rintro ⟨hx, rfl⟩; exact ⟨x, hx, rfl, rfl⟩

/-- A code has as many bits as its `CLEN` register says. -/
@[simp] theorem length_codeOf (s : State) (x : Byte) :
    (codeOf s x).length = (symGet s.clen x).toNat := by simp [codeOf, imageBits]

/-- A lookup in a code map finds an entry of it. -/
theorem mem_of_lookupCode {codes : CodeMap} {x : Byte} {c : Bits}
    (h : lookupCode codes x = some c) : (x, c) ∈ codes := by
  induction codes with
  | nil => simp [lookupCode] at h
  | cons e rest ih =>
    obtain ⟨y, d⟩ := e
    simp only [lookupCode] at h
    split at h
    · rename_i hyx; subst hyx; simp_all
    · exact List.mem_cons_of_mem _ (ih h)

/-- A lookup fails exactly where the code map has no entry for the symbol. -/
theorem lookupCode_eq_none {codes : CodeMap} {x : Byte} :
    lookupCode codes x = none ↔ ∀ c, (x, c) ∉ codes := by
  induction codes with
  | nil => simp [lookupCode]
  | cons e rest ih =>
    obtain ⟨y, d⟩ := e
    simp only [lookupCode]
    by_cases hyx : y = x
    · subst hyx
      simp only [if_true, reduceCtorEq, false_iff, not_forall, not_not]
      exact ⟨d, List.mem_cons_self⟩
    · simp only [if_neg hyx, ih, List.mem_cons, Prod.mk.injEq, not_or, not_and]
      exact forall_congr' fun c => ⟨fun h => ⟨fun e => absurd e.symm hyx, h⟩, fun h => h.2⟩

/-- Where no symbol has two entries, a lookup finds the entry. -/
theorem lookupCode_eq_some {codes : CodeMap} {x : Byte} {c : Bits}
    (hd : codes.Pairwise fun e f => e.1 ≠ f.1) (h : (x, c) ∈ codes) :
    lookupCode codes x = some c := by
  induction codes with
  | nil => simp at h
  | cons e rest ih =>
    obtain ⟨y, d⟩ := e
    have hp := List.pairwise_cons.1 hd
    simp only [lookupCode]
    rcases List.mem_cons.1 h with h | h
    · simp_all
    · rw [if_neg (hp.1 (x, c) h)]
      exact ih hp.2 h

end Sys2Proof.Machine
end

