-- ==== Sys2Proof/Laws/Build.lean ====
section
/-!
SUPPORT. The queue of BUILD and its combination loop: the queue stays in the order of R92, its head
is the least entry, and the loop only appends nodes to the arena.
-/

namespace Sys2Proof.Machine

open Sys2Proof

theorem QueueEntry.before_iff (x y : QueueEntry) :
    x.before y = true ↔
      x.freq.toNat < y.freq.toNat ∨ (x.freq = y.freq ∧ x.handle < y.handle) := by
  simp [QueueEntry.before, BitVec.lt_def]

theorem QueueEntry.before_trans {x y z : QueueEntry} (hxy : x.before y = true)
    (hyz : y.before z = true) : x.before z = true := by
  rw [QueueEntry.before_iff] at *
  rcases hxy with h | ⟨h, h'⟩ <;> rcases hyz with k | ⟨k, k'⟩
  · exact .inl (by omega)
  · exact .inl (k ▸ h)
  · exact .inl (h ▸ k)
  · exact .inr ⟨h.trans k, by omega⟩

/-- The order of the queue is total on distinct handles (R92). -/
theorem QueueEntry.before_total {x y : QueueEntry} (h : x.handle ≠ y.handle)
    (hxy : x.before y = false) : y.before x = true := by
  rw [QueueEntry.before_iff]
  have hn : ¬ (x.freq.toNat < y.freq.toNat ∨ (x.freq = y.freq ∧ x.handle < y.handle)) := by
    rw [← QueueEntry.before_iff, hxy]; simp
  push Not at hn
  rcases Nat.lt_or_ge y.freq.toNat x.freq.toNat with hl | hl
  · exact .inl hl
  · have he : x.freq = y.freq := BitVec.eq_of_toNat_eq (Nat.le_antisymm hl hn.1)
    exact .inr ⟨he.symm, by have := hn.2 he; omega⟩

/-- Insertion puts the entry in and loses none. -/
theorem enqueue_perm (x : QueueEntry) (q : List QueueEntry) : (enqueue x q).Perm (x :: q) := by
  induction q with
  | nil => exact .refl _
  | cons y q ih =>
    simp only [enqueue]
    split
    · exact .refl _
    · exact (ih.cons y).trans (.swap x y q)

@[simp] theorem length_enqueue (x : QueueEntry) (q : List QueueEntry) :
    (enqueue x q).length = q.length + 1 := (enqueue_perm x q).length_eq

/-- Insertion keeps the queue in the order of R92, so its head is always the least entry. -/
theorem enqueue_sorted {x : QueueEntry} {q : List QueueEntry}
    (hq : q.Pairwise fun a b => a.before b = true) (hx : ∀ y ∈ q, x.handle ≠ y.handle) :
    (enqueue x q).Pairwise fun a b => a.before b = true := by
  induction q with
  | nil => exact List.pairwise_singleton _ _
  | cons y q ih =>
    have hp := List.pairwise_cons.1 hq
    simp only [enqueue]
    split
    · rename_i hxy
      refine List.pairwise_cons.2 ⟨fun z hz => ?_, hq⟩
      rcases List.mem_cons.1 hz with rfl | hz
      · exact hxy
      · exact QueueEntry.before_trans hxy (hp.1 z hz)
    · rename_i hxy
      have hyx := QueueEntry.before_total (hx y List.mem_cons_self) (by simpa using hxy)
      refine List.pairwise_cons.2 ⟨fun z hz => ?_,
        ih hp.2 fun z hz => hx z (List.mem_cons_of_mem _ hz)⟩
      rcases List.mem_cons.1 ((enqueue_perm x q).mem_iff.1 hz) with rfl | hz
      · exact hyx
      · exact hp.1 z hz

/-- The loop only appends nodes: the arena it starts from stands first in the arena it ends with. -/
theorem combine_extends (rounds : Nat) (nodes : List Node) (q : List QueueEntry) :
    ∃ more, combine rounds nodes q = nodes ++ more := by
  induction rounds generalizing nodes q with
  | zero => exact ⟨[], by simp [combine]⟩
  | succ rounds ih =>
    match q with
    | [] => exact ⟨[], by simp [combine]⟩
    | [_] => exact ⟨[], by simp [combine]⟩
    | a :: b :: q =>
      obtain ⟨more, h⟩ := ih (nodes ++ [internalNode a b])
        (enqueue ⟨(internalNode a b).freq, nodes.length⟩ q)
      exact ⟨internalNode a b :: more, by rw [combine]; simpa using h⟩

/-- Where the bound suffices, the loop makes one node less than the queue holds. -/
theorem length_combine (rounds : Nat) (nodes : List Node) (q : List QueueEntry)
    (h : q.length ≤ rounds + 1) :
    (combine rounds nodes q).length = nodes.length + (q.length - 1) := by
  induction rounds generalizing nodes q with
  | zero => simp only [combine]; omega
  | succ rounds ih =>
    match q with
    | [] => simp [combine]
    | [_] => simp [combine]
    | a :: b :: q =>
      rw [combine, ih _ _ (by simp only [length_enqueue, List.length_cons] at *; omega)]
      simp only [List.length_append, length_enqueue, List.length_cons, List.length_nil]
      omega

theorem length_enqueueNodes (h : Nat) (q : List QueueEntry) (nodes : List Node) :
    (enqueueNodes h q nodes).length = q.length + nodes.length := by
  induction nodes generalizing h q with
  | nil => rfl
  | cons nd rest ih => rw [enqueueNodes, ih, length_enqueue, List.length_cons]; omega

@[simp] theorem length_leafNodes (freq : Vector Word64 256) :
    (leafNodes freq).length = (keys freq).length := by simp [leafNodes]

end Sys2Proof.Machine
end

