-- ==== Sys2Proof/Laws/Commands.lean ====
section
/-!
SUPPORT. What each command, each host access and a step can do, said once: every later proof about
an outcome starts from one of these and need not unfold a meaning.
-/

namespace Sys2Proof.Machine

open Sys2Proof

/-- The two ways COUNT ends (R87). -/
theorem execCount_cases (s : State) :
    (s.config.ibufBytes < s.inLen.toNat ∧
      execCount s = .next (report (inputTooLongError s) s)) ∨
    (s.inLen.toNat ≤ s.config.ibufBytes ∧
      execCount s = .next (finishOk { s with freq := countBytes (inputBytes s) })) := by
  by_cases h : s.config.ibufBytes < s.inLen.toNat
  · exact .inl ⟨h, by simp [execCount, inputTooLong, h]⟩
  · exact .inr ⟨Nat.le_of_not_lt h, by simp [execCount, inputTooLong, h]⟩

/-- The two ways BUILD ends (R97): in both its result is written. -/
theorem execBuild_cases (s : State) :
    (keys s.freq = [] ∧ execBuild s = .next (report .emptyInput (writeBuild s))) ∨
    (keys s.freq ≠ [] ∧ execBuild s = .next (finishOk (writeBuild s))) := by
  by_cases h : keys s.freq = []
  · exact .inl ⟨h, by simp [execBuild, h]⟩
  · exact .inr ⟨h, by simp [execBuild, h]⟩

/-- The four ways ENCODE ends (R106). -/
theorem execEncode_cases (s : State) :
    (s.config.ibufBytes < s.inLen.toNat ∧
      execEncode s = .next (report (inputTooLongError s) s)) ∨
    (s.inLen.toNat ≤ s.config.ibufBytes ∧ ∃ e,
      encodedLength s (inputBytes s) 0 0 = .error e ∧ execEncode s = .next (report e s)) ∨
    (s.inLen.toNat ≤ s.config.ibufBytes ∧ ∃ n,
      encodedLength s (inputBytes s) 0 0 = .ok n ∧ 8 * s.config.bbufBytes < n ∧
      execEncode s = .next (report (.capacity n .bitBufferFull) s)) ∨
    (s.inLen.toNat ≤ s.config.ibufBytes ∧ ∃ n,
      encodedLength s (inputBytes s) 0 0 = .ok n ∧ n ≤ 8 * s.config.bbufBytes ∧
      execEncode s =
        .next (finishOk (writeEncoded s (encodeBytes (codeOf s) (inputBytes s))))) := by
  by_cases h : s.config.ibufBytes < s.inLen.toNat
  · exact .inl ⟨h, by simp [execEncode, inputTooLong, h]⟩
  · have hle := Nat.le_of_not_lt h
    cases hn : encodedLength s (inputBytes s) 0 0 with
    | error e => exact .inr (.inl ⟨hle, e, rfl, by simp [execEncode, inputTooLong, h, hn]⟩)
    | ok n =>
      by_cases hc : 8 * s.config.bbufBytes < n
      · exact .inr (.inr (.inl ⟨hle, n, rfl, hc, by simp [execEncode, inputTooLong, h, hn, hc]⟩))
      · exact .inr (.inr (.inr ⟨hle, n, rfl, Nat.le_of_not_lt hc,
          by simp [execEncode, inputTooLong, h, hn, hc]⟩))

/-- The four ways DECODE ends (R110), with `r` the scan of the bits. -/
theorem execDecode_cases (s : State) :
    let r := decodeBits (codeMap s) (encodedBits s)
    (8 * s.config.bbufBytes < s.bitLen.toNat ∧
      execDecode s = .next (report (bitsTooLongError s) s)) ∨
    (s.bitLen.toNat ≤ 8 * s.config.bbufBytes ∧ s.config.obufBytes < r.out.length ∧
      execDecode s = .next (report (.capacity r.out.length .outputFull) s)) ∨
    (s.bitLen.toNat ≤ 8 * s.config.bbufBytes ∧ r.out.length ≤ s.config.obufBytes ∧ r.cand = [] ∧
      execDecode s = .next (finishOk (writeOutput s r.out))) ∨
    (s.bitLen.toNat ≤ 8 * s.config.bbufBytes ∧ r.out.length ≤ s.config.obufBytes ∧ r.cand ≠ [] ∧
      execDecode s = .next (report (.ambiguousTrailingBits r.start) (writeOutput s r.out))) := by
  intro r
  by_cases h : 8 * s.config.bbufBytes < s.bitLen.toNat
  · exact .inl ⟨h, by simp [execDecode, bitsTooLong, h]⟩
  · have hle := Nat.le_of_not_lt h
    by_cases ho : s.config.obufBytes < r.out.length
    · exact .inr (.inl ⟨hle, ho, by simp [execDecode, bitsTooLong, h, ho, r]⟩)
    · have hol := Nat.le_of_not_lt ho
      by_cases hc : r.cand = []
      · exact .inr (.inr (.inl ⟨hle, hol, hc,
          by simp [execDecode, bitsTooLong, h, show ¬ _ < _ from ho, show r.cand = [] from hc, r]⟩))
      · refine .inr (.inr (.inr ⟨hle, hol, hc, ?_⟩))
        simp only [execDecode, bitsTooLong, decide_eq_true_eq, if_neg h]
        rw [if_neg ho, if_neg (by simpa using hc)]

/-- The three ways PACK ends (R121). -/
theorem execPack_cases (s : State) :
    (8 * s.config.bbufBytes < s.bitLen.toNat ∧
      execPack s = .next (report (bitsTooLongError s) s)) ∨
    (s.bitLen.toNat ≤ 8 * s.config.bbufBytes ∧ s.config.obufBytes < containerSize s ∧
      execPack s = .next (report (.capacity (containerSize s) .outputFull) s)) ∨
    (s.bitLen.toNat ≤ 8 * s.config.bbufBytes ∧ containerSize s ≤ s.config.obufBytes ∧
      execPack s =
        .next (finishOk (writeOutput s (packContainer (codeMap s) (encodedBits s))))) := by
  by_cases h : 8 * s.config.bbufBytes < s.bitLen.toNat
  · exact .inl ⟨h, by simp [execPack, bitsTooLong, h]⟩
  · have hle := Nat.le_of_not_lt h
    by_cases ho : s.config.obufBytes < containerSize s
    · exact .inr (.inl ⟨hle, ho, by simp [execPack, bitsTooLong, h, ho]⟩)
    · exact .inr (.inr ⟨hle, Nat.le_of_not_lt ho, by simp [execPack, bitsTooLong, h, ho]⟩)

/-- The four ways UNPACK ends (R126). -/
theorem execUnpack_cases (s : State) :
    (s.config.ibufBytes < s.inLen.toNat ∧
      execUnpack s = .next (report (inputTooLongError s) s)) ∨
    (s.inLen.toNat ≤ s.config.ibufBytes ∧ ∃ e,
      parseContainer (inputBytes s) = .error e ∧ execUnpack s = .next (report e s)) ∨
    (s.inLen.toNat ≤ s.config.ibufBytes ∧ ∃ codes p,
      parseContainer (inputBytes s) = .ok (codes, p) ∧
      s.config.bbufBytes < ((inputBytes s).drop p).length ∧
      execUnpack s =
        .next (report (.capacity (8 * ((inputBytes s).drop p).length) .bitBufferFull) s)) ∨
    (s.inLen.toNat ≤ s.config.ibufBytes ∧ ∃ codes p,
      parseContainer (inputBytes s) = .ok (codes, p) ∧
      ((inputBytes s).drop p).length ≤ s.config.bbufBytes ∧
      execUnpack s = .next (finishOk (writeUnpacked s codes ((inputBytes s).drop p)))) := by
  by_cases h : s.config.ibufBytes < s.inLen.toNat
  · exact .inl ⟨h, by simp [execUnpack, inputTooLong, h]⟩
  · have hle := Nat.le_of_not_lt h
    cases hn : parseContainer (inputBytes s) with
    | error e => exact .inr (.inl ⟨hle, e, rfl, by simp [execUnpack, inputTooLong, h, hn]⟩)
    | ok r =>
      obtain ⟨codes, p⟩ := r
      by_cases hc : s.config.bbufBytes < ((inputBytes s).drop p).length
      · refine .inr (.inr (.inl ⟨hle, codes, p, rfl, hc, ?_⟩))
        simp only [execUnpack, inputTooLong, decide_eq_true_eq, if_neg h, hn]
        rw [if_pos hc]
      · refine .inr (.inr (.inr ⟨hle, codes, p, rfl, Nat.le_of_not_lt hc, ?_⟩))
        simp only [execUnpack, inputTooLong, decide_eq_true_eq, if_neg h, hn]
        rw [if_neg hc]

/-- What the check pass of ENCODE can report: the first byte without a code, with its index. -/
theorem encodedLength_error {s : State} {bs : List Byte} {i n : Nat} {e : CmdError}
    (h : encodedLength s bs i n = .error e) :
    ∃ k x, bs[k]? = some x ∧ symGet s.clen x = 0 ∧ e = .unknownSymbol (i + k) x ∧
      ∀ j < k, ∀ y, bs[j]? = some y → symGet s.clen y ≠ 0 := by
  induction bs generalizing i n with
  | nil => simp [encodedLength] at h
  | cons x rest ih =>
    simp only [encodedLength] at h
    split at h
    · rename_i hx
      exact ⟨0, x, rfl, hx, (Except.error.inj h).symm, fun j hj => absurd hj (Nat.not_lt_zero j)⟩
    · rename_i hx
      obtain ⟨k, y, hk, hy, he, hall⟩ := ih h
      refine ⟨k + 1, y, hk, hy, by rw [he, Nat.add_assoc, Nat.add_comm 1 k], ?_⟩
      intro j hj z hz
      cases j with
      | zero => cases hz; exact hx
      | succ j => exact hall j (Nat.lt_of_succ_lt_succ hj) z hz

/-- Where every byte has a code the check pass gives the length of the encoding. -/
theorem encodedLength_ok {s : State} {bs : List Byte} {i n : Nat}
    (h : ∀ x ∈ bs, symGet s.clen x ≠ 0) :
    encodedLength s bs i n = .ok (n + (bs.flatMap (codeOf s)).length) := by
  induction bs generalizing i n with
  | nil => rfl
  | cons x rest ih =>
    have hx : symGet s.clen x ≠ 0 := h x List.mem_cons_self
    rw [encodedLength, if_neg hx, ih fun y hy => h y (List.mem_cons_of_mem _ hy)]
    simp [List.flatMap_cons, Nat.add_assoc]

/-- A reverse lookup finds an entry with exactly the candidate as its code. -/
theorem symbolOfCode_some {codes : CodeMap} {cand : Bits} {x : Byte}
    (h : symbolOfCode codes cand = some x) : (x, cand) ∈ codes := by
  induction codes with
  | nil => simp [symbolOfCode] at h
  | cons e rest ih =>
    obtain ⟨y, d⟩ := e
    simp only [symbolOfCode] at h
    split at h
    · rename_i hd; subst hd; simp_all
    · exact List.mem_cons_of_mem _ (ih h)

/-- A reverse lookup fails exactly where no code is the candidate. -/
theorem symbolOfCode_none {codes : CodeMap} {cand : Bits} :
    symbolOfCode codes cand = none ↔ ∀ e ∈ codes, e.2 ≠ cand := by
  induction codes with
  | nil => simp [symbolOfCode]
  | cons e rest ih =>
    obtain ⟨y, d⟩ := e
    simp only [symbolOfCode]
    by_cases hd : d = cand
    · simp [hd]
    · simp [hd, ih]

/-- A host write to an element that is there is the write to that element. -/
theorem hostWrite_of_locate {s : State} {bank index : Nat} {l : Location}
    (h : locate s.config bank index = some l) (v : HostWord) :
    hostWrite bank index v s = writeLocation l v s := by simp [hostWrite, h]

/-- A host write where no element is changes nothing (R47). -/
theorem hostWrite_of_unassigned {s : State} {bank index : Nat}
    (h : locate s.config bank index = none) (v : HostWord) :
    hostWrite bank index v s = .next s := by simp [hostWrite, h]

/-- A host read where no element is returns 0 (R47). -/
theorem hostRead_of_unassigned {s : State} {bank index : Nat}
    (h : locate s.config bank index = none) : hostRead s bank index = 0 := by simp [hostRead, h]

/-- A step carries out the next action of the script. -/
theorem step_of_script {s : State} {a : HostAction} {rest : List HostAction}
    (h : s.script = a :: rest) : step s = perform a { s with script := rest } := by
  simp [step, nextAction, h]

/-- The two outcomes of a `CMD` write (R142): the command runs, or IllegalCommand is reported. -/
theorem startCommand_cases (v : Byte) (s : State) :
    (∃ i, decode v = .ok i ∧ startCommand v s = exec i { s with cmd := v }) ∨
    (∃ op, decode v = .error (.illegalCommand op) ∧
      startCommand v s = .next (report (.illegalCommand op) { s with cmd := v })) := by
  cases h : decode v with
  | ok i => exact .inl ⟨i, rfl, by simp [startCommand, h]⟩
  | error e =>
    obtain ⟨op⟩ := e
    exact .inr ⟨op, rfl, by simp [startCommand, h]⟩

end Sys2Proof.Machine
end

