-- ==== Sys2Proof/Laws/PerInstr.lean ====
section
/-!
SUPPORT. Statements about every command as syntax, one lemma per constructor: a command is
well-formed and its code is one of the six that spec/30_encoding.md R62 and R63 admit.
-/

namespace Sys2Proof.Laws.CodeInRange

open Sys2Proof

/-- The command is well-formed and its code lies in 0x01 to 0x06. -/
def Statement (i : Instr) : Prop :=
  i.wellFormed = true ∧ 1 ≤ (encode i).toNat ∧ (encode i).toNat ≤ 6

theorem count : Statement .count := by unfold Statement; decide

theorem build : Statement .build := by unfold Statement; decide

theorem encode : Statement .encode := by unfold Statement; decide

theorem decode : Statement .decode := by unfold Statement; decide

theorem pack : Statement .pack := by unfold Statement; decide

theorem unpack : Statement .unpack := by unfold Statement; decide

end Sys2Proof.Laws.CodeInRange
end

