-- ==== Sys2Proof/Tests/Slice0.lean ====
section
/-!
SUPPORT. The model's own tests. Expected results are those of spec/95_test_vectors.md or hand
calculation from the rules; each docstring names the vector. After them, for every statement with
hypotheses, a witness that meets them.
-/

namespace Sys2Proof.Tests

-- The tests are checked one after another, so that their kernel evaluations do not stand in memory
-- together.
set_option Elab.async false

open Sys2Proof Sys2Proof.Machine

/-! ## Helpers -/

/-- The reset state with input bytes. -/
def withInput (bs : List Byte) : State :=
  { writeBytes State.reset .ibuf 0 bs with inLen := BitVec.ofNat 64 bs.length }

/-- A state with other counters: the listed ones, every other one 0. -/
def withFreq (s : State) (fs : List (Byte × Word64)) : State :=
  { s with freq := fs.foldl (fun v e => symSet v e.1 e.2) (Vector.replicate 256 0) }

/-- A state with bits in `BBUF`. -/
def withBits (s : State) (bs : List Byte) (n : Nat) : State :=
  { writeBytes s .bbuf 0 bs with bitLen := BitVec.ofNat 64 n }

/-- The table of V-B2: a 0, b 11, c 101, d 100. -/
def tableB2 : CodeMap :=
  [(0x61, [false]), (0x62, [true, true]), (0x63, [true, false, true]), (0x64, [true, false, false])]

/-- A test on the next state of an outcome. -/
def onNext (o : Host.Outcome State Fault Refusal) (p : State → Bool) : Bool :=
  match o with
  | .next t => p t
  | .fault _ => false
  | .refused _ => false

/-- The four status registers: STATUS, ERR_POS, ERR_AUX, ESTICKY. -/
def statusRegs (s : State) : Nat × Nat × Nat × Nat :=
  (s.status.toNat, s.errPos.toNat, s.errAux.toNat, s.esticky.toNat)

/-! ## Decoding: each word of R62 written out bit by bit -/

theorem test_decode_count : decode 0b00000001 = .ok .count := by decide
theorem test_decode_build : decode 0b00000010 = .ok .build := by decide
theorem test_decode_encode : decode 0b00000011 = .ok .encode := by decide
theorem test_decode_decode : decode 0b00000100 = .ok .decode := by decide
theorem test_decode_pack : decode 0b00000101 = .ok .pack := by decide
theorem test_decode_unpack : decode 0b00000110 = .ok .unpack := by decide

/-- R63: the codes next to the six are refused. -/
theorem test_decode_illegal :
    decode 0x00 = .error (.illegalCommand 0x00) ∧ decode 0x07 = .error (.illegalCommand 0x07) ∧
    decode 0xFF = .error (.illegalCommand 0xFF) := by decide

/-- A table word of eight bits is read from its low byte. -/
theorem test_decode_table_word :
    decodeTableWord 8 0x05 = some .pack ∧ decodeTableWord 8 0x07 = none := by decide

/-! ## Well-formedness: an ill-formed term for each check -/

theorem test_config_zero_capacity : (Config.mk 0 1 1).wellFormed = false := by decide
theorem test_config_too_large : (Config.mk 1 1 (2 ^ 48 + 1)).wellFormed = false := by decide
theorem test_config_reference : Config.reference.wellFormed = true := by decide

theorem test_action_unassigned_register :
    HostAction.wellFormed Config.reference (.read 0 0x0A) = false := by decide
theorem test_action_no_such_symbol :
    HostAction.wellFormed Config.reference (.write 1 256 5) = false := by decide
theorem test_action_no_such_slot :
    HostAction.wellFormed Config.reference (.read 4 511) = false := by decide
theorem test_action_no_such_byte :
    HostAction.wellFormed Config.reference (.read 5 65536) = false := by decide
theorem test_action_no_such_bank :
    HostAction.wellFormed Config.reference (.read 9 0) = false := by decide

/-! ## The commands -/

/-- V-C3. -/
theorem test_count_bytes :
    onNext (exec .count (withInput [0x00, 0xFF, 0x00, 0xFF, 0x00, 0x80])) (fun t =>
      symGet t.freq 0x00 = 3 && symGet t.freq 0x80 = 1 && symGet t.freq 0xFF = 2 &&
        symGet t.freq 0x01 = 0) = true := by decide +kernel

/-- V-C7. -/
theorem test_count_capacity :
    onNext (exec .count { State.reset with config := ⟨16, 16, 16⟩, inLen := 17 }) (fun t =>
      statusRegs t = (6, 17, 1, 0x40)) = true := by decide +kernel

/-- V-B2: the nodes and the table. -/
theorem test_build_tree :
    onNext (exec .build (withFreq State.reset [(0x61, 5), (0x62, 4), (0x63, 2), (0x64, 1)]))
      (fun t => (t.nodes.map Node.image).drop 4 =
          [0x40000000000000000000C0602, 0x40000000000000000001C0801, 0x4000000000000000000300005] &&
        symGet t.clen 0x61 = 1 && symGet t.cbits 0x62 = 0xC0 <<< 248 &&
        symGet t.cbits 0x63 = 0xA0 <<< 248 && symGet t.clen 0x64 = 3) = true := by decide +kernel

/-- V-B4: a leaf goes before an internal node of equal frequency. -/
theorem test_build_tie_break :
    onNext (exec .build (withFreq State.reset [(0x61, 1), (0x62, 1), (0x63, 2)])) (fun t =>
      (t.nodes.map fun n => (n.freq.toNat, n.left.toNat, n.right.toNat)).drop 3 =
        [(2, 0, 1), (4, 2, 3)]) = true := by decide +kernel

/-- V-E12 and V-E1's start: the low bits of the last byte are zero, later bytes are kept. -/
theorem test_encode_padding :
    onNext (exec .encode { withBits (writeCodes (withInput [0x64]) tableB2) [0xFF, 0xFF] 16 with
      errPos := 9 }) (fun t =>
        t.bitLen = 3 && readByte t .bbuf 0 = 0x80 && readByte t .bbuf 1 = 0xFF &&
        statusRegs t = (0, 0, 0, 0)) = true := by decide +kernel

/-- V-E8. -/
theorem test_encode_unknown_symbol :
    onNext (exec .encode (writeCodes (withInput [0x61, 0x62, 0x78, 0x64]) tableB2)) (fun t =>
      statusRegs t = (2, 2, 0x78, 0x04) && t.bbuf = [] && t.bitLen = 0) = true := by decide +kernel

/-- V-D6. -/
theorem test_decode_bits :
    onNext (exec .decode (withBits (writeCodes State.reset tableB2) [0x07, 0xFD, 0xB0] 23))
      (fun t => outputBytes t = [0x61, 0x61, 0x61, 0x61, 0x61, 0x62, 0x62, 0x62, 0x62, 0x63, 0x63,
        0x64, 0x61] && statusRegs t = (0, 0, 0, 0)) = true := by decide +kernel

/-- V-D12: the residual is reported where it starts. -/
theorem test_decode_residual :
    onNext (exec .decode (withBits (writeCodes State.reset [(0x61, [false])]) [0x40] 4)) (fun t =>
      outputBytes t = [0x61] && statusRegs t = (4, 1, 0, 0x10)) = true := by decide +kernel

/-- V-P4. -/
theorem test_pack_container :
    onNext (exec .pack (withBits (writeCodes State.reset [(0x62, [true]), (0x61, [false])])
      [0x40] 2)) (fun t => outputBytes t =
        [0, 0, 0, 0, 0, 0, 0, 2, 0x61, 0, 0, 0, 0, 0, 0, 0, 1, 0x00,
         0x62, 0, 0, 0, 0, 0, 0, 0, 1, 0x80, 0x40]) = true := by decide +kernel

/-- V-P9: bits beyond `BIT_LEN` are written as zero. -/
theorem test_pack_masks_padding :
    onNext (exec .pack (withBits State.reset [0xBF] 3)) (fun t =>
      outputBytes t = [0, 0, 0, 0, 0, 0, 0, 0, 0xA0]) = true := by decide +kernel

/-- V-U4: the padding bits of `code_bits` are ignored. -/
theorem test_unpack_container :
    onNext (exec .unpack (withInput
      [0, 0, 0, 0, 0, 0, 0, 1, 0x61, 0, 0, 0, 0, 0, 0, 0, 1, 0x7F, 0xAA])) (fun t =>
        symGet t.clen 0x61 = 1 && symGet t.cbits 0x61 = 0 && t.bitLen = 8 &&
        readByte t .bbuf 0 = 0xAA && symGet t.clen 0x62 = 0) = true := by decide +kernel

/-- V-U21, and V-U31: the operand check comes before the parse. -/
theorem test_unpack_reports :
    onNext (exec .unpack (withInput
      [0, 0, 0, 0, 0, 0, 0, 2, 0x61, 0, 0, 0, 0, 0, 0, 0, 1, 0x00,
       0x62, 0, 0, 0, 0, 0, 0, 0, 2, 0x40])) (fun t => statusRegs t = (3, 18, 7, 0x08)) = true ∧
    onNext (exec .unpack { State.reset with config := ⟨16, 16, 16⟩, inLen := 17 }) (fun t =>
      statusRegs t = (6, 17, 1, 0x40)) = true := by decide +kernel

/-! ## Host accesses and the step -/

/-- V-H3: the second illegal code. -/
theorem test_step_illegal_command :
    onNext (step { State.reset with script := [.write 0 0x00 0x1FF], esticky := 0x20 }) (fun t =>
      t.cmd = 0xFF && statusRegs t = (5, 0, 0xFF, 0x20)) = true := by decide +kernel

/-- V-H4. -/
theorem test_step_clear_sticky :
    onNext (step { State.reset with script := scriptClearErrors 0x04, esticky := 0x26 }) (fun t =>
      t.esticky = 0x22) = true := by decide +kernel

/-- V-H9. -/
theorem test_step_reserved_ctrl :
    onNext (step { State.reset with script := scriptWr .ctrl 0xFE, inLen := 7 }) (fun t =>
      t.inLen = 7) = true := by decide +kernel

/-- V-H8, on the registers and a buffer. -/
theorem test_step_soft_reset :
    onNext (step { withInput [0x61, 0x62] with script := scriptSoftReset, esticky := 0x04 })
      (fun t => t.inLen = 0 && t.esticky = 0 && readByte t .ibuf 1 = 0x62) = true := by
  decide +kernel

/-- V-H7: a read where no element is. -/
theorem test_step_unassigned_read :
    onNext (step { State.reset with script := [.read 0 0x0A], replies := [3] }) (fun t =>
      t.replies = [3, 0] && t.script = []) = true := by decide +kernel

/-- A table word placed for the next step runs as that command. -/
theorem test_step_fetch_word :
    onNext (step (State.reset.withFetchWord 8 0x05)) (fun t =>
      t.cmd = 0x05 && t.outLen = 8 && t.script = []) = true := by decide +kernel

/-! ## Witnesses for the hypotheses of the statements -/

/-- A state with the code table a 0, b 1. -/
def twoCodes : State := writeCodes State.reset [(0x61, [false]), (0x62, [true])]

theorem twoCodes_domain {x : Byte} (h : symGet twoCodes.clen x ≠ 0) : x = 0x61 ∨ x = 0x62 := by
  by_contra hx
  push Not at hx
  have h1 : ¬ 97#8 = x := fun e => hx.1 e.symm
  have h2 : ¬ 98#8 = x := fun e => hx.2 e.symm
  apply h
  simp [twoCodes, codeLength, lookupCode, h1, h2]

theorem twoCodes_codeInv : CodeInv twoCodes := by
  refine ⟨fun x hx => ?_, fun x y hxy hx hy => ?_, fun x i hi => ?_⟩
  · rcases twoCodes_domain hx with rfl | rfl <;> decide +kernel
  · rcases twoCodes_domain hx with rfl | rfl <;> rcases twoCodes_domain hy with rfl | rfl
    · exact absurd rfl hxy
    · decide +kernel
    · decide +kernel
    · exact absurd rfl hxy
  · by_cases hx : symGet twoCodes.clen x = 0
    · have hb : symGet twoCodes.cbits x = 0 := by
        have h61 : ¬ 97#8 = x := by rintro rfl; revert hx; decide +kernel
        have h62 : ¬ 98#8 = x := by rintro rfl; revert hx; decide +kernel
        simp [twoCodes, codeBitsImage, lookupCode, h61, h62]
      rw [hb]; simp
    · rcases twoCodes_domain hx with rfl | rfl
      · have hb : symGet twoCodes.cbits 0x61 = 0 := by decide +kernel
        rw [hb]; simp
      · have hb : symGet twoCodes.cbits 0x62 = BitVec.twoPow 256 255 := by decide +kernel
        have hl : symGet twoCodes.clen 0x62 = 1 := by decide +kernel
        rw [hl] at hi
        rw [hb, BitVec.getLsbD_twoPow]
        simp only [Bool.and_eq_false_imp, decide_eq_true_eq, decide_eq_false_iff_not]
        intro _
        have : (1 : Byte).toNat = 1 := rfl
        omega

/-- The input "aab", the codes of `twoCodes`, and its encoding 001 in `BBUF`. -/
def smallRun : State :=
  withBits { twoCodes with ibuf := [(0, 0x61), (1, 0x61), (2, 0x62)], inLen := 3 } [0x20] 3

/-- Counters a 2, b 1. -/
def twoKeys : State := withFreq State.reset [(0x61, 2), (0x62, 1)]

theorem test_witness_UnpackBitsUndoesPackBits : 8 ≤ 8 * ([0xA5] : List Byte).length := by decide

theorem test_witness_PackBitsMostSignificantFirst :
    0 < ceil8 [true].length ∧ 1 < ceil8 (List.replicate 9 true).length := by decide

theorem test_witness_BigEndianIntegers : 2 ^ 64 - 1 < 2 ^ 64 ∧ 7 < 8 := by decide

theorem test_witness_CodeRegisterImage : ∃ s x, CodeInv s ∧ symGet s.clen x ≠ 0 :=
  ⟨twoCodes, 0x62, twoCodes_codeInv, by decide +kernel⟩

theorem test_witness_NodeRecordImage : ∃ (s : State) (h : Nat) (nd : Node),
    h < 511 ∧ s.nodes[h]? = some nd :=
  ⟨{ State.reset with nodes := [⟨.leaf, 0x61, 5, nullHandle, nullHandle⟩] }, 0, _, by decide, rfl⟩

theorem test_witness_StepRunsDecodedCommand : ∃ (s : State) (v : HostWord)
    (rest : List HostAction) (i : Instr), s.script = .write 0 0x00 v :: rest ∧
      decode (v.setWidth 8) = .ok i :=
  ⟨State.reset.withFetchWord 8 0x06, _, [], .unpack, rfl, by decide⟩

theorem test_witness_IllegalCommandIsReported :
    (∃ (s : State) (v : HostWord) (rest : List HostAction),
      s.script = .write 0 0x00 v :: rest ∧ (v.setWidth 8 : Byte).toNat = 0) ∧
    (∃ (s : State) (v : HostWord) (rest : List HostAction),
      s.script = .write 0 0x00 v :: rest ∧ 7 ≤ (v.setWidth 8 : Byte).toNat) :=
  ⟨⟨State.reset.withFetchWord 8 0x00, _, [], rfl, by decide⟩,
    ⟨State.reset.withFetchWord 8 0x07, _, [], rfl, by decide⟩⟩

theorem test_witness_IdleStepChangesNothing : State.reset.script = [] := rfl

theorem test_witness_HostReadHasNoSideEffect : ∃ (s : State) (bank index : Nat)
    (rest : List HostAction), s.script = .read bank index :: rest :=
  ⟨{ State.reset with script := scriptRd .status }, 0, 0x01, [], rfl⟩

theorem test_witness_HostReadReturnsTheElement :
    State.reset.nodes.length ≤ 511 ∧ 65535 < State.reset.config.ibufBytes ∧
    65535 < State.reset.config.bbufBytes ∧ 65535 < State.reset.config.obufBytes := by decide

/-- Every clause: the last symbol, the last byte of each buffer, and the two length registers. -/
theorem test_witness_HostWriteChangesOneElement :
    (∃ s : State, s.script = .write 1 255 7 :: []) ∧
    (∃ s : State, s.script = .write 5 65535 7 :: [] ∧ 65535 < s.config.ibufBytes) ∧
    (∃ s : State, s.script = .write 6 65535 7 :: [] ∧ 65535 < s.config.bbufBytes) ∧
    (∃ s : State, s.script = .write 0 0x06 7 :: []) ∧
    ∃ s : State, s.script = .write 0 0x07 7 :: [] :=
  ⟨⟨{ State.reset with script := [.write 1 255 7] }, rfl⟩,
    ⟨{ State.reset with script := [.write 5 65535 7] }, rfl, by decide⟩,
    ⟨{ State.reset with script := [.write 6 65535 7] }, rfl, by decide⟩,
    ⟨{ State.reset with script := [.write 0 0x06 7] }, rfl⟩,
    ⟨{ State.reset with script := [.write 0 0x07 7] }, rfl⟩⟩

theorem test_witness_StickyBitsAreWriteOneToClear : ∃ (s : State) (v : HostWord)
    (rest : List HostAction), s.script = .write 0 0x02 v :: rest ∧ s.esticky = 0x26 :=
  ⟨{ State.reset with script := scriptClearErrors 0x04, esticky := 0x26 }, 0x04, [], rfl, rfl⟩

/-- Every clause of the hypothesis at a boundary value. -/
theorem test_witness_ReadOnlyWritesAreIgnored :
    (0x09 ∈ [0x01, 0x03, 0x04, 0x08, 0x09]) ∧ 0x0A ≤ 0x0A ∧ 7 ∈ [2, 3, 4, 7] ∧ 8 ≤ 8 ∧
    256 ≤ 256 ∧ State.reset.config.ibufBytes ≤ 65536 ∧ State.reset.config.bbufBytes ≤ 65536 ∧
    (0xFE : HostWord).getLsbD 0 = false ∧
    ∃ s : State, s.script = .write 0 0x05 0xFE :: [] := by
  refine ⟨by decide, by decide, by decide, by decide, by decide, by decide, by decide, by decide,
    { State.reset with script := [.write 0 0x05 0xFE] }, rfl⟩

/-- Every clause of the hypothesis at a boundary value. -/
theorem test_witness_UnassignedAccessReadsZero :
    locate Config.reference 0 0x0A = none ∧ locate Config.reference 1 256 = none ∧
    locate Config.reference 2 256 = none ∧ locate Config.reference 3 256 = none ∧
    locate Config.reference 4 511 = none ∧ locate Config.reference 5 65536 = none ∧
    locate Config.reference 6 65536 = none ∧ locate Config.reference 7 65536 = none ∧
    locate Config.reference 8 0 = none ∧
    (∃ s : State, s.script = .read 8 0 :: []) ∧ ∃ s : State, s.script = .write 8 0 1 :: [] :=
  ⟨by decide, by decide, by decide, by decide, by decide, by decide, by decide, by decide,
    by decide, ⟨{ State.reset with script := [.read 8 0] }, rfl⟩,
    ⟨{ State.reset with script := [.write 8 0 1] }, rfl⟩⟩

theorem test_witness_SoftResetClearsRegisters :
    (∃ (s : State) (v : HostWord), s.script = .write 0 0x05 v :: [] ∧ v.getLsbD 0 = false) ∧
    ∃ (s : State) (v : HostWord), s.script = .write 0 0x05 v :: [] ∧ v.getLsbD 0 = true :=
  ⟨⟨{ State.reset with script := scriptWr .ctrl 0xFE }, 0xFE, rfl, by decide⟩,
    ⟨{ smallRun with script := scriptSoftReset }, 0x01, rfl, by decide⟩⟩

theorem test_witness_HardwareResetClearsRegisters : ∃ (s : State) (rest : List HostAction),
    s.script = .hardReset :: rest :=
  ⟨{ smallRun with script := [.hardReset] }, [], rfl⟩

theorem test_witness_CommandsOnTheResetState : 8 ≤ (Config.mk 1 1 8).obufBytes := by decide

theorem test_witness_CountCountsTheInput :
    (withInput [0x61, 0x61]).inLen.toNat ≤ (withInput [0x61, 0x61]).config.ibufBytes ∧
    ∃ s : State, s.config.ibufBytes < s.inLen.toNat :=
  ⟨by decide, { State.reset with inLen := 65537 }, by decide⟩

theorem test_witness_CountTotals : ∃ s t s' t' : State, exec .count s = .next t ∧
    s.inLen.toNat ≤ s.config.ibufBytes ∧ exec .count s' = .next t' ∧
    s'.inLen.toNat ≤ s'.config.ibufBytes ∧ (inputBytes s').Perm (inputBytes s) := by
  refine ⟨withInput [0x61, 0x62], _, withInput [0x62, 0x61], _, rfl, by decide, rfl, by decide, ?_⟩
  decide +kernel

theorem test_witness_BuildReportsTheEmptyMap :
    (∀ x, symGet State.reset.freq x = 0) ∧ ∃ x, symGet twoKeys.freq x ≠ 0 :=
  ⟨fun x => symGet_replicate 0 x, 0x61, by decide +kernel⟩

theorem test_witness_BuildSingleSymbol : ∃ (s : State) (x : Byte),
    ∀ y, symGet s.freq y ≠ 0 ↔ y = x := by
  refine ⟨{ State.reset with freq := symSet (Vector.replicate 256 0) 0x61 4 }, 0x61, fun y => ?_⟩
  rw [symGet_symSet]
  by_cases h : y = 0x61 <;> simp [h]

/-- Two keys, the least number the statements about the general case speak of: it meets the
hypothesis of BuildMergesTheTwoLeast, BuildCodesAreLeafPaths and BuildResultShape. -/
theorem test_witness_BuildMergesTheTwoLeast : (keys twoKeys.freq).length = 2 := by decide +kernel

theorem test_witness_BuildCodesAreLeafPaths :
    2 ≤ (keys twoKeys.freq).length ∧ symGet twoKeys.freq 0x63 = 0 := by decide +kernel

theorem test_witness_BuildIsOptimal : 2 ≤ (keys twoKeys.freq).length ∧ ∃ codes : Byte → Bits,
    (∀ x ∈ keys twoKeys.freq, codes x ≠ []) ∧
    ∀ x ∈ keys twoKeys.freq, ∀ y ∈ keys twoKeys.freq, x ≠ y → ¬ codes x <+: codes y :=
  ⟨by decide +kernel, fun x => [x == 0x61], fun _ _ => by simp, by decide +kernel⟩

theorem test_witness_FrequentSymbolsHaveShortCodes :
    symGet twoKeys.freq 0x61 ≠ 0 ∧ symGet twoKeys.freq 0x62 ≠ 0 ∧
    (symGet twoKeys.freq 0x62).toNat < (symGet twoKeys.freq 0x61).toNat := by decide +kernel

/-- Each clause: no key, one key, two keys. -/
theorem test_witness_BuildResultShape :
    (keys State.reset.freq).length = 0 ∧
    (keys (withFreq State.reset [(0x61, 4)]).freq).length = 1 ∧
    2 ≤ (keys twoKeys.freq).length := by decide +kernel

theorem test_witness_EncodeConcatenatesTheCodes :
    smallRun.config.wellFormed = true ∧ smallRun.inLen.toNat ≤ smallRun.config.ibufBytes ∧
    (∀ x ∈ inputBytes smallRun, symGet smallRun.clen x ≠ 0) ∧
    ((inputBytes smallRun).flatMap (codeOf smallRun)).length ≤ 8 * smallRun.config.bbufBytes ∧
    (inputBytes smallRun).flatMap (codeOf smallRun) = [false, false, true] := by decide +kernel

/-- Each of the three errors. -/
theorem test_witness_EncodeErrorsInOrder :
    (∃ s : State, s.config.ibufBytes < s.inLen.toNat) ∧
    (∃ (s : State) (i : Nat), s.inLen.toNat ≤ s.config.ibufBytes ∧ i < s.inLen.toNat ∧
      symGet s.clen (readByte s .ibuf i) = 0 ∧
      ∀ j < i, symGet s.clen (readByte s .ibuf j) ≠ 0) ∧
    ∃ s : State, s.inLen.toNat ≤ s.config.ibufBytes ∧ (∀ x ∈ inputBytes s, symGet s.clen x ≠ 0) ∧
      8 * s.config.bbufBytes < ((inputBytes s).flatMap (codeOf s)).length :=
  ⟨⟨{ State.reset with inLen := 65537 }, by decide⟩,
    ⟨writeCodes (withInput [0x61, 0x78]) [(0x61, [false])], 1, by decide +kernel⟩,
    ⟨{ smallRun with config := ⟨3, 0, 1⟩ }, by decide +kernel⟩⟩

theorem test_witness_DecodeScanAccountsForEveryBit :
    (decodeBits (codeMap (writeCodes State.reset tableB2)) [true, false]).cand = [true, false] := by
  decide +kernel

/-- With and without a residual. -/
theorem test_witness_DecodeDeliversTheScan :
    (smallRun.config.wellFormed = true ∧ smallRun.bitLen.toNat ≤ 8 * smallRun.config.bbufBytes ∧
      (decodeBits (codeMap smallRun) (encodedBits smallRun)).out.length ≤
        smallRun.config.obufBytes ∧
      (decodeBits (codeMap smallRun) (encodedBits smallRun)).cand = []) ∧
    ∃ s : State, s.config.wellFormed = true ∧ s.bitLen.toNat ≤ 8 * s.config.bbufBytes ∧
      (decodeBits (codeMap s) (encodedBits s)).out.length ≤ s.config.obufBytes ∧
      (decodeBits (codeMap s) (encodedBits s)).cand ≠ [] :=
  ⟨by decide +kernel, withBits (writeCodes State.reset tableB2) [0x80] 1, by decide +kernel⟩

/-- Each of the three errors. -/
theorem test_witness_DecodeAndPackCapacityErrors :
    (∃ s : State, 8 * s.config.bbufBytes < s.bitLen.toNat) ∧
    (∃ s : State, s.bitLen.toNat ≤ 8 * s.config.bbufBytes ∧
      s.config.obufBytes < (decodeBits (codeMap s) (encodedBits s)).out.length) ∧
    ∃ s : State, s.bitLen.toNat ≤ 8 * s.config.bbufBytes ∧
      s.config.obufBytes < containerSize s :=
  ⟨⟨{ State.reset with bitLen := 524289 }, by decide⟩,
    ⟨{ smallRun with config := ⟨3, 1, 2⟩ }, by decide +kernel⟩,
    ⟨{ smallRun with config := ⟨3, 1, 28⟩ }, by decide +kernel⟩⟩

theorem test_witness_DecodeUndoesEncode : CodeInv twoCodes ∧
    ∀ x ∈ ([0x61, 0x62] : List Byte), symGet twoCodes.clen x ≠ 0 :=
  ⟨twoCodes_codeInv, by decide +kernel⟩

theorem test_witness_CompressionRoundTrip : ∃ s : State, s.config.wellFormed = true ∧
    s.inLen.toNat ≤ s.config.ibufBytes ∧ s.inLen.toNat ≤ s.config.obufBytes ∧
    ∃ s₁ s₂, exec .count s = .next s₁ ∧ exec .build s₁ = .next s₂ ∧
      ((inputBytes s).flatMap (codeOf s₂)).length ≤ 8 * s.config.bbufBytes := by
  refine ⟨withInput [0x61, 0x61, 0x62], by decide, by decide, by decide, _, _, rfl, rfl, ?_⟩
  decide +kernel

theorem test_witness_CompressOfTheEmptyInput :
    State.reset.inLen = 0 ∧ 8 ≤ State.reset.config.obufBytes := by decide

/-- Two distinct symbols and one. -/
theorem test_witness_CompressedSizeBound :
    (∃ s s₁ s₂ : State, s.inLen.toNat ≤ s.config.ibufBytes ∧ exec .count s = .next s₁ ∧
      exec .build s₁ = .next s₂ ∧ 2 ≤ (keys s₁.freq).length) ∧
    ∃ s s₁ s₂ : State, s.inLen.toNat ≤ s.config.ibufBytes ∧ exec .count s = .next s₁ ∧
      exec .build s₁ = .next s₂ ∧ (keys s₁.freq).length = 1 := by
  refine ⟨⟨withInput [0x61, 0x61, 0x62], _, _, by decide, rfl, rfl, ?_⟩,
    ⟨withInput [0x61, 0x61], _, _, by decide, rfl, rfl, ?_⟩⟩ <;> decide +kernel

theorem test_witness_PaddedDecodeBeginsWithTheTrueBytes : CodeInv twoCodes ∧
    ∀ x ∈ ([0x62] : List Byte), symGet twoCodes.clen x ≠ 0 :=
  ⟨twoCodes_codeInv, by decide +kernel⟩

/-- Each of the three clauses. -/
theorem test_witness_PackWritesTheContainer :
    (∃ s : State, 8 * s.config.bbufBytes < s.bitLen.toNat) ∧
    (∃ s : State, s.bitLen.toNat ≤ 8 * s.config.bbufBytes ∧ s.config.obufBytes < containerSize s) ∧
    smallRun.config.wellFormed = true ∧ smallRun.bitLen.toNat ≤ 8 * smallRun.config.bbufBytes ∧
    containerSize smallRun ≤ smallRun.config.obufBytes :=
  ⟨⟨{ State.reset with bitLen := 524289 }, by decide⟩,
    ⟨{ smallRun with config := ⟨3, 1, 28⟩ }, by decide +kernel⟩, by decide +kernel⟩

/-- Seven payload bits and one padding bit, `BBUF` holding a one there. -/
theorem test_witness_PackPadsWithZeros : ∃ s t : State, exec .pack s = .next t ∧ Succeeded t ∧
    s.config.wellFormed = true ∧ 7 < 8 * ceil8 s.bitLen.toNat ∧ ¬ 7 < s.bitLen.toNat := by
  refine ⟨withBits State.reset [0xFF] 7, _, rfl, ⟨?_, ?_, ?_⟩, ?_, ?_, ?_⟩ <;> decide +kernel

/-- One entry of a container's table: symbol 0x61, the code 0, padding bits set. -/
theorem tableBytes_a : TableBytes [(0x61, [false])] [0x61, 0, 0, 0, 0, 0, 0, 0, 1, 0x7F] :=
  ⟨[0x7F], [], by decide +kernel, by decide, by decide +kernel, rfl⟩

theorem listsCodeMap_a : ListsCodeMap [(0x61, [false])] := ⟨by decide, by decide⟩

/-- The operand check (V-U31), sub-reasons 1 and 2 (V-U11, V-U12), and 3, 4, 5 at the second
entry. -/
theorem test_witness_UnpackReportsTheFirstFault :
    (∃ s : State, s.config.ibufBytes = 16 ∧ s.inLen = 17 ∧ s.config.ibufBytes < s.inLen.toNat) ∧
    (inputBytes (withInput [0, 0, 0, 0, 0, 0, 0])).length < 8 ∧
    256 < natOfBytes ((inputBytes (withInput [0, 0, 0, 0, 0, 0, 1, 1])).take 8) ∧
    (∃ s : State, inputBytes s =
      bytesOfNat64 2 ++ [0x61, 0, 0, 0, 0, 0, 0, 0, 1, 0x7F] ++ [0x62, 0, 0, 0, 0, 0, 0, 0]) ∧
    (∃ s : State, inputBytes s =
      bytesOfNat64 2 ++ [0x61, 0, 0, 0, 0, 0, 0, 0, 1, 0x7F] ++ [0x62, 0, 0, 0, 0, 0, 0, 1, 0]) ∧
    ∃ s : State, inputBytes s =
      bytesOfNat64 2 ++ [0x61, 0, 0, 0, 0, 0, 0, 0, 1, 0x7F] ++
        [0x62, 0, 0, 0, 0, 0, 0, 0, 9, 0xFF] :=
  ⟨⟨{ State.reset with config := ⟨16, 16, 16⟩, inLen := 17 }, by decide⟩, by decide +kernel,
    by decide +kernel,
    ⟨withInput [0, 0, 0, 0, 0, 0, 0, 2, 0x61, 0, 0, 0, 0, 0, 0, 0, 1, 0x7F,
      0x62, 0, 0, 0, 0, 0, 0, 0], by decide +kernel⟩,
    ⟨withInput [0, 0, 0, 0, 0, 0, 0, 2, 0x61, 0, 0, 0, 0, 0, 0, 0, 1, 0x7F,
      0x62, 0, 0, 0, 0, 0, 0, 1, 0], by decide +kernel⟩,
    ⟨withInput [0, 0, 0, 0, 0, 0, 0, 2, 0x61, 0, 0, 0, 0, 0, 0, 0, 1, 0x7F,
      0x62, 0, 0, 0, 0, 0, 0, 0, 9, 0xFF], by decide +kernel⟩⟩

/-- A repeated symbol (V-U20) and an overlapping code (V-U21). -/
theorem test_witness_UnpackRefusesBadEntries :
    TableBytes [(0x61, [true])] [0x61, 0, 0, 0, 0, 0, 0, 0, 1, 0x80] ∧
    TableBytes [(0x62, [false, true])] [0x62, 0, 0, 0, 0, 0, 0, 0, 2, 0x40] ∧
    (∃ s : State, s.inLen.toNat ≤ s.config.ibufBytes ∧ inputBytes s =
      bytesOfNat64 2 ++ [0x61, 0, 0, 0, 0, 0, 0, 0, 1, 0x7F] ++
        [0x61, 0, 0, 0, 0, 0, 0, 0, 1, 0x80] ++ []) ∧
    ∃ s : State, s.inLen.toNat ≤ s.config.ibufBytes ∧ inputBytes s =
      bytesOfNat64 2 ++ [0x61, 0, 0, 0, 0, 0, 0, 0, 1, 0x7F] ++
        [0x62, 0, 0, 0, 0, 0, 0, 0, 2, 0x40] ++ [] :=
  ⟨⟨[0x80], [], by decide +kernel, by decide, by decide +kernel, rfl⟩,
    ⟨[0x40], [], by decide +kernel, by decide, by decide +kernel, rfl⟩,
    ⟨withInput [0, 0, 0, 0, 0, 0, 0, 2, 0x61, 0, 0, 0, 0, 0, 0, 0, 1, 0x7F,
      0x61, 0, 0, 0, 0, 0, 0, 0, 1, 0x80], by decide +kernel⟩,
    ⟨withInput [0, 0, 0, 0, 0, 0, 0, 2, 0x61, 0, 0, 0, 0, 0, 0, 0, 1, 0x7F,
      0x62, 0, 0, 0, 0, 0, 0, 0, 2, 0x40], by decide +kernel⟩⟩

/-- The container of V-U5, entries out of order, with room for its payload and without. -/
theorem test_witness_UnpackReadsBackTheContainer :
    let codes : CodeMap := [(0x62, [true]), (0x61, [false])]
    let table : List Byte := [0x62, 0, 0, 0, 0, 0, 0, 0, 1, 0x80, 0x61, 0, 0, 0, 0, 0, 0, 0, 1, 0x7F]
    let s := withInput (bytesOfNat64 2 ++ table ++ [0x40, 0x41])
    ListsCodeMap codes ∧ TableBytes codes table ∧
    s.config.wellFormed = true ∧ s.inLen.toNat ≤ s.config.ibufBytes ∧
    inputBytes s = bytesOfNat64 codes.length ++ table ++ [0x40, 0x41] ∧
    [0x40, 0x41].length ≤ s.config.bbufBytes ∧
    (Config.mk 65536 1 1).wellFormed = true ∧
    (Config.mk 65536 1 1).bbufBytes < [0x40, 0x41].length := by
  refine ⟨⟨by decide, by decide⟩, ⟨[0x80], _, rfl, by decide, by decide +kernel, [0x7F], [], rfl,
    by decide, by decide +kernel, rfl⟩, ?_, ?_, ?_, ?_, ?_, ?_⟩ <;> decide +kernel

theorem test_witness_UnpackAcceptsOnlyCodeMaps : ∃ s t : State, exec .unpack s = .next t ∧
    t.status = 0 := by
  refine ⟨withInput [0, 0, 0, 0, 0, 0, 0, 1, 0x61, 0, 0, 0, 0, 0, 0, 0, 1, 0x7F, 0xAA], _, rfl, ?_⟩
  decide +kernel

theorem smallRun_codeInv : CodeInv smallRun := twoCodes_codeInv

theorem test_witness_ContainerRoundTrip : smallRun.config.wellFormed = true ∧ CodeInv smallRun ∧
    smallRun.bitLen.toNat ≤ 8 * smallRun.config.bbufBytes ∧
    containerSize smallRun ≤ smallRun.config.obufBytes ∧
    containerSize smallRun ≤ smallRun.config.ibufBytes ∧
    ∃ t u : State, exec .pack smallRun = .next t ∧ u.config = smallRun.config ∧
      u.inLen = t.outLen ∧ inputBytes u = outputBytes t := by
  have hb : smallRun.bitLen.toNat ≤ 8 * smallRun.config.bbufBytes := by decide +kernel
  have ho : containerSize smallRun ≤ smallRun.config.obufBytes := by decide +kernel
  rcases execPack_cases smallRun with ⟨h, -⟩ | ⟨-, h, -⟩ | ⟨-, -, h⟩
  · omega
  · omega
  · refine ⟨by decide +kernel, smallRun_codeInv, hb, ho, by decide +kernel, _,
      withInput [0, 0, 0, 0, 0, 0, 0, 2, 0x61, 0, 0, 0, 0, 0, 0, 0, 1, 0x00,
        0x62, 0, 0, 0, 0, 0, 0, 0, 1, 0x80, 0x20], h, ?_, ?_, ?_⟩ <;> decide +kernel

theorem test_witness_CommandsEndInThreeWays : ∃ (s : State) (v : HostWord)
    (rest : List HostAction), s.script = .write 0 0x00 v :: rest :=
  ⟨State.reset.withFetchWord 8 0x04, _, [], rfl⟩

/-- Every command answers a next state on the small run: the hypothesis of the statements on frames,
CommandsLeaveTheRestAlone, StoringCommandsKeepTheBytesBeyond and CommandsAreIdempotent. -/
theorem test_witness_CommandsLeaveTheRestAlone :
    ∀ i : Instr, onNext (exec i smallRun) (fun _ => true) = true := by
  intro i; cases i <;> decide +kernel

theorem test_witness_StoringCommandsKeepTheBytesBeyond :
    (∃ codes p, parseContainer [0, 0, 0, 0, 0, 0, 0, 0, 0xAA] = .ok (codes, p)) ∧
    ∃ e, parseContainer [0] = .error e :=
  ⟨⟨[], 8, by decide +kernel⟩, .malformedContainer 0 .countTruncated, by decide +kernel⟩

theorem test_witness_CommandsAreIdempotent : BufferInv smallRun ∧
    ∀ i : Instr, onNext (exec i smallRun) (fun _ => true) = true := by
  refine ⟨fun b => ?_, test_witness_CommandsLeaveTheRestAlone⟩
  cases b <;> decide +kernel

theorem test_witness_StickyBitsStaySet : ∃ s t : State, step s = .next t ∧
    s.esticky.getLsbD 2 = true ∧ (∀ v rest, s.script ≠ .write 0 0x02 v :: rest) ∧
    (∀ v rest, s.script ≠ .write 0 0x05 v :: rest) ∧ ∀ rest, s.script ≠ .hardReset :: rest := by
  refine ⟨{ State.reset with esticky := 0x04, script := scriptCommand .count }, _, rfl, by decide,
    ?_, ?_, ?_⟩ <;> intros <;> simp [scriptCommand, scriptWr, ScalarReg.index]

theorem test_witness_OnlyBuildUnpackAndResetChangeCodes : ∃ s t : State, step s = .next t ∧
    t.clen ≠ s.clen := by
  refine ⟨{ twoKeys with script := scriptCommand .build }, _, rfl, fun h => ?_⟩
  have := congrArg (symGet · 0x61) h
  revert this
  decide +kernel

theorem test_witness_StepKeepsTheCodeTable : CodeInv twoCodes ∧ step twoCodes = .next twoCodes :=
  ⟨twoCodes_codeInv, rfl⟩

/-- The tree of one leaf. -/
theorem test_witness_StepKeepsTheTree :
    ∃ s t : State, s.nodes ≠ [] ∧ TreeInv s.nodes ∧ step s = .next t := by
  refine ⟨{ State.reset with nodes := [⟨.leaf, 0x61, 4, nullHandle, nullHandle⟩] }, _, by simp,
    fun _ => ⟨rfl, by decide, by decide, ?_, ?_, ?_, ?_, ?_⟩, rfl⟩
  · intro h hh
    have : h = 0 := by simpa using hh
    subst this
    exact ⟨_, rfl, rfl, rfl, rfl⟩
  · intro h k x y hhk hk
    have : k = 0 := by simpa using hk
    omega
  · intro h h1 h2
    simp at h1 h2
    omega
  · intro c hc
    simp at hc
  · rintro h ⟨a, b, ⟨nd, hn, hk, -⟩, -⟩
    cases h with
    | zero => cases hn; cases hk
    | succ h => simp at hn

theorem test_witness_StepKeepsTheBuffers : BufferInv smallRun ∧ step smallRun = .next smallRun :=
  ⟨test_witness_CommandsAreIdempotent.1, rfl⟩

theorem test_witness_StepKeepsTheStatusLegal : ∃ s : State, StatusInv s ∧ s.status = 6 ∧
    step s = .next s :=
  ⟨{ State.reset with status := 6, esticky := 0x7E, errPos := 17, errAux := 1 },
    ⟨by decide, by decide, by decide, by decide⟩, rfl, rfl⟩

end Sys2Proof.Tests
end

section
/-!
PROOFS. The scope's statements (spec/00_scope.md).
-/

namespace Sys2Proof.Machine

open Sys2Proof

/-- No action is next exactly where the host's script is empty (R6, log entry 2). -/
theorem nextAction_eq_none {s : State} : nextAction s = none ↔ s.script = [] := by
  cases h : s.script with
  | nil => simp [nextAction, h]
  | cons a rest => simp [nextAction, h]

/-- A step with no next action is idle: the idle branch of `step` (R6, log entry 2). -/
theorem step_of_nextAction_none {s : State} (h : nextAction s = none) : step s = .next s := by
  simp [step, h]

/-- Settles O10: an empty script gives no next action, and a step with none is idle. -/
theorem idleStepChangesNothing : Obligations.IdleStepChangesNothing := by
  intro s hscript
  exact step_of_nextAction_none (nextAction_eq_none.mpr hscript)

end Sys2Proof.Machine
end

section
/-!
PROOFS. What a command writes and what a step can do, said once, for the statements about state that
is kept (spec/10_state.md section 7, spec/60_exceptions.md R158).
-/

namespace Sys2Proof.Machine

open Sys2Proof

/-- `WritesResult i s u`: `u` is `s` with the result of the command `i` written to the destinations
of its row (R33) and nothing else. -/
inductive WritesResult : Instr → State → State → Prop
  | count (s : State) : WritesResult .count s { s with freq := countBytes (inputBytes s) }
  | build (s : State) : WritesResult .build s (writeBuild s)
  | encode (s : State) :
      WritesResult .encode s (writeEncoded s (encodeBytes (codeOf s) (inputBytes s)))
  | decode (s : State) :
      WritesResult .decode s (writeOutput s (decodeBits (codeMap s) (encodedBits s)).out)
  | pack (s : State) :
      WritesResult .pack s (writeOutput s (packContainer (codeMap s) (encodedBits s)))
  | unpack {s : State} {codes : CodeMap} {p : Nat}
      (parsed : parseContainer (inputBytes s) = .ok (codes, p)) :
      WritesResult .unpack s (writeUnpacked s codes ((inputBytes s).drop p))

/-- `t` is how a command ends on the data state `u`: by `finish OK` or by a report (R158). -/
def EndsOn (u t : State) : Prop := t = finishOk u ∨ ∃ e, t = report e u

/-- A command ends on the state it started in or on that state with its result written. -/
theorem exec_result {i : Instr} {s t : State} (h : exec i s = .next t) :
    ∃ u, EndsOn u t ∧ (u = s ∨ WritesResult i s u) := by
  have finished : ∀ {u}, exec i s = .next (finishOk u) → EndsOn u t := fun hu =>
    .inl (Host.Outcome.next.inj (h.symm.trans hu))
  have reported : ∀ {e u}, exec i s = .next (report e u) → EndsOn u t := fun hu =>
    .inr ⟨_, Host.Outcome.next.inj (h.symm.trans hu)⟩
  cases i with
  | count =>
    rcases execCount_cases s with ⟨-, hr⟩ | ⟨-, hr⟩
    · exact ⟨_, reported hr, .inl rfl⟩
    · exact ⟨_, finished hr, .inr (.count s)⟩
  | build =>
    rcases execBuild_cases s with ⟨-, hr⟩ | ⟨-, hr⟩
    · exact ⟨_, reported hr, .inr (.build s)⟩
    · exact ⟨_, finished hr, .inr (.build s)⟩
  | encode =>
    rcases execEncode_cases s with ⟨-, hr⟩ | ⟨-, _, -, hr⟩ | ⟨-, _, -, -, hr⟩ | ⟨-, _, -, -, hr⟩
    · exact ⟨_, reported hr, .inl rfl⟩
    · exact ⟨_, reported hr, .inl rfl⟩
    · exact ⟨_, reported hr, .inl rfl⟩
    · exact ⟨_, finished hr, .inr (.encode s)⟩
  | decode =>
    rcases execDecode_cases s with ⟨-, hr⟩ | ⟨-, -, hr⟩ | ⟨-, -, -, hr⟩ | ⟨-, -, -, hr⟩
    · exact ⟨_, reported hr, .inl rfl⟩
    · exact ⟨_, reported hr, .inl rfl⟩
    · exact ⟨_, finished hr, .inr (.decode s)⟩
    · exact ⟨_, reported hr, .inr (.decode s)⟩
  | pack =>
    rcases execPack_cases s with ⟨-, hr⟩ | ⟨-, -, hr⟩ | ⟨-, -, hr⟩
    · exact ⟨_, reported hr, .inl rfl⟩
    · exact ⟨_, reported hr, .inl rfl⟩
    · exact ⟨_, finished hr, .inr (.pack s)⟩
  | unpack =>
    rcases execUnpack_cases s with
      ⟨-, hr⟩ | ⟨-, _, -, hr⟩ | ⟨-, _, _, -, -, hr⟩ | ⟨-, _, _, hp, -, hr⟩
    · exact ⟨_, reported hr, .inl rfl⟩
    · exact ⟨_, reported hr, .inl rfl⟩
    · exact ⟨_, reported hr, .inl rfl⟩
    · exact ⟨_, finished hr, .inr (.unpack hp)⟩

/-- The end of a command touches the status registers alone (R158). -/
theorem EndsOn.eq_except_status {u t : State} (h : EndsOn u t) :
    t = { u with
      status := t.status, errPos := t.errPos, errAux := t.errAux, esticky := t.esticky } := by
  rcases h with rfl | ⟨e, rfl⟩ <;> rfl

/-- The frame of the six commands (R33), in terms of the fields of the state. -/
structure CommandFrame (i : Instr) (s t : State) : Prop where
  config : t.config = s.config
  cmd : t.cmd = s.cmd
  script : t.script = s.script
  replies : t.replies = s.replies
  bufDraw : t.bufDraw = s.bufDraw
  inLen : t.inLen = s.inLen
  ibuf : t.ibuf = s.ibuf
  freq : i ≠ .count → t.freq = s.freq
  tree : i ≠ .build → t.nodes = s.nodes ∧ t.nodeDraw = s.nodeDraw
  codes : i ≠ .build → i ≠ .unpack → t.clen = s.clen ∧ t.cbits = s.cbits
  bits : i ≠ .encode → i ≠ .unpack → t.bitLen = s.bitLen ∧ t.bbuf = s.bbuf
  output : i ≠ .decode → i ≠ .pack → t.outLen = s.outLen ∧ t.obuf = s.obuf

/-- The destinations of a command's row are all that its result changes. -/
theorem WritesResult.frame {i : Instr} {s u : State} (h : WritesResult i s u) :
    CommandFrame i s u := by
  cases h <;> constructor <;> simp

/-- The result of a command is written before its status: `ESTICKY` is as it was. -/
theorem WritesResult.esticky {i : Instr} {s u : State} (h : WritesResult i s u) :
    u.esticky = s.esticky := by
  cases h <;> simp

/-- Every command keeps its frame. -/
theorem exec_frame {i : Instr} {s t : State} (h : exec i s = .next t) : CommandFrame i s t := by
  obtain ⟨u, hend, hu⟩ := exec_result h
  have hf : CommandFrame i s u := by
    rcases hu with rfl | hu
    · constructor <;> simp
    · exact hu.frame
  rw [hend.eq_except_status]
  exact ⟨hf.config, hf.cmd, hf.script, hf.replies, hf.bufDraw, hf.inLen, hf.ibuf, hf.freq, hf.tree,
    hf.codes, hf.bits, hf.output⟩

/-- A command ends on a data state whose `ESTICKY` is the one it started with. -/
theorem exec_endsOn {i : Instr} {s t : State} (h : exec i s = .next t) :
    ∃ u, u.esticky = s.esticky ∧ EndsOn u t := by
  obtain ⟨u, hend, hu⟩ := exec_result h
  refine ⟨u, ?_, hend⟩
  rcases hu with rfl | hu
  · rfl
  · exact hu.esticky

/-- Settles O49: the frame field by field, and a buffer that is the same list under the same draw
reads the same at every index. -/
theorem commandsLeaveTheRestAlone : Obligations.CommandsLeaveTheRestAlone := by
  intro i s t h
  have hf := exec_frame h
  have same : ∀ b, bufferOf t b = bufferOf s b → SameFrom b 0 s t := fun b hb a _ =>
    readByte_congr hb hf.bufDraw a
  exact ⟨hf.config, hf.cmd, hf.script, hf.replies, hf.bufDraw, hf.inLen, same .ibuf hf.ibuf,
    hf.freq, hf.tree, hf.codes, fun h₁ h₂ => (hf.bits h₁ h₂).imp_right (same .bbuf),
    fun h₁ h₂ => (hf.output h₁ h₂).imp_right (same .obuf)⟩

/-! ### What a step can do -/

/-- `t` has the code table, the tree and the status registers of `s`. -/
structure KeepsTablesAndStatus (s t : State) : Prop where
  clen : t.clen = s.clen
  cbits : t.cbits = s.cbits
  nodes : t.nodes = s.nodes
  status : t.status = s.status
  errPos : t.errPos = s.errPos
  errAux : t.errAux = s.errAux
  esticky : t.esticky = s.esticky

/-- What a step from `s` to `t` can do to the code table, the tree and the status registers. -/
inductive StepCase (s t : State) : Prop
  /-- An idle step, a read, a write to data state, or a write that is ignored. -/
  | data (h : KeepsTablesAndStatus s t)
  /-- A `CMD` write that starts a command (R142). -/
  | command (v : HostWord) (rest : List HostAction) (i : Instr)
      (script : s.script = .write 0 0x00 v :: rest) (decoded : decode (v.setWidth 8) = .ok i)
      (run : exec i { s with script := rest, cmd := v.setWidth 8 } = .next t)
  /-- A `CMD` write that selects no command (R155). -/
  | illegal (v : HostWord) (rest : List HostAction) (op : Byte)
      (script : s.script = .write 0 0x00 v :: rest)
      (result : t = report (.illegalCommand op) { s with script := rest, cmd := v.setWidth 8 })
  /-- A write to `ESTICKY` (R143). -/
  | clear (v : HostWord) (rest : List HostAction) (script : s.script = .write 0 0x02 v :: rest)
      (result : t = clearSticky (v.setWidth 8) { s with script := rest })
  /-- A soft reset (R146). -/
  | softReset (v : HostWord) (rest : List HostAction)
      (script : s.script = .write 0 0x05 v :: rest) (srst : v.getLsbD 0 = true)
      (result : t = Machine.softReset { s with script := rest })
  /-- A hardware reset (R175). -/
  | hardReset (rest : List HostAction) (script : s.script = .hardReset :: rest)
      (result : t = Machine.hardReset { s with script := rest })

/-- The register at an index of bank 0 is the one of that index (R41). -/
theorem index_of_scalarAt {index : Nat} {r : ScalarReg} (h : scalarAt index = some r) :
    index = r.index := by
  unfold scalarAt at h
  split at h
  case h_11 => cases h
  all_goals cases h; rfl

/-- A scalar register is found in bank 0 alone, at its index (R40, R41). -/
theorem locate_eq_scalar {c : Config} {bank index : Nat} {r : ScalarReg}
    (h : locate c bank index = some (.scalar r)) : bank = 0 ∧ index = r.index := by
  unfold locate at h
  split at h
  case h_1 =>
    obtain ⟨r', hr', e⟩ := Option.map_eq_some_iff.1 h
    cases e
    exact ⟨rfl, index_of_scalarAt hr'⟩
  case h_5 => split at h <;> cases h
  case h_9 => cases h
  all_goals simp [byteAt] at h

/-- What a write to a scalar register can do: the last cases of `StepCase`, or a write to data
state. -/
theorem stepCase_of_writeScalar {s t : State} {rest : List HostAction} {v : HostWord}
    {r : ScalarReg} (hs : s.script = .write 0 r.index v :: rest)
    (h : writeScalar r v { s with script := rest } = .next t) : StepCase s t := by
  cases r with
  | cmd =>
    rcases startCommand_cases (v.setWidth 8) { s with script := rest } with
      ⟨i, hi, hr⟩ | ⟨op, -, hr⟩
    · exact .command v rest i hs hi (hr.symm.trans h)
    · exact .illegal v rest op hs (Host.Outcome.next.inj (h.symm.trans hr))
  | esticky => exact .clear v rest hs (Host.Outcome.next.inj h).symm
  | ctrl =>
    have ht : t = writeCtrl (v.setWidth 8) { s with script := rest } :=
      (Host.Outcome.next.inj h).symm
    by_cases hv : v.getLsbD 0 = true
    · exact .softReset v rest hs hv (by rw [ht]; simp [writeCtrl, hv])
    · refine .data ?_
      rw [ht, writeCtrl, if_neg (by simpa using hv)]
      constructor <;> rfl
  | status | errPos | errAux | inLen | bitLen | outLen | nodeCnt =>
    cases h
    exact .data (by constructor <;> rfl)

/-- A write to an element that is no scalar register is a write to data state or is ignored. -/
theorem keeps_of_writeLocation {s t : State} {l : Location} {v : HostWord}
    (hl : ∀ r, l ≠ .scalar r) (h : writeLocation l v s = .next t) : KeepsTablesAndStatus s t := by
  cases l with
  | scalar r => exact absurd rfl (hl r)
  | freq x | clen x | cbits x | node k => cases h; constructor <;> rfl
  | byte b a => cases b <;> cases h <;> constructor <;> simp

theorem KeepsTablesAndStatus.of_script {s t : State} {rest : List HostAction}
    (h : KeepsTablesAndStatus { s with script := rest } t) : KeepsTablesAndStatus s t :=
  ⟨h.clen, h.cbits, h.nodes, h.status, h.errPos, h.errAux, h.esticky⟩

/-- Every step is one of these cases. -/
theorem step_cases {s t : State} (h : step s = .next t) : StepCase s t := by
  cases hs : s.script with
  | nil =>
    rw [step_of_nextAction_none (nextAction_eq_none.2 hs)] at h
    cases h
    exact .data (by constructor <;> rfl)
  | cons a rest =>
    rw [step_of_script hs] at h
    cases a with
    | read bank index => cases h; exact .data (by constructor <;> rfl)
    | hardReset => exact .hardReset rest hs (Host.Outcome.next.inj h).symm
    | write bank index v =>
      change hostWrite bank index v { s with script := rest } = .next t at h
      cases hl : locate s.config bank index with
      | none =>
        rw [hostWrite_of_unassigned (s := { s with script := rest }) hl] at h
        cases h
        exact .data (by constructor <;> rfl)
      | some l =>
        rw [hostWrite_of_locate (s := { s with script := rest }) hl] at h
        by_cases hr : ∃ r, l = .scalar r
        · obtain ⟨r, rfl⟩ := hr
          obtain ⟨rfl, rfl⟩ := locate_eq_scalar hl
          exact stepCase_of_writeScalar hs h
        · exact .data (keeps_of_writeLocation (fun r e => hr ⟨r, e⟩) h).of_script

/-- Settles O54: of the cases of a step, all but BUILD, UNPACK and the resets keep the code
table. -/
theorem onlyBuildUnpackAndResetChangeCodes : Obligations.OnlyBuildUnpackAndResetChangeCodes := by
  intro s t h hne
  have changed : ¬ (t.clen = s.clen ∧ t.cbits = s.cbits) := fun e => hne.elim (· e.1) (· e.2)
  cases step_cases h with
  | data hk => exact absurd ⟨hk.clen, hk.cbits⟩ changed
  | command v rest i hs hd hr =>
    refine .inl ⟨v, rest, hs, ?_⟩
    by_contra hi
    rw [not_or] at hi
    exact changed ((exec_frame hr).codes (fun e => hi.1 (e ▸ hd)) fun e => hi.2 (e ▸ hd))
  | illegal v rest op hs ht => subst ht; exact absurd ⟨rfl, rfl⟩ changed
  | clear v rest hs ht => subst ht; exact absurd ⟨rfl, rfl⟩ changed
  | softReset v rest hs hv ht => exact .inr (.inl ⟨v, rest, hs, hv⟩)
  | hardReset rest hs ht => exact .inr (.inr ⟨rest, hs⟩)

end Sys2Proof.Machine
end

section
/-!
PROOFS. The status registers (spec/10_state.md section 3) and the reset state (R30).
-/

namespace Sys2Proof.Machine

open Sys2Proof

/-- A report sets the sticky bit of its kind and keeps the others (R21, R158). -/
theorem getLsbD_stickySet (e : Byte) (code : BitVec 3) (k : Nat) :
    (stickySet e code).getLsbD k = (e.getLsbD k || decide (k = code.toNat)) := by
  have hc : code.toNat < 8 := code.isLt
  have hbit : (1#8 <<< code.toNat).getLsbD k = decide (k = code.toNat) := by
    rw [Bool.eq_iff_iff]
    simp only [BitVec.getLsbD_shiftLeft, BitVec.getLsbD_one, Bool.and_eq_true, Bool.not_eq_true',
      decide_eq_true_eq, decide_eq_false_iff_not]
    omega
  rw [stickySet, BitVec.getLsbD_or, hbit]

/-- The number of an error kind is 1 to 6 (R83). -/
theorem CmdError.code_range (e : CmdError) : 1 ≤ e.code.toNat ∧ e.code.toNat ≤ 6 := by
  cases e <;> simp [CmdError.code]

@[simp] theorem toNat_statusOf (code : BitVec 3) : (statusOf code).toNat = code.toNat := by
  have hc : code.toNat < 8 := code.isLt
  simp only [statusOf, BitVec.toNat_setWidth]
  omega

/-- The end of a command clears no sticky bit (R158). -/
theorem EndsOn.sticky_of_sticky {u t : State} {k : Nat} (h : EndsOn u t)
    (hk : u.esticky.getLsbD k = true) : t.esticky.getLsbD k = true := by
  rcases h with rfl | ⟨e, rfl⟩
  · exact hk
  · rw [report_esticky, getLsbD_stickySet, hk, Bool.true_or]

/-- The end of a command leaves the status registers legal where the reserved sticky bits were 0. -/
theorem EndsOn.statusInv {u t : State} (h : EndsOn u t) (h0 : u.esticky.getLsbD 0 = false)
    (h7 : u.esticky.getLsbD 7 = false) : StatusInv t := by
  rcases h with rfl | ⟨e, rfl⟩
  · exact ⟨by simp, h0, h7, fun _ => ⟨rfl, rfl⟩⟩
  · obtain ⟨hlo, hhi⟩ := e.code_range
    refine ⟨by simpa using hhi, ?_, ?_, fun hz => ?_⟩
    · rw [report_esticky, getLsbD_stickySet, h0, Bool.false_or, decide_eq_false_iff_not]
      omega
    · rw [report_esticky, getLsbD_stickySet, h7, Bool.false_or, decide_eq_false_iff_not]
      omega
    · have hcode : e.code.toNat = 0 := by
        rw [← toNat_statusOf, ← report_status e u, hz]; rfl
      omega

/-- Status registers that are all 0 are legal. -/
theorem statusInv_of_zero {s : State} (hs : s.status = 0) (he : s.esticky = 0)
    (hp : s.errPos = 0) (ha : s.errAux = 0) : StatusInv s :=
  ⟨by simp [hs], by simp [he], by simp [he], fun _ => ⟨hp, ha⟩⟩

/-- Clearing sticky bits sets none (R143). -/
theorem getLsbD_stickyClear_of_false {e : Byte} (v : Byte) {k : Nat} (h : e.getLsbD k = false) :
    (stickyClear e v).getLsbD k = false := by
  rw [stickyClear, BitVec.getLsbD_and, h, Bool.false_and]

/-- Settles O53: of the cases of a step, only the three the statement excludes clear a sticky
bit. -/
theorem stickyBitsStaySet : Obligations.StickyBitsStaySet := by
  intro s t k h hk hclear hctrl hreset
  cases step_cases h with
  | data hd => rw [hd.esticky]; exact hk
  | command v rest i hs hd hr =>
    obtain ⟨u, hu, hend⟩ := exec_endsOn hr
    exact hend.sticky_of_sticky (hu ▸ hk)
  | illegal v rest op hs ht => exact EndsOn.sticky_of_sticky (.inr ⟨_, ht⟩) hk
  | clear v rest hs ht => exact absurd hs (hclear v rest)
  | softReset v rest hs hv ht => exact absurd hs (hctrl v rest)
  | hardReset rest hs ht => exact absurd hs (hreset rest)

/-- Settles O59: a command ends with legal registers, a reset zeroes them, and the other cases of a
step keep them or clear sticky bits. -/
theorem stepKeepsTheStatusLegal : Obligations.StepKeepsTheStatusLegal := by
  rintro s t ⟨hst, h0, h7, hz⟩ h
  cases step_cases h with
  | data hk =>
    rw [StatusInv, hk.status, hk.esticky, hk.errPos, hk.errAux]
    exact ⟨hst, h0, h7, hz⟩
  | command v rest i hs hd hr =>
    obtain ⟨u, hu, hend⟩ := exec_endsOn hr
    exact hend.statusInv (hu ▸ h0) (hu ▸ h7)
  | illegal v rest op hs ht => exact EndsOn.statusInv (.inr ⟨_, ht⟩) h0 h7
  | clear v rest hs ht =>
    subst ht
    exact ⟨hst, getLsbD_stickyClear_of_false _ h0, getLsbD_stickyClear_of_false _ h7, hz⟩
  | softReset v rest hs hv ht => subst ht; exact statusInv_of_zero rfl rfl rfl rfl
  | hardReset rest hs ht => subst ht; exact statusInv_of_zero rfl rfl rfl rfl

/-- `CTRL` holds nothing (R24). -/
theorem hostRead_ctrl (s : State) : hostRead s 0 0x05 = 0 := rfl

/-- Settles O19: every register file of the reset state is filled with 0, and `CTRL` holds
nothing. -/
theorem resetRegisterValues : Obligations.ResetRegisterValues :=
  ⟨fun x => ⟨symGet_replicate 0 x, symGet_replicate 0 x, symGet_replicate 0 x⟩,
    rfl, rfl, rfl, rfl, rfl, rfl, rfl, rfl, rfl, rfl, hostRead_ctrl⟩

/-- A code table without a code meets its invariants. -/
theorem codeInv_of_zero {s : State} (hl : s.clen = Vector.replicate 256 0)
    (hb : s.cbits = Vector.replicate 256 0) : CodeInv s := by
  have hz : ∀ x, symGet s.clen x = 0 := fun x => by rw [hl, symGet_replicate]
  refine ⟨fun x hx => absurd (hz x) hx, fun x _ _ hx => absurd (hz x) hx, fun x i _ => ?_⟩
  rw [hb, symGet_replicate]
  exact BitVec.getLsbD_zero

/-- The empty tree meets its invariants. -/
theorem treeInv_nil : TreeInv [] := fun h => absurd rfl h

/-- Settles O60: no code, no node, no byte and no status. -/
theorem resetMeetsTheInvariants : Obligations.ResetMeetsTheInvariants :=
  ⟨codeInv_of_zero rfl rfl, treeInv_nil,
    fun b => ⟨reset_buffers_wf b, by cases b <;> exact fun _ he => absurd he List.not_mem_nil⟩,
    statusInv_of_zero rfl rfl rfl rfl⟩

end Sys2Proof.Machine
end

section
/-!
PROOFS. The tree BUILD makes (spec/10_state.md R32, spec/41_build.md R91 to R93): the invariant of
the combination loop, a forest whose roots are the queue, and the tree it ends with.
-/

namespace Sys2Proof.Machine

open Sys2Proof

/-! ### Nodes and an arena that grows at its end -/

/-- Slot `h` holds a leaf: R32 (b) for one slot. -/
def LeafAt (nodes : List Node) (h : Nat) : Prop :=
  ∃ nd, nodes[h]? = some nd ∧ nd.kind = .leaf ∧ nd.left = nullHandle ∧ nd.right = nullHandle

/-- Slot `h` holds an internal node over two lower slots, with the sum of their frequencies: R32 (c)
and (d) for one slot. -/
def InternalAt (nodes : List Node) (h : Nat) : Prop :=
  ∃ nd, nodes[h]? = some nd ∧ nd.kind = .internal ∧ nd.sym = 0 ∧ nd.left.toNat < h ∧
    nd.right.toNat < h ∧ nd.left ≠ nd.right ∧
    nd.freq.toNat = freqAt nodes nd.left.toNat + freqAt nodes nd.right.toNat

theorem freqAt_of_getElem? {nodes : List Node} {h : Nat} {nd : Node} (hn : nodes[h]? = some nd) :
    freqAt nodes h = nd.freq.toNat := by simp [freqAt, hn]

theorem freqAt_append {nodes : List Node} {h : Nat} (more : List Node) (hh : h < nodes.length) :
    freqAt (nodes ++ more) h = freqAt nodes h := by
  rw [freqAt, freqAt, List.getElem?_append_left hh]

theorem LeafAt.append {nodes : List Node} {h : Nat} (more : List Node) (hl : LeafAt nodes h) :
    LeafAt (nodes ++ more) h := by
  obtain ⟨nd, hn, hrest⟩ := hl
  exact ⟨nd, by rw [List.getElem?_append_left (List.getElem?_eq_some_iff.1 hn).1, hn], hrest⟩

theorem InternalAt.append {nodes : List Node} {h : Nat} (more : List Node)
    (hi : InternalAt nodes h) : InternalAt (nodes ++ more) h := by
  obtain ⟨nd, hn, hk, hs, hl, hr, hne, hf⟩ := hi
  have hh : h < nodes.length := (List.getElem?_eq_some_iff.1 hn).1
  refine ⟨nd, by rw [List.getElem?_append_left hh, hn], hk, hs, hl, hr, hne, ?_⟩
  rw [freqAt_append more (Nat.lt_trans hl hh), freqAt_append more (Nat.lt_trans hr hh), hf]

/-- Only a slot of the arena has children. -/
theorem IsChild.lt_length {nodes : List Node} {k c : Nat} (h : IsChild nodes k c) :
    k < nodes.length := by
  obtain ⟨_, _, ⟨nd, hn, -⟩, -⟩ := h
  exact (List.getElem?_eq_some_iff.1 hn).1

/-- A leaf has no children. -/
theorem LeafAt.not_isChild {nodes : List Node} {k : Nat} (h : LeafAt nodes k) (c : Nat) :
    ¬ IsChild nodes k c := by
  rintro ⟨_, _, ⟨nd, hn, hk, -⟩, -⟩
  obtain ⟨nd', hn', hk', -⟩ := h
  cases hn.symm.trans hn'
  exact absurd (hk.symm.trans hk') (by decide)

/-- The children of an internal node stand below it. -/
theorem InternalAt.child_lt {nodes : List Node} {k c : Nat} (h : InternalAt nodes k)
    (hc : IsChild nodes k c) : c < k := by
  obtain ⟨nd, hn, -, -, hl, hr, -⟩ := h
  obtain ⟨a, b, ⟨nd', hn', -, rfl, rfl⟩, hc⟩ := hc
  cases hn.symm.trans hn'
  rcases hc with rfl | rfl
  · exact hl
  · exact hr

/-- Appending a parent adds the edges to its two children and no others. -/
theorem isChild_append_internalNode {nodes : List Node} {a b : QueueEntry} (ha : a.handle < 512)
    (hb : b.handle < 512) {k c : Nat} :
    IsChild (nodes ++ [internalNode a b]) k c ↔
      IsChild nodes k c ∨ (k = nodes.length ∧ (c = a.handle ∨ c = b.handle)) := by
  have hchildren : ∀ {x y}, k < nodes.length →
      (HasChildren (nodes ++ [internalNode a b]) k x y ↔ HasChildren nodes k x y) := fun hk => by
    rw [HasChildren, HasChildren, List.getElem?_append_left hk]
  have hparent : HasChildren (nodes ++ [internalNode a b]) nodes.length a.handle b.handle :=
    ⟨internalNode a b, by simp, rfl, by simpa [internalNode] using ha,
      by simpa [internalNode] using hb⟩
  constructor
  · intro h
    have hk : k < nodes.length + 1 := by simpa using h.lt_length
    obtain ⟨x, y, hxy, hc⟩ := h
    rcases Nat.lt_succ_iff_lt_or_eq.1 hk with hk | rfl
    · exact .inl ⟨x, y, (hchildren hk).1 hxy, hc⟩
    · obtain ⟨nd, hn, -, rfl, rfl⟩ := hxy
      obtain ⟨nd', hn', -, hl, hr⟩ := hparent
      cases hn.symm.trans hn'
      exact .inr ⟨rfl, hl ▸ hr ▸ hc⟩
  · rintro (h | ⟨rfl, hc⟩)
    · obtain ⟨x, y, hxy, hc⟩ := id h
      exact ⟨x, y, (hchildren h.lt_length).2 hxy, hc⟩
    · exact ⟨_, _, hparent, hc⟩

/-! ### The invariant of the combination loop -/

/-- The invariant of BUILD's loop with `n` leaves: the arena is a forest, its roots are the nodes in
the queue, and no sum of frequencies can leave 72 bits. -/
structure Forest (n : Nat) (nodes : List Node) (q : List QueueEntry) : Prop where
  leaf : ∀ h < n, LeafAt nodes h
  internal : ∀ h, n ≤ h → h < nodes.length → InternalAt nodes h
  handles : (q.map QueueEntry.handle).Nodup
  freqs : ∀ e ∈ q, freqAt nodes e.handle = e.freq.toNat
  roots : ∀ c, c ∈ q.map QueueEntry.handle ↔ c < nodes.length ∧ ∀ k, ¬ IsChild nodes k c
  parent : ∀ c k k', IsChild nodes k c → IsChild nodes k' c → k = k'
  total : (q.map fun e => e.freq.toNat).sum < 2 ^ 72
  size : nodes.length + q.length ≤ 512

/-- The invariant does not depend on the order of the queue. -/
theorem Forest.perm {n : Nat} {nodes : List Node} {q q' : List QueueEntry} (hF : Forest n nodes q)
    (hp : q.Perm q') : Forest n nodes q' where
  leaf := hF.leaf
  internal := hF.internal
  handles := (hp.map _).nodup_iff.1 hF.handles
  freqs e he := hF.freqs e (hp.mem_iff.2 he)
  roots c := by rw [← (hp.map QueueEntry.handle).mem_iff, hF.roots]
  parent := hF.parent
  total := by rw [← (hp.map fun e => e.freq.toNat).sum_eq]; exact hF.total
  size := by rw [← hp.length_eq]; exact hF.size

/-- A node in the queue is in the arena. -/
theorem Forest.handle_lt {n : Nat} {nodes : List Node} {q : List QueueEntry} (hF : Forest n nodes q)
    {e : QueueEntry} (he : e ∈ q) : e.handle < nodes.length :=
  ((hF.roots e.handle).1 (List.mem_map_of_mem he)).1

/-- A child stands below its parent. -/
theorem Forest.child_lt {n : Nat} {nodes : List Node} {q : List QueueEntry} (hF : Forest n nodes q)
    {k c : Nat} (hc : IsChild nodes k c) : c < k := by
  rcases Nat.lt_or_ge k n with hk | hk
  · exact absurd hc ((hF.leaf k hk).not_isChild c)
  · exact (hF.internal k hk hc.lt_length).child_lt hc

/-- The frequency of a parent is the exact sum: no carry leaves the 72 bits. -/
theorem Forest.toNat_freq_internalNode {n : Nat} {nodes : List Node} {a b : QueueEntry}
    {q : List QueueEntry} (hF : Forest n nodes (a :: b :: q)) :
    (internalNode a b).freq.toNat = a.freq.toNat + b.freq.toNat := by
  have ht := hF.total
  simp only [List.map_cons, List.sum_cons] at ht
  rw [internalNode, BitVec.toNat_add, Nat.mod_eq_of_lt (by omega)]

/-- The parent of two nodes in the queue is an internal node as R32 asks. -/
theorem Forest.internalAt_parent {n : Nat} {nodes : List Node} {a b : QueueEntry}
    {q : List QueueEntry} (hF : Forest n nodes (a :: b :: q)) :
    InternalAt (nodes ++ [internalNode a b]) nodes.length := by
  have ha := hF.handle_lt (e := a) (by simp)
  have hb := hF.handle_lt (e := b) (by simp)
  have hab : a.handle ≠ b.handle := fun e => by simpa [e] using hF.handles
  have hsize := hF.size
  simp only [List.length_cons] at hsize
  have hl : (internalNode a b).left.toNat = a.handle := by
    simp only [internalNode, BitVec.toNat_ofNat]; omega
  have hr : (internalNode a b).right.toNat = b.handle := by
    simp only [internalNode, BitVec.toNat_ofNat]; omega
  refine ⟨internalNode a b, by simp, rfl, rfl, hl ▸ ha, hr ▸ hb, fun e => hab ?_, ?_⟩
  · rw [← hl, ← hr, e]
  · rw [hl, hr, freqAt_append _ ha, freqAt_append _ hb, hF.freqs a (by simp), hF.freqs b (by simp),
      hF.toNat_freq_internalNode]

/-- The edges after one round of the loop: those before it and the two of the new parent. -/
theorem Forest.isChild_append_iff {n : Nat} {nodes : List Node} {a b : QueueEntry}
    {q : List QueueEntry} (hF : Forest n nodes (a :: b :: q)) {k c : Nat} :
    IsChild (nodes ++ [internalNode a b]) k c ↔
      IsChild nodes k c ∨ (k = nodes.length ∧ (c = a.handle ∨ c = b.handle)) := by
  have ha := hF.handle_lt (e := a) (by simp)
  have hb := hF.handle_lt (e := b) (by simp)
  have hsize := hF.size
  simp only [List.length_cons] at hsize
  exact isChild_append_internalNode (by omega) (by omega)

/-- The roots after one round of the loop: the two extracted ones have become children, and their
parent is a root. -/
theorem Forest.roots_append {n : Nat} {nodes : List Node} {a b : QueueEntry}
    {q : List QueueEntry} (hF : Forest n nodes (a :: b :: q)) (c : Nat) :
    c = nodes.length ∨ c ∈ q.map QueueEntry.handle ↔
      c < nodes.length + 1 ∧ ∀ k, ¬ IsChild (nodes ++ [internalNode a b]) k c := by
  have ha := hF.handle_lt (e := a) (by simp)
  have hb := hF.handle_lt (e := b) (by simp)
  have hnodup := hF.handles
  have hc := hF.roots c
  simp only [List.map_cons, List.nodup_cons, List.mem_cons, not_or] at hnodup hc
  obtain ⟨⟨-, haq⟩, hbq, -⟩ := hnodup
  simp only [hF.isChild_append_iff]
  constructor
  · rintro (rfl | hcq)
    · refine ⟨Nat.lt_succ_self _, ?_⟩
      rintro k (hk | ⟨-, he⟩)
      · exact Nat.lt_asymm hk.lt_length (hF.child_lt hk)
      · omega
    · obtain ⟨hlt, hno⟩ := hc.1 (.inr (.inr hcq))
      refine ⟨Nat.lt_succ_of_lt hlt, ?_⟩
      rintro k (hk | ⟨-, rfl | rfl⟩)
      · exact hno k hk
      · exact haq hcq
      · exact hbq hcq
  · rintro ⟨hlt, hno⟩
    rcases Nat.lt_succ_iff_lt_or_eq.1 hlt with hlt | rfl
    · rcases hc.2 ⟨hlt, fun k hk => hno k (.inl hk)⟩ with he | he | hcq
      · exact absurd (.inr ⟨rfl, .inl he⟩) (hno _)
      · exact absurd (.inr ⟨rfl, .inr he⟩) (hno _)
      · exact .inr hcq
    · exact .inl rfl

/-- One round of the loop (R93) keeps the invariant. -/
theorem Forest.combine_step {n : Nat} {nodes : List Node} {a b : QueueEntry} {q : List QueueEntry}
    (hF : Forest n nodes (a :: b :: q)) :
    Forest n (nodes ++ [internalNode a b])
      (enqueue ⟨(internalNode a b).freq, nodes.length⟩ q) := by
  have hroot : ∀ {c}, c = a.handle ∨ c = b.handle → ∀ k, ¬ IsChild nodes k c := fun hc =>
    ((hF.roots _).1 (by rcases hc with rfl | rfl <;> simp)).2
  refine Forest.perm ?_ (enqueue_perm _ q).symm
  exact {
    leaf := fun h hh => (hF.leaf h hh).append _
    internal := fun h hn hh => by
      rcases Nat.lt_succ_iff_lt_or_eq.1 (show h < nodes.length + 1 by simpa using hh) with hh | rfl
      · exact (hF.internal h hn hh).append _
      · exact hF.internalAt_parent
    handles := by
      refine List.nodup_cons.2 ⟨fun hm => ?_, hF.handles.of_cons.of_cons⟩
      exact Nat.lt_irrefl _ ((hF.roots nodes.length).1 (by simp [hm])).1
    freqs := fun e he => by
      rcases List.mem_cons.1 he with rfl | he
      · exact freqAt_of_getElem? (by simp)
      · have he' : e ∈ a :: b :: q := by simp [he]
        rw [freqAt_append _ (hF.handle_lt he'), hF.freqs e he']
    roots := fun c => by
      rw [List.map_cons, List.mem_cons, List.length_append, List.length_singleton]
      exact hF.roots_append c
    parent := fun c k k' hk hk' => by
      rcases hF.isChild_append_iff.1 hk with hk | ⟨rfl, hc⟩ <;>
        rcases hF.isChild_append_iff.1 hk' with hk' | ⟨rfl, hc'⟩
      · exact hF.parent c k k' hk hk'
      · exact absurd hk (hroot hc' k)
      · exact absurd hk' (hroot hc k')
      · rfl
    total := by
      have htotal := hF.total
      simp only [List.map_cons, List.sum_cons, hF.toNat_freq_internalNode] at htotal ⊢
      omega
    size := by
      have hsize := hF.size
      simp only [List.length_append, List.length_cons, List.length_nil] at hsize ⊢
      omega }

/-- The loop ends with one node in the queue (R93). -/
theorem Forest.combine {n : Nat} : ∀ {rounds : Nat} {nodes : List Node} {q : List QueueEntry},
    Forest n nodes q → q ≠ [] → q.length ≤ rounds + 1 →
    ∃ root, Forest n (combine rounds nodes q) [root]
  | _, nodes, [root], hF, _, _ => ⟨root, by simpa [Machine.combine] using hF⟩
  | rounds + 1, nodes, a :: b :: q, hF, _, hle =>
    hF.combine_step.combine (by simp [← List.length_pos_iff]) (by simp at hle ⊢; omega)

/-! ### The tree of a frequency map -/

/-- The queue entries of consecutive nodes from handle `h` on. -/
def queueEntries (h : Nat) (nodes : List Node) : List QueueEntry :=
  (nodes.zipIdx h).map fun p => ⟨p.1.freq, p.2⟩

theorem enqueueNodes_perm (h : Nat) (q : List QueueEntry) (nodes : List Node) :
    (enqueueNodes h q nodes).Perm (q ++ queueEntries h nodes) := by
  induction nodes generalizing h q with
  | nil => simp [enqueueNodes, queueEntries]
  | cons nd rest ih =>
    exact (ih _ _).trans (((enqueue_perm _ q).append_right _).trans List.perm_middle.symm)

/-- The handles of the leaves, before any node is combined (R91). -/
theorem map_handle_queueEntries (nodes : List Node) :
    (queueEntries 0 nodes).map QueueEntry.handle = List.range nodes.length := by
  simp [queueEntries, Function.comp_def, List.range_eq_range']

theorem map_freq_queueEntries (nodes : List Node) :
    (queueEntries 0 nodes).map QueueEntry.freq = nodes.map Node.freq := by
  calc (queueEntries 0 nodes).map QueueEntry.freq
      _ = ((nodes.zipIdx 0).map Prod.fst).map Node.freq := by
        rw [queueEntries, List.map_map, List.map_map]; rfl
      _ = nodes.map Node.freq := by rw [List.zipIdx_map_fst]

@[simp] theorem length_queueEntries (nodes : List Node) :
    (queueEntries 0 nodes).length = nodes.length := by simp [queueEntries]

theorem freqAt_of_mem_queueEntries {nodes : List Node} {e : QueueEntry}
    (he : e ∈ queueEntries 0 nodes) : freqAt nodes e.handle = e.freq.toNat := by
  obtain ⟨⟨nd, h⟩, hp, rfl⟩ := List.mem_map.1 he
  exact freqAt_of_getElem? (List.mem_zipIdx_iff_getElem?.1 hp)

/-- The leaves of a frequency map are leaves (R91). -/
theorem leafAt_leafNodes (freq : Vector Word64 256) {h : Nat} (hh : h < (leafNodes freq).length) :
    LeafAt (leafNodes freq) h := by
  rw [length_leafNodes] at hh
  exact ⟨leafNode freq (keys freq)[h], by simp [leafNodes, hh], rfl, rfl, rfl⟩

/-- All counters together stay below 72 bits: 256 counters of 64 bits (R93). -/
theorem sum_freq_leafNodes_lt (freq : Vector Word64 256) :
    ((leafNodes freq).map fun nd => nd.freq.toNat).sum < 2 ^ 72 := by
  have hbound : ∀ m ∈ (leafNodes freq).map (fun nd => nd.freq.toNat), m ≤ 2 ^ 64 - 1 := by
    intro m hm
    simp only [leafNodes, List.map_map, List.mem_map] at hm
    obtain ⟨x, -, rfl⟩ := hm
    have hx : (symGet freq x).toNat < 2 ^ 64 := (symGet freq x).isLt
    simp only [Function.comp, leafNode, BitVec.toNat_setWidth]
    omega
  have hsum := List.sum_le_card_nsmul _ _ hbound
  have hlen := length_keys_le freq
  rw [List.length_map, length_leafNodes, smul_eq_mul] at hsum
  omega

/-- Before the loop the arena is a forest of single leaves, all of them in the queue. -/
theorem forest_leafNodes (freq : Vector Word64 256) :
    Forest (keys freq).length (leafNodes freq) (enqueueNodes 0 [] (leafNodes freq)) := by
  have hlen := length_leafNodes freq
  have noEdge : ∀ c k, ¬ IsChild (leafNodes freq) k c := fun c k hk =>
    (leafAt_leafNodes freq hk.lt_length).not_isChild c hk
  refine Forest.perm ?_ (enqueueNodes_perm 0 [] (leafNodes freq)).symm
  rw [List.nil_append]
  exact {
    leaf := fun h hh => leafAt_leafNodes freq (hlen ▸ hh)
    internal := fun h hn hh => by omega
    handles := by rw [map_handle_queueEntries]; exact List.nodup_range
    freqs := fun e he => freqAt_of_mem_queueEntries he
    roots := fun c => by
      rw [map_handle_queueEntries, List.mem_range]
      exact ⟨fun hc => ⟨hc, noEdge c⟩, And.left⟩
    parent := fun c k _ hk => absurd hk (noEdge c k)
    total := by
      have hmap : (queueEntries 0 (leafNodes freq)).map (fun e => e.freq.toNat) =
          (leafNodes freq).map fun nd => nd.freq.toNat := by
        simpa [Function.comp_def] using
          congrArg (List.map BitVec.toNat) (map_freq_queueEntries (leafNodes freq))
      rw [hmap]
      exact sum_freq_leafNodes_lt freq
    size := by
      have := length_keys_le freq
      rw [length_queueEntries, hlen]
      omega }

/-- BUILD makes `2n - 1` nodes of `n` keys, and none of no key (R100). -/
theorem length_buildTree (freq : Vector Word64 256) :
    (buildTree freq).length = (keys freq).length + ((keys freq).length - 1) := by
  rw [buildTree, length_combine, length_enqueueNodes]
  · simp
  · rw [length_enqueueNodes]; simp

/-- Where there is a key, the loop ends with the invariant and one root. -/
theorem forest_buildTree {freq : Vector Word64 256} (h : keys freq ≠ []) :
    ∃ root, Forest (keys freq).length (buildTree freq) [root] := by
  have hq : (enqueueNodes 0 [] (leafNodes freq)).length = (leafNodes freq).length := by
    rw [length_enqueueNodes]; simp
  refine (forest_leafNodes freq).combine (fun e => h ?_) (by omega)
  rw [e, length_leafNodes] at hq
  exact List.length_eq_zero_iff.1 hq.symm

/-- A forest of `2n - 1` nodes with one root is a tree as R32 asks, but for the order of its
leaves. -/
theorem Forest.treeInv {n : Nat} {nodes : List Node} {root : QueueEntry}
    (hF : Forest n nodes [root]) (hlen : nodes.length = n + (n - 1)) (hpos : 1 ≤ n)
    (hn : n ≤ 256)
    (hsym : ∀ h k x y, h < k → k < n → nodes[h]? = some x → nodes[k]? = some y →
      x.sym.toNat < y.sym.toNat) : TreeInv nodes := by
  have hhalf : (nodes.length + 1) / 2 = n := by omega
  have hlast : ∀ k, ¬ IsChild nodes k (nodes.length - 1) := fun k hk => by
    have := hF.child_lt hk
    have := hk.lt_length
    omega
  have hroot : root.handle = nodes.length - 1 := by
    simpa [eq_comm] using (hF.roots (nodes.length - 1)).2 ⟨by omega, hlast⟩
  intro _
  rw [hhalf]
  refine ⟨by omega, hpos, hn, hF.leaf, hsym, hF.internal, fun c hc => ?_, hlast⟩
  have hparent : ∃ h, IsChild nodes h c := by
    by_contra hno
    have hmem := (hF.roots c).2 ⟨by omega, not_exists.1 hno⟩
    have : c = root.handle := by simpa using hmem
    omega
  obtain ⟨h, hh⟩ := hparent
  exact ⟨h, hh, fun k hk => hF.parent c k h hk hh⟩

/-- The leaves stand first in the tree, in the order of the keys (R91). -/
theorem getElem?_buildTree {freq : Vector Word64 256} {h : Nat} (hh : h < (keys freq).length) :
    (buildTree freq)[h]? = some (leafNode freq (keys freq)[h]) := by
  obtain ⟨more, hmore⟩ := combine_extends (leafNodes freq).length (leafNodes freq)
    (enqueueNodes 0 [] (leafNodes freq))
  rw [buildTree, hmore, List.getElem?_append_left (by simpa using hh)]
  simp [leafNodes, hh]

/-- The symbols of the leaves strictly rise (R32 (b)). -/
theorem sym_lt_sym_buildTree {freq : Vector Word64 256} {h k : Nat} {x y : Node} (hhk : h < k)
    (hk : k < (keys freq).length) (hx : (buildTree freq)[h]? = some x)
    (hy : (buildTree freq)[k]? = some y) : x.sym.toNat < y.sym.toNat := by
  rw [getElem?_buildTree (Nat.lt_trans hhk hk)] at hx
  rw [getElem?_buildTree hk] at hy
  cases hx
  cases hy
  exact List.pairwise_iff_getElem.1 (keys_ascending freq) h k _ hk hhk

/-- Whatever the frequency map, BUILD makes a tree as R32 asks. -/
theorem treeInv_buildTree (freq : Vector Word64 256) : TreeInv (buildTree freq) := by
  by_cases h : keys freq = []
  · have hnil : buildTree freq = [] :=
      List.length_eq_zero_iff.1 (by rw [length_buildTree, h]; rfl)
    rw [hnil]
    exact treeInv_nil
  · obtain ⟨root, hF⟩ := forest_buildTree h
    exact hF.treeInv (length_buildTree freq) (List.length_pos_iff.2 h) (length_keys_le freq)
      fun _ _ _ _ => sym_lt_sym_buildTree

/-- The tree after a command is BUILD's or the one before it (R33). -/
theorem exec_nodes {i : Instr} {s t : State} (h : exec i s = .next t) :
    t.nodes = buildTree s.freq ∨ t.nodes = s.nodes := by
  by_cases hi : i = .build
  · subst hi
    rcases execBuild_cases s with ⟨-, hr⟩ | ⟨-, hr⟩ <;> cases hr.symm.trans h <;> exact .inl rfl
  · exact .inr ((exec_frame h).tree hi).1

/-- Settles O57: BUILD makes a tree from whatever state, a reset leaves the empty one, and every
other case of a step keeps the tree. -/
theorem stepKeepsTheTree : Obligations.StepKeepsTheTree := by
  intro s t hinv h
  cases step_cases h with
  | data hk => rw [hk.nodes]; exact hinv
  | command v rest i hs hd hr =>
    rcases exec_nodes hr with ht | ht <;> rw [ht]
    · exact treeInv_buildTree _
    · exact hinv
  | illegal v rest op hs ht => subst ht; exact hinv
  | clear v rest hs ht => subst ht; exact hinv
  | softReset v rest hs hv ht => subst ht; exact treeInv_nil
  | hardReset rest hs ht => subst ht; exact treeInv_nil

end Sys2Proof.Machine
end

section
/-!
PROOFS. The code table (spec/10_state.md R15): what a `CBITS` register holds of a code, the tables
written from a code map without overlaps, and the code maps of BUILD (spec/41_build.md R96) and
UNPACK (spec/43_container.md R124).
-/

namespace Sys2Proof.Machine

open Sys2Proof

/-! ### The image of a code in its register -/

/-- The bits of the integer a bit sequence spells are the bits of the sequence, last one first. -/
theorem testBit_natOfBits (c : Bits) (k : Nat) :
    (natOfBits c).testBit k = c.reverse.getD k false := by
  induction c using List.reverseRecOn generalizing k with
  | nil => simp
  | append_singleton c x ih =>
    rw [natOfBits_append_singleton, ← Nat.bit_val, List.reverse_append, List.reverse_singleton,
      List.singleton_append]
    cases k with
    | zero => exact Nat.testBit_bit_zero x _
    | succ k => rw [Nat.testBit_bit_succ, ih]; rfl

/-- The bits of a `CBITS` register that holds a code (R81). -/
theorem getLsbD_codeImage (c : Bits) (k : Nat) :
    (codeImage c).getLsbD k =
      (decide (k < 256) && (decide (256 - c.length ≤ k) &&
        c.reverse.getD (k - (256 - c.length)) false)) := by
  rw [codeImage, BitVec.getLsbD_ofNat, Nat.testBit_mul_two_pow, testBit_natOfBits]

/-- The code is read back from the top of its register. -/
theorem imageBits_codeImage {c : Bits} (h : c.length ≤ 256) :
    imageBits c.length (codeImage c) = c := by
  refine List.ext_getElem (length_imageBits _ _) fun i _ hi => ?_
  simp only [imageBits, List.getElem_map, List.getElem_range, getLsbD_codeImage]
  rw [decide_eq_true (by omega), decide_eq_true (by omega), Bool.true_and, Bool.true_and,
    List.getD_eq_getElem _ _ (by rw [List.length_reverse]; omega), List.getElem_reverse]
  congr 1
  omega

/-! ### A table written from a code map -/

/-- No entry of a code map has a code that begins another entry's. -/
def PrefixFree (codes : CodeMap) : Prop :=
  codes.Pairwise fun e f => ¬ e.2 <+: f.2 ∧ ¬ f.2 <+: e.2

/-- Entries for different symbols have codes neither of which begins the other. -/
theorem PrefixFree.not_prefix {codes : CodeMap} (h : PrefixFree codes) {x y : Byte} {c d : Bits}
    (hc : (x, c) ∈ codes) (hd : (y, d) ∈ codes) (hxy : x ≠ y) : ¬ c <+: d := by
  have : Std.Symm fun e f : Byte × Bits => ¬ e.2 <+: f.2 ∧ ¬ f.2 <+: e.2 :=
    ⟨fun _ _ => And.symm⟩
  exact (List.Pairwise.forall h hc hd fun e => hxy (congrArg Prod.fst e)).1

section WrittenTable

variable {codes : CodeMap} {t : State} {x : Byte}

theorem codeLength_of_lookupCode {c : Bits} (h : lookupCode codes x = some c) :
    codeLength codes x = BitVec.ofNat 8 c.length := by rw [codeLength, h]

theorem codeBitsImage_of_lookupCode {c : Bits} (h : lookupCode codes x = some c) :
    codeBitsImage codes x = codeImage c := by rw [codeBitsImage, h]

variable (hl : t.clen = symFill (codeLength codes)) (hb : t.cbits = symFill (codeBitsImage codes))
  (hlen : ∀ e ∈ codes, e.2.length ≤ 255)

include hl

/-- A symbol with a code length has an entry in the map. -/
theorem exists_lookupCode_of_clen_ne_zero (hx : symGet t.clen x ≠ 0) :
    ∃ c, lookupCode codes x = some c := by
  rw [hl, symGet_symFill, codeLength] at hx
  cases h : lookupCode codes x with
  | none => simp [h] at hx
  | some c => exact ⟨c, rfl⟩

include hlen

/-- The code length a table holds is the length of the code in the map. -/
theorem toNat_clen_of_lookupCode {c : Bits} (h : lookupCode codes x = some c) :
    (symGet t.clen x).toNat = c.length := by
  have : c.length ≤ 255 := hlen _ (mem_of_lookupCode h)
  rw [hl, symGet_symFill, codeLength_of_lookupCode h, BitVec.toNat_ofNat]
  omega

include hb

/-- The code a table holds is the code in the map. -/
theorem codeOf_of_lookupCode {c : Bits} (h : lookupCode codes x = some c) : codeOf t x = c := by
  have hc : c.length ≤ 255 := hlen _ (mem_of_lookupCode h)
  rw [codeOf, toNat_clen_of_lookupCode hl hlen h, hb, symGet_symFill,
    codeBitsImage_of_lookupCode h, imageBits_codeImage (by omega)]

/-- A table written from a code map without overlaps, of codes of at most 255 bits, meets R15. -/
theorem codeInv_of_prefixFree (hpf : PrefixFree codes) : CodeInv t := by
  refine ⟨fun x hx => ?_, fun x y hxy hx hy => ?_, fun x i hi => ?_⟩
  · have hpos : (symGet t.clen x).toNat ≠ 0 := fun e => hx (BitVec.eq_of_toNat_eq e)
    have hlt : (symGet t.clen x).toNat < 2 ^ 8 := (symGet t.clen x).isLt
    rw [length_codeOf]
    omega
  · obtain ⟨c, hc⟩ := exists_lookupCode_of_clen_ne_zero hl hx
    obtain ⟨d, hd⟩ := exists_lookupCode_of_clen_ne_zero hl hy
    rw [codeOf_of_lookupCode hl hb hlen hc, codeOf_of_lookupCode hl hb hlen hd]
    exact hpf.not_prefix (mem_of_lookupCode hc) (mem_of_lookupCode hd) hxy
  · cases hc : lookupCode codes x with
    | none => rw [hb, symGet_symFill, codeBitsImage, hc]; exact BitVec.getLsbD_zero
    | some c =>
      rw [toNat_clen_of_lookupCode hl hlen hc] at hi
      rw [hb, symGet_symFill, codeBitsImage_of_lookupCode hc, getLsbD_codeImage,
        decide_eq_false (p := 256 - c.length ≤ i) (by omega), Bool.false_and, Bool.and_false]

end WrittenTable

/-! ### The code map of BUILD -/

/-- The three cases of the descent (R97): nothing, a leaf, or the two subtrees of an internal
node. -/
theorem assignCodes_cases (nodes : List Node) (depth h : Nat) (p : Bits) :
    assignCodes nodes depth h p = [] ∨
    (∃ nd : Node, assignCodes nodes depth h p = [(nd.sym, p)]) ∨
    ∃ d nd, depth = d + 1 ∧ nodes[h]? = some nd ∧ nd.kind = .internal ∧
      assignCodes nodes depth h p =
        assignCodes nodes d nd.left.toNat (p ++ [false]) ++
          assignCodes nodes d nd.right.toNat (p ++ [true]) := by
  cases depth with
  | zero => exact .inl rfl
  | succ d =>
    cases hn : nodes[h]? with
    | none => exact .inl (by simp [assignCodes, hn])
    | some nd =>
      cases hk : nd.kind with
      | leaf => exact .inr (.inl ⟨nd, by simp [assignCodes, hn, hk]⟩)
      | internal => exact .inr (.inr ⟨d, nd, rfl, rfl, hk, by simp [assignCodes, hn, hk]⟩)

/-- Every code assigned under a node begins with the path to that node. -/
theorem prefix_of_mem_assignCodes {nodes : List Node} {depth h : Nat} {p : Bits} {e : Byte × Bits}
    (he : e ∈ assignCodes nodes depth h p) : p <+: e.2 := by
  induction depth generalizing h p with
  | zero => simp [assignCodes] at he
  | succ depth ih =>
    rcases assignCodes_cases nodes (depth + 1) h p with
      hc | ⟨nd, hc⟩ | ⟨d, nd, hd, -, -, hc⟩ <;> rw [hc] at he
    · exact absurd he List.not_mem_nil
    · rw [List.mem_singleton.1 he]
    · cases hd
      rcases List.mem_append.1 he with he | he
      · exact (List.prefix_append p _).trans (ih he)
      · exact (List.prefix_append p _).trans (ih he)

/-- Two sequences that part after `p` do not begin one another. -/
theorem not_prefix_of_branch {p c d : Bits} {b b' : Bool} (hb : b ≠ b') (hc : p ++ [b] <+: c)
    (hd : p ++ [b'] <+: d) : ¬ c <+: d := by
  intro hcd
  have hp : p ++ [b] <+: p ++ [b'] :=
    List.prefix_of_prefix_length_le (hc.trans hcd) hd (by simp)
  rw [List.prefix_append_right_inj] at hp
  exact hb (by simpa using hp)

/-- The paths to the leaves under a node do not begin one another (R98). -/
theorem prefixFree_assignCodes (nodes : List Node) (depth h : Nat) (p : Bits) :
    PrefixFree (assignCodes nodes depth h p) := by
  induction depth generalizing h p with
  | zero => exact List.Pairwise.nil
  | succ depth ih =>
    rcases assignCodes_cases nodes (depth + 1) h p with
      hc | ⟨nd, hc⟩ | ⟨d, nd, hd, -, -, hc⟩ <;> rw [hc]
    · exact List.Pairwise.nil
    · exact List.pairwise_singleton _ _
    · cases hd
      refine List.pairwise_append.2 ⟨ih _ _, ih _ _, fun e he f hf => ?_⟩
      have hl := prefix_of_mem_assignCodes he
      have hr := prefix_of_mem_assignCodes hf
      exact ⟨not_prefix_of_branch (by decide) hl hr, not_prefix_of_branch (by decide) hr hl⟩

/-- A path descends through internal nodes, each below the last, so it is no longer than there are
internal nodes at its start and below (R100). -/
theorem Forest.length_le_of_mem_assignCodes {n : Nat} {nodes : List Node} {q : List QueueEntry}
    (hF : Forest n nodes q) {depth h : Nat} {p : Bits} {e : Byte × Bits}
    (he : e ∈ assignCodes nodes depth h p) : e.2.length ≤ p.length + (h + 1 - n) := by
  induction depth generalizing h p with
  | zero => simp [assignCodes] at he
  | succ depth ih =>
    rcases assignCodes_cases nodes (depth + 1) h p with
      hc | ⟨nd, hc⟩ | ⟨d, nd, hd, hn, hk, hc⟩ <;> rw [hc] at he
    · exact absurd he List.not_mem_nil
    · rw [List.mem_singleton.1 he]
      exact Nat.le_add_right _ _
    · cases hd
      have child : ∀ {c b}, IsChild nodes h c → e ∈ assignCodes nodes depth c (p ++ [b]) →
          e.2.length ≤ p.length + (h + 1 - n) := fun {c b} hch hm => by
        have hlt := hF.child_lt hch
        have hge : n ≤ h := by
          by_contra hlt
          exact (hF.leaf h (by omega)).not_isChild c hch
        have := ih hm
        rw [List.length_append, List.length_singleton] at this
        omega
      have hchildren : HasChildren nodes h nd.left.toNat nd.right.toNat := ⟨nd, hn, hk, rfl, rfl⟩
      rcases List.mem_append.1 he with he | he
      · exact child ⟨_, _, hchildren, .inl rfl⟩ he
      · exact child ⟨_, _, hchildren, .inr rfl⟩ he

/-- BUILD's codes do not begin one another, whatever the tree (R98). -/
theorem prefixFree_buildCodes (ks : List Byte) (nodes : List Node) :
    PrefixFree (buildCodes ks nodes) := by
  rw [buildCodes.eq_def]
  split
  · exact List.Pairwise.nil
  · exact List.pairwise_singleton _ _
  · exact prefixFree_assignCodes _ _ _ _

/-- BUILD's codes have at most 255 bits (R100). -/
theorem length_le_of_mem_buildCodes {freq : Vector Word64 256} {e : Byte × Bits}
    (he : e ∈ buildCodes (keys freq) (buildTree freq)) : e.2.length ≤ 255 := by
  have hlen := length_buildTree freq
  have hkeys := length_keys_le freq
  rw [buildCodes.eq_def] at he
  split at he
  next => exact absurd he List.not_mem_nil
  next => rw [List.mem_singleton.1 he]; simp
  next hne _ =>
    obtain ⟨root, hF⟩ := forest_buildTree hne
    have := hF.length_le_of_mem_assignCodes he
    rw [List.length_nil] at this
    omega

/-- The code table BUILD writes meets R15. -/
theorem codeInv_writeBuild (s : State) : CodeInv (writeBuild s) :=
  codeInv_of_prefixFree (writeBuild_clen s) (writeBuild_cbits s)
    (fun _ => length_le_of_mem_buildCodes) (prefixFree_buildCodes _ _)

/-! ### The code map of UNPACK -/

theorem not_prefix_of_codesClash_eq_false {c d : Bits} (h : codesClash c d = false) :
    ¬ c <+: d ∧ ¬ d <+: c := by
  simpa [codesClash, ← List.isPrefixOf_iff_prefix] using h

/-- The entries read so far, one more well-formed entry after them. -/
theorem ListsCodeMap.append_entry {tab : CodeMap} {x : Byte} {c : Bits} (h : ListsCodeMap tab)
    (hc : 1 ≤ c.length ∧ c.length ≤ 255) (hx : ¬ (tab.any fun e => e.1 == x) = true)
    (hclash : ¬ (tab.any fun e => codesClash e.2 c) = true) : ListsCodeMap (tab ++ [(x, c)]) := by
  obtain ⟨hlen, hpair⟩ := h
  simp only [List.any_eq_true, beq_iff_eq, not_exists, not_and, Bool.not_eq_true] at hx hclash
  refine ⟨fun e he => ?_, List.pairwise_append.2
    ⟨hpair, List.pairwise_singleton _ _, fun e he f hf => ?_⟩⟩
  · rcases List.mem_append.1 he with he | he
    · exact hlen e he
    · rw [List.mem_singleton.1 he]
      exact hc
  · rw [List.mem_singleton.1 hf]
    exact ⟨hx e he, not_prefix_of_codesClash_eq_false (hclash e he)⟩

/-- The entries UNPACK accepts form a code map (R124, R125). -/
theorem listsCodeMap_of_parseEntries {bs : List Byte} {count p q : Nat} {tab codes : CodeMap}
    (htab : ListsCodeMap tab) (h : parseEntries bs count p tab = .ok (codes, q)) :
    ListsCodeMap codes := by
  induction count generalizing p tab with
  | zero => cases h; exact htab
  | succ count ih =>
    simp only [parseEntries] at h
    split at h
    · cases h
    split at h
    · cases h
    rename_i hlen
    split at h
    · cases h
    split at h
    · cases h
    rename_i hsym
    split at h
    · cases h
    rename_i hclash
    refine ih (htab.append_entry ?_ hsym hclash) h
    rw [length_unpackBits]
    omega

/-- The code table UNPACK accepts is a code map (R124, R125). -/
theorem listsCodeMap_of_parseContainer {bs : List Byte} {codes : CodeMap} {p : Nat}
    (h : parseContainer bs = .ok (codes, p)) : ListsCodeMap codes := by
  simp only [parseContainer] at h
  split at h
  · cases h
  split at h
  · cases h
  exact listsCodeMap_of_parseEntries ⟨by simp, List.Pairwise.nil⟩ h

/-- The code table UNPACK writes meets R15. -/
theorem codeInv_writeUnpacked {codes : CodeMap} (s : State) (payload : List Byte)
    (h : ListsCodeMap codes) : CodeInv (writeUnpacked s codes payload) :=
  codeInv_of_prefixFree (writeUnpacked_clen s codes payload) (writeUnpacked_cbits s codes payload)
    (fun e he => (h.1 e he).2) (h.2.imp And.right)

/-! ### The invariant -/

/-- R15 speaks of `CLEN` and `CBITS` alone. -/
theorem codeInv_congr {s t : State} (hl : t.clen = s.clen) (hb : t.cbits = s.cbits)
    (h : CodeInv s) : CodeInv t := by
  rw [CodeInv, codeOf_congr hl hb, hl, hb]
  exact h

/-- Every command keeps the invariants of the code table. -/
theorem exec_keeps_codeInv {i : Instr} {s t : State} (hinv : CodeInv s)
    (h : exec i s = .next t) : CodeInv t := by
  obtain ⟨u, hend, hu⟩ := exec_result h
  have hcode : CodeInv u := by
    rcases hu with rfl | hu
    · exact hinv
    · cases hu with
      | build => exact codeInv_writeBuild s
      | unpack hp => exact codeInv_writeUnpacked s _ (listsCodeMap_of_parseContainer hp)
      | count | encode | decode | pack => exact codeInv_congr rfl rfl hinv
  rw [hend.eq_except_status]
  exact codeInv_congr rfl rfl hcode

/-- Settles O56: BUILD and UNPACK write tables that meet R15 from whatever state, a reset clears the
table, and every other case of a step keeps it. -/
theorem stepKeepsTheCodeTable : Obligations.StepKeepsTheCodeTable := by
  intro s t hinv h
  cases step_cases h with
  | data hk => exact codeInv_congr hk.clen hk.cbits hinv
  | command v rest i hs hd hr =>
    exact exec_keeps_codeInv (s := { s with script := rest, cmd := v.setWidth 8 })
      (codeInv_congr rfl rfl hinv) hr
  | illegal v rest op hs ht => subst ht; exact codeInv_congr rfl rfl hinv
  | clear v rest hs ht => subst ht; exact codeInv_congr rfl rfl hinv
  | softReset v rest hs hv ht => subst ht; exact codeInv_of_zero rfl rfl
  | hardReset rest hs ht => subst ht; exact codeInv_of_zero rfl rfl

end Sys2Proof.Machine
end

section
/-!
PROOFS. Host accesses: the element a bank and an index name, and what an access to it does
(spec/20_memory.md R40, R41, R46, R47; spec/44_host_access.md R140).
-/

namespace Sys2Proof.Machine

open Sys2Proof

/-! ### Which element an access names -/

/-- The symbol of an index below 256 is the one of that number (R40). -/
@[simp] theorem symbolAt_toNat (x : Byte) : symbolAt x.toNat = some x := by
  simp [symbolAt, x.isLt]

theorem symbolAt_eq_none {index : Nat} (h : 256 ≤ index) : symbolAt index = none :=
  if_neg (Nat.not_lt.2 h)

theorem byteAt_of_lt {c : Config} {b : Buffer} {a : Nat} (h : a < c.capacity b) :
    byteAt c b a = some (.byte b a) := if_pos h

theorem byteAt_eq_none {c : Config} {b : Buffer} {a : Nat} (h : c.capacity b ≤ a) :
    byteAt c b a = none := if_neg (Nat.not_lt.2 h)

theorem scalarAt_eq_none {index : Nat} (h : 0x0A ≤ index) : scalarAt index = none := by
  obtain ⟨n, rfl⟩ := Nat.exists_eq_add_of_le' h
  rfl

/-- Where R47 says that there is no element, an access names none. -/
theorem locate_eq_none {c : Config} {bank index : Nat}
    (h : (bank = 0 ∧ 0x0A ≤ index) ∨ (bank ∈ [1, 2, 3] ∧ 256 ≤ index) ∨
      (bank = 4 ∧ 511 ≤ index) ∨ (bank = 5 ∧ c.ibufBytes ≤ index) ∨
      (bank = 6 ∧ c.bbufBytes ≤ index) ∨ (bank = 7 ∧ c.obufBytes ≤ index) ∨ 8 ≤ bank) :
    locate c bank index = none := by
  rcases h with ⟨rfl, h⟩ | ⟨hb, h⟩ | ⟨rfl, h⟩ | ⟨rfl, h⟩ | ⟨rfl, h⟩ | ⟨rfl, h⟩ | h
  · simp [locate, scalarAt_eq_none h]
  · have hs := symbolAt_eq_none h
    simp only [List.mem_cons, List.not_mem_nil, or_false] at hb
    rcases hb with rfl | rfl | rfl <;> simp [locate, hs]
  · exact if_neg (Nat.not_lt.2 h)
  · exact byteAt_eq_none (b := .ibuf) h
  · exact byteAt_eq_none (b := .bbuf) h
  · exact byteAt_eq_none (b := .obuf) h
  · obtain ⟨n, rfl⟩ := Nat.exists_eq_add_of_le' h
    rfl

/-- An access names a byte of a buffer only below the buffer's capacity (R40). -/
theorem lt_capacity_of_locate {c : Config} {bank index a : Nat} {b : Buffer}
    (h : locate c bank index = some (.byte b a)) : a < c.capacity b := by
  have inRange : ∀ {b'}, byteAt c b' index = some (.byte b a) → a < c.capacity b := by
    intro b' hb
    simp only [byteAt, Option.ite_none_right_eq_some, Option.some.injEq, Location.byte.injEq] at hb
    obtain ⟨hlt, rfl, rfl⟩ := hb
    exact hlt
  unfold locate at h
  split at h
  case h_5 => split at h <;> cases h
  case h_6 | h_7 | h_8 => exact inRange h
  case h_9 => cases h
  all_goals simp at h

/-! ### Reads -/

/-- A host read of an element that is there returns its value (R140). -/
theorem hostRead_of_locate {s : State} {bank index : Nat} {l : Location}
    (h : locate s.config bank index = some l) : hostRead s bank index = readLocation s l := by
  simp [hostRead, h]

/-- The 10 bits of `NODE_CNT` hold every number of nodes the arena can have (R13). -/
theorem toNat_hostRead_nodeCnt {s : State} (h : s.nodes.length ≤ 511) :
    (hostRead s 0 0x09).toNat = s.nodes.length := by
  rw [hostRead_of_locate (l := .scalar .nodeCnt) rfl]
  simp only [readLocation, readScalar, nodeCount, BitVec.toNat_setWidth, BitVec.toNat_ofNat]
  omega

/-- A read of a register file returns the register of the symbol (R40). -/
theorem hostRead_symbol (s : State) (x : Byte) :
    hostRead s 1 x.toNat = (symGet s.freq x).setWidth 256 ∧
    hostRead s 2 x.toNat = (symGet s.clen x).setWidth 256 ∧
    hostRead s 3 x.toNat = symGet s.cbits x :=
  ⟨hostRead_of_locate (l := .freq x) (by simp [locate]),
    hostRead_of_locate (l := .clen x) (by simp [locate]),
    hostRead_of_locate (l := .cbits x) (by simp [locate])⟩

/-- Settles O12: the element each bank and index names, and `readLocation` of it. -/
theorem hostReadReturnsTheElement : Obligations.HostReadReturnsTheElement := by
  intro s
  refine ⟨rfl, rfl, rfl, rfl, rfl, rfl, rfl, rfl, rfl, toNat_hostRead_nodeCnt, hostRead_symbol s,
    fun a ha => ?_, fun a ha => ?_, fun a ha => ?_⟩
  · exact hostRead_of_locate (bank := 5) (byteAt_of_lt (b := .ibuf) ha)
  · exact hostRead_of_locate (bank := 6) (byteAt_of_lt (b := .bbuf) ha)
  · exact hostRead_of_locate (bank := 7) (byteAt_of_lt (b := .obuf) ha)

/-- Settles O11: the step performs the read, which changes the script and the replies alone. -/
theorem hostReadHasNoSideEffect : Obligations.HostReadHasNoSideEffect := by
  intro s bank index rest hscript
  exact step_of_script hscript

/-! ### Accesses where no element is -/

/-- Settles O16: such an access names no element, so the read returns 0 and the write is ignored. -/
theorem unassignedAccessReadsZero : Obligations.UnassignedAccessReadsZero := by
  intro s bank index v rest hrange
  have hnone : locate s.config bank index = none := locate_eq_none hrange
  refine ⟨fun hscript => ?_, fun hscript => ?_⟩
  · rw [hostReadHasNoSideEffect s bank index rest hscript, hostRead_of_unassigned hnone]
  · rw [step_of_script hscript]
    exact hostWrite_of_unassigned (s := { s with script := rest }) hnone v

end Sys2Proof.Machine
end

section
/-!
PROOFS. What a command stores (spec/20_memory.md R46, R48, R55), named as data, `Result`, apart from
the state it is written to: it fits its destination, it depends on the command's sources alone, and
storing it again changes nothing.
-/

namespace Sys2Proof.Machine

open Sys2Proof

/-! ### The bytes beyond a result -/

/-- A write from index 0 on leaves the bytes beyond those written as they were. -/
theorem sameFrom_writeBytes (s : State) (b : Buffer) (bs : List Byte) :
    SameFrom b bs.length s (writeBytes s b 0 bs) := by
  intro a ha
  rw [readByte_writeBytes, if_neg (by omega)]

/-- The end of a command touches no buffer (R158). -/
theorem EndsOn.bufferOf_eq {u t : State} (h : EndsOn u t) (b : Buffer) :
    bufferOf t b = bufferOf u b := by
  rw [h.eq_except_status]
  cases b <;> rfl

/-- A command keeps those bytes of a buffer that its result keeps. -/
theorem SameFrom.of_exec {i : Instr} {s t : State} {b : Buffer} {n : Nat}
    (h : exec i s = .next t) (hw : ∀ u, WritesResult i s u → SameFrom b n s u) :
    SameFrom b n s t := by
  have hd : t.bufDraw = s.bufDraw := (exec_frame h).bufDraw
  obtain ⟨u, hend, rfl | hu⟩ := exec_result h
  · exact fun a _ => readByte_congr (hend.bufferOf_eq b) hd a
  · intro a ha
    rw [readByte_congr (hend.bufferOf_eq b) (hd.trans hu.frame.bufDraw.symm), hw u hu a ha]

/-- Settles O50: each result is a write from index 0 on. -/
theorem storingCommandsKeepTheBytesBeyond : Obligations.StoringCommandsKeepTheBytesBeyond := by
  intro s t
  refine ⟨fun h => .of_exec h fun u hu => ?encode, fun h => .of_exec h fun u hu => ?decode,
    fun h => .of_exec h fun u hu => ?pack, fun h =>
      ⟨fun codes p hp => .of_exec h fun u hu => ?unpack,
        fun e he => .of_exec h fun u hu => ?refused⟩⟩
  case encode => cases hu; exact sameFrom_writeBytes s .bbuf _
  case decode => cases hu; exact sameFrom_writeBytes s .obuf _
  case pack => cases hu; exact sameFrom_writeBytes s .obuf _
  case unpack =>
    cases hu with
    | unpack parsed =>
      cases parsed.symm.trans hp
      exact sameFrom_writeBytes s .bbuf _
  case refused =>
    cases hu with
    | unpack parsed => cases parsed.symm.trans he

/-! ### Results and endings as data -/

/-- What a command stores, apart from the state it is written to. -/
inductive Result where
  /-- A check failed: nothing is stored. -/
  | nothing
  /-- COUNT's counters (R87). -/
  | counters (freq : Vector Word64 256)
  /-- BUILD's tree and code table, made from the counters (R97). -/
  | tree (freq : Vector Word64 256)
  /-- ENCODE's bits (R106). -/
  | bits (b : Bits)
  /-- The output bytes of DECODE and PACK (R110, R121). -/
  | output (bs : List Byte)
  /-- UNPACK's code table and payload (R126). -/
  | unpacked (codes : CodeMap) (payload : List Byte)

/-- The state with a result stored. -/
@[simp] def Result.write : Result → State → State
  | .nothing, s => s
  | .counters freq, s => { s with freq := freq }
  | .tree freq, s =>
    writeTree (writeCodes s (buildCodes (keys freq) (buildTree freq))) (buildTree freq)
  | .bits b, s => writeEncoded s b
  | .output bs, s => writeOutput s bs
  | .unpacked codes payload, s => writeUnpacked s codes payload

/-- The bytes of a result lie inside its destination buffer (R48). -/
def Result.Fits (c : Config) : Result → Prop
  | .bits b => (packBits b).length ≤ c.bbufBytes
  | .output bs => bs.length ≤ c.obufBytes
  | .unpacked _ payload => payload.length ≤ c.bbufBytes
  | _ => True

/-- How a command ends (R158): by a report or by `finish OK`. -/
@[simp] def endWith : Option CmdError → State → State
  | some e => report e
  | none => finishOk

/-- `HasEffect i s r e`: run in `s`, the command `i` stores `r`, which fits its destination, and
ends with `e`; and so it does in every state that differs from `s` by its own results alone. -/
def HasEffect (i : Instr) (s : State) (r : Result) (e : Option CmdError) : Prop :=
  r.Fits s.config ∧ ∀ t, CommandFrame i s t → exec i t = .next (endWith e (r.write t))

/-! ### No command writes its own sources (R33) -/

theorem CommandFrame.refl (i : Instr) (s : State) : CommandFrame i s s := by
  constructor <;> simp

section Sources

variable {i : Instr} {s t : State} (hf : CommandFrame i s t)

include hf

theorem CommandFrame.inputTooLong_eq : inputTooLong t = inputTooLong s := by
  rw [inputTooLong, inputTooLong, hf.config, hf.inLen]

theorem CommandFrame.inputTooLongError_eq : inputTooLongError t = inputTooLongError s := by
  rw [inputTooLongError, inputTooLongError, hf.inLen]

theorem CommandFrame.inputBytes_eq : inputBytes t = inputBytes s :=
  inputBytes_congr hf.ibuf hf.inLen hf.bufDraw

theorem CommandFrame.codeOf_eq (hb : i ≠ .build) (hu : i ≠ .unpack) : codeOf t = codeOf s :=
  codeOf_congr (hf.codes hb hu).1 (hf.codes hb hu).2

theorem CommandFrame.codeMap_eq (hb : i ≠ .build) (hu : i ≠ .unpack) : codeMap t = codeMap s :=
  codeMap_congr (hf.codes hb hu).1 (hf.codes hb hu).2

theorem CommandFrame.encodedLength_eq (hb : i ≠ .build) (hu : i ≠ .unpack) (bs : List Byte)
    (k n : Nat) : encodedLength t bs k n = encodedLength s bs k n := by
  induction bs generalizing k n with
  | nil => rfl
  | cons x rest ih => simp only [encodedLength, (hf.codes hb hu).1, ih]

theorem CommandFrame.bitsTooLong_eq (he : i ≠ .encode) (hu : i ≠ .unpack) :
    bitsTooLong t = bitsTooLong s := by
  rw [bitsTooLong, bitsTooLong, hf.config, (hf.bits he hu).1]

theorem CommandFrame.bitsTooLongError_eq (he : i ≠ .encode) (hu : i ≠ .unpack) :
    bitsTooLongError t = bitsTooLongError s := by
  rw [bitsTooLongError, bitsTooLongError, (hf.bits he hu).1]

theorem CommandFrame.encodedBits_eq (he : i ≠ .encode) (hu : i ≠ .unpack) :
    encodedBits t = encodedBits s :=
  encodedBits_congr (hf.bits he hu).2 (hf.bits he hu).1 hf.bufDraw

theorem CommandFrame.containerSize_eq (hb : i ≠ .build) (he : i ≠ .encode) (hu : i ≠ .unpack) :
    containerSize t = containerSize s := by
  rw [containerSize, containerSize, codeDomain, codeDomain, (hf.codes hb hu).1, (hf.bits he hu).1]

end Sources

/-! ### What each command stores -/

/-- ENCODE's check pass counts the bits of the whole encoding (R106). -/
theorem length_encodeBytes_of_encodedLength {s : State} {bs : List Byte} {k n total : Nat}
    (h : encodedLength s bs k n = .ok total) :
    n + (encodeBytes (codeOf s) bs).length = total := by
  induction bs generalizing k n with
  | nil => exact Except.ok.inj h
  | cons x rest ih =>
    simp only [encodedLength] at h
    split at h
    · cases h
    · rw [← ih h, encodeBytes, List.flatMap_cons, List.length_append, length_codeOf, Nat.add_assoc]
      rfl

@[simp] theorem length_packEntry (e : Byte × Bits) :
    (packEntry e).length = 9 + ceil8 e.2.length := by
  simp only [packEntry, List.length_cons, List.length_append, length_bytesOfNat64, length_packBits]
  omega

/-- R75: the size PACK checks is that of the container it writes. -/
theorem length_packContainer_eq_containerSize (s : State) :
    (packContainer (codeMap s) (encodedBits s)).length = containerSize s := by
  simp [packContainer, containerSize, codeMap, List.length_flatMap, Function.comp_def,
    Nat.add_assoc]

/-- COUNT reads the input alone (R87). -/
theorem hasEffect_count (s : State) : ∃ r e, HasEffect .count s r e := by
  by_cases hlong : inputTooLong s
  · exact ⟨.nothing, some (inputTooLongError s), trivial, fun t hf => by
      simp [exec, execCount, hf.inputTooLong_eq, hf.inputTooLongError_eq, hlong]⟩
  · exact ⟨.counters (countBytes (inputBytes s)), none, trivial, fun t hf => by
      simp [exec, execCount, hf.inputTooLong_eq, hf.inputBytes_eq, hlong]⟩

/-- BUILD reads the counters alone (R97). -/
theorem hasEffect_build (s : State) : ∃ r e, HasEffect .build s r e := by
  by_cases hkeys : (keys s.freq).isEmpty
  · exact ⟨.tree s.freq, some .emptyInput, trivial, fun t hf => by
      simp [exec, execBuild, writeBuild, hf.freq, hkeys]⟩
  · exact ⟨.tree s.freq, none, trivial, fun t hf => by
      simp [exec, execBuild, writeBuild, hf.freq, hkeys]⟩

/-- ENCODE reads the input and the code table (R106). -/
theorem hasEffect_encode (s : State) : ∃ r e, HasEffect .encode s r e := by
  by_cases hlong : inputTooLong s
  · exact ⟨.nothing, some (inputTooLongError s), trivial, fun t hf => by
      simp [exec, execEncode, hf.inputTooLong_eq, hf.inputTooLongError_eq, hlong]⟩
  cases hlen : encodedLength s (inputBytes s) 0 0 with
  | error e =>
    exact ⟨.nothing, some e, trivial, fun t hf => by
      simp [exec, execEncode, hf.inputTooLong_eq, hf.inputBytes_eq, hf.encodedLength_eq, hlong,
        hlen]⟩
  | ok total =>
    have htotal := length_encodeBytes_of_encodedLength hlen
    by_cases hfull : 8 * s.config.bbufBytes < total
    · exact ⟨.nothing, some (.capacity total .bitBufferFull), trivial, fun t hf => by
        simp [exec, execEncode, hf.inputTooLong_eq, hf.inputBytes_eq, hf.encodedLength_eq, hlong,
          hlen, hf.config, hfull]⟩
    · refine ⟨.bits (encodeBytes (codeOf s) (inputBytes s)), none, ?_, fun t hf => by
        simp [exec, execEncode, hf.inputTooLong_eq, hf.inputBytes_eq, hf.encodedLength_eq,
          hf.codeOf_eq, hlong, hlen, hf.config, hfull]⟩
      rw [Result.Fits, length_packBits, ceil8_le_iff]
      omega

/-- DECODE reads the bits and the code table (R110). -/
theorem hasEffect_decode (s : State) : ∃ r e, HasEffect .decode s r e := by
  by_cases hlong : bitsTooLong s
  · exact ⟨.nothing, some (bitsTooLongError s), trivial, fun t hf => by
      simp [exec, execDecode, hf.bitsTooLong_eq, hf.bitsTooLongError_eq, hlong]⟩
  generalize hscan : decodeBits (codeMap s) (encodedBits s) = r
  by_cases hfull : s.config.obufBytes < r.out.length
  · exact ⟨.nothing, some (.capacity r.out.length .outputFull), trivial, fun t hf => by
      simp [exec, execDecode, hf.bitsTooLong_eq, hf.codeMap_eq, hf.encodedBits_eq, hlong, hscan,
        hf.config, hfull]⟩
  by_cases hcand : r.cand.isEmpty
  · exact ⟨.output r.out, none, Nat.le_of_not_lt hfull, fun t hf => by
      simp [exec, execDecode, hf.bitsTooLong_eq, hf.codeMap_eq, hf.encodedBits_eq, hlong, hscan,
        hf.config, hfull, hcand]⟩
  · exact ⟨.output r.out, some (.ambiguousTrailingBits r.start), Nat.le_of_not_lt hfull,
      fun t hf => by
        simp [exec, execDecode, hf.bitsTooLong_eq, hf.codeMap_eq, hf.encodedBits_eq, hlong, hscan,
          hf.config, hfull, hcand]⟩

/-- PACK reads the bits and the code table (R121). -/
theorem hasEffect_pack (s : State) : ∃ r e, HasEffect .pack s r e := by
  by_cases hlong : bitsTooLong s
  · exact ⟨.nothing, some (bitsTooLongError s), trivial, fun t hf => by
      simp [exec, execPack, hf.bitsTooLong_eq, hf.bitsTooLongError_eq, hlong]⟩
  by_cases hfull : s.config.obufBytes < containerSize s
  · exact ⟨.nothing, some (.capacity (containerSize s) .outputFull), trivial, fun t hf => by
      simp [exec, execPack, hf.bitsTooLong_eq, hf.containerSize_eq, hlong, hf.config, hfull]⟩
  · refine ⟨.output (packContainer (codeMap s) (encodedBits s)), none, ?_, fun t hf => by
      simp [exec, execPack, hf.bitsTooLong_eq, hf.containerSize_eq, hf.codeMap_eq,
        hf.encodedBits_eq, hlong, hf.config, hfull]⟩
    rw [Result.Fits, length_packContainer_eq_containerSize]
    omega

/-- UNPACK reads the input alone (R126). -/
theorem hasEffect_unpack (s : State) : ∃ r e, HasEffect .unpack s r e := by
  by_cases hlong : inputTooLong s
  · exact ⟨.nothing, some (inputTooLongError s), trivial, fun t hf => by
      simp [exec, execUnpack, hf.inputTooLong_eq, hf.inputTooLongError_eq, hlong]⟩
  cases hparse : parseContainer (inputBytes s) with
  | error e =>
    exact ⟨.nothing, some e, trivial, fun t hf => by
      simp [exec, execUnpack, hf.inputTooLong_eq, hf.inputBytes_eq, hlong, hparse]⟩
  | ok parsed =>
    obtain ⟨codes, p⟩ := parsed
    by_cases hfull : s.config.bbufBytes < ((inputBytes s).drop p).length
    · let e := CmdError.capacity (8 * ((inputBytes s).drop p).length) .bitBufferFull
      exact ⟨.nothing, some e, trivial, fun t hf => by
        simp [exec, execUnpack, hf.inputTooLong_eq, hf.inputBytes_eq, hlong, hparse, hf.config,
          hfull, e, -List.length_drop]⟩
    · exact ⟨.unpacked codes ((inputBytes s).drop p), none, Nat.le_of_not_lt hfull, fun t hf => by
        simp [exec, execUnpack, hf.inputTooLong_eq, hf.inputBytes_eq, hlong, hparse, hf.config,
          hfull, -List.length_drop]⟩

/-- What every command stores fits its destination and depends on its sources alone. -/
theorem exists_hasEffect (i : Instr) (s : State) : ∃ r e, HasEffect i s r e := by
  cases i with
  | count => exact hasEffect_count s
  | build => exact hasEffect_build s
  | encode => exact hasEffect_encode s
  | decode => exact hasEffect_decode s
  | pack => exact hasEffect_pack s
  | unpack => exact hasEffect_unpack s

theorem HasEffect.exec_eq {i : Instr} {s : State} {r : Result} {e : Option CmdError}
    (h : HasEffect i s r e) : exec i s = .next (endWith e (r.write s)) :=
  h.2 s (.refl i s)

/-! ### A command run again -/

/-- Writing the same bytes again changes nothing in canonical form. -/
theorem Memory.write_write {m : Memory} (a : Nat) (bs : List Byte) (h : m.wf) :
    (m.write a bs).write a bs = m.write a bs := by
  refine Memory.eq_of_get?_eq (Memory.wf_write a bs (Memory.wf_write a bs h))
    (Memory.wf_write a bs h) fun b => ?_
  simp only [Memory.get?_write]
  split <;> rfl

/-- `MemWrite` of the same bytes again changes nothing in canonical form. -/
theorem writeBytes_writeBytes {s : State} {b : Buffer} (a : Nat) (bs : List Byte)
    (h : (bufferOf s b).wf) : writeBytes (writeBytes s b a bs) b a bs = writeBytes s b a bs := by
  have hm : (bufferOf (writeBytes s b a bs) b).write a bs = (bufferOf s b).write a bs := by
    rw [writeBytes, bufferOf_withBuffer, if_pos rfl, Memory.write_write a bs h]
  rw [writeBytes, hm]
  cases b <;> rfl

/-- Setting a sticky bit again changes nothing (R21). -/
theorem stickySet_stickySet (e : Byte) (code : BitVec 3) :
    stickySet (stickySet e code) code = stickySet e code := by
  simp only [stickySet, BitVec.or_assoc, BitVec.or_self]

theorem endWith_endWith (e : Option CmdError) (s : State) :
    endWith e (endWith e s) = endWith e s := by
  cases e with
  | none => rfl
  | some e => simp only [endWith, report, stickySet_stickySet]

/-- The result and the ending of a command are written to different registers (R158). -/
theorem Result.write_endWith (r : Result) (e : Option CmdError) (s : State) :
    r.write (endWith e s) = endWith e (r.write s) := by
  cases r <;> cases e <;> rfl

/-- Storing a result again changes nothing but BUILD's draw of free node slots (log entry 9). -/
theorem Result.write_write (r : Result) {s : State} (hinv : BufferInv s) :
    r.write (r.write s) = { r.write s with nodeDraw := (r.write (r.write s)).nodeDraw } := by
  cases r with
  | nothing | counters | tree => rfl
  | bits b =>
    have hw := writeBytes_writeBytes 0 (packBits b) (hinv .bbuf).1
    exact congrArg (fun u : State => { u with bitLen := BitVec.ofNat 64 b.length }) hw
  | output bs =>
    have hw := writeBytes_writeBytes 0 bs (hinv .obuf).1
    exact congrArg (fun u : State => { u with outLen := BitVec.ofNat 64 bs.length }) hw
  | unpacked codes payload =>
    have hw := writeBytes_writeBytes (s := writeCodes s codes) (b := .bbuf) 0 payload (hinv .bbuf).1
    exact congrArg (fun u : State => { u with bitLen := BitVec.ofNat 64 (8 * payload.length) }) hw

/-- BUILD alone takes a new draw of free node slots (log entry 9). -/
theorem exec_nodeDraw {i : Instr} {s t : State} (h : exec i s = .next t) :
    t.nodeDraw = if i = .build then s.nodeDraw + 1 else s.nodeDraw := by
  by_cases hi : i = .build
  · subst hi
    rcases execBuild_cases s with ⟨-, hr⟩ | ⟨-, hr⟩ <;> cases hr.symm.trans h <;> rfl
  · rw [if_neg hi]
    exact ((exec_frame h).tree hi).2

/-- Settles O52: the first run keeps the command's sources, so the second stores the same result and
ends the same way. -/
theorem commandsAreIdempotent : Obligations.CommandsAreIdempotent := by
  intro i s t hinv h
  obtain ⟨r, e, heff⟩ := exists_hasEffect i s
  have ht : t = endWith e (r.write s) := Host.Outcome.next.inj (h.symm.trans heff.exec_eq)
  have hagain : exec i t = .next (endWith e (r.write t)) := heff.2 t (exec_frame h)
  have hsame : endWith e (r.write t) = { t with nodeDraw := (endWith e (r.write t)).nodeDraw } := by
    have hw := congrArg (endWith e) (r.write_write hinv)
    rw [ht, r.write_endWith, endWith_endWith, hw]
    cases e <;> rfl
  rw [hagain, hsame, exec_nodeDraw hagain]

end Sys2Proof.Machine
end

section
/-!
PROOFS. Every step keeps the buffers inside their capacities (spec/20_memory.md R48).
-/

namespace Sys2Proof.Machine

open Sys2Proof

/-- The invariant speaks of the buffers and the capacities alone. -/
theorem bufferInv_congr {s t : State} (hinv : BufferInv s) (hc : t.config = s.config)
    (hi : t.ibuf = s.ibuf) (hb : t.bbuf = s.bbuf) (ho : t.obuf = s.obuf) : BufferInv t := by
  intro b
  have hbuf : bufferOf t b = bufferOf s b := by cases b <;> assumption
  rw [hbuf, hc]
  exact hinv b

/-- A write inside the capacity keeps the invariant. -/
theorem bufferInv_writeBytes {s : State} (hinv : BufferInv s) {b : Buffer} {a : Nat}
    {bs : List Byte} (h : a + bs.length ≤ s.config.capacity b) :
    BufferInv (writeBytes s b a bs) := by
  intro c
  rw [writeBytes, bufferOf_withBuffer, withBuffer_config]
  by_cases hc : c = b
  · subst hc
    rw [if_pos rfl]
    refine ⟨Memory.wf_write a bs (hinv c).1, fun e he => ?_⟩
    rcases Memory.mem_write he with hnew | hold
    · exact Nat.lt_of_lt_of_le hnew.2 h
    · exact (hinv c).2 e hold
  · rw [if_neg hc]
    exact hinv c

theorem bufferInv_endWith {s : State} (e : Option CmdError) (hinv : BufferInv s) :
    BufferInv (endWith e s) := by
  cases e <;> exact bufferInv_congr hinv rfl rfl rfl rfl

/-- Storing a result that fits keeps the invariant (R48). -/
theorem Result.Fits.bufferInv_write {s : State} {r : Result} (hfits : r.Fits s.config)
    (hinv : BufferInv s) : BufferInv (r.write s) := by
  cases r with
  | nothing => exact hinv
  | counters | tree => exact bufferInv_congr hinv rfl rfl rfl rfl
  | bits b =>
    have hw := bufferInv_writeBytes (b := .bbuf) (a := 0) hinv ((Nat.zero_add _).le.trans hfits)
    exact bufferInv_congr hw rfl rfl rfl rfl
  | output bs =>
    have hw := bufferInv_writeBytes (b := .obuf) (a := 0) hinv ((Nat.zero_add _).le.trans hfits)
    exact bufferInv_congr hw rfl rfl rfl rfl
  | unpacked codes payload =>
    have hw := bufferInv_writeBytes (b := .bbuf) (a := 0) hinv ((Nat.zero_add _).le.trans hfits)
    exact bufferInv_congr hw rfl rfl rfl rfl

/-- No command writes outside a buffer (R48). -/
theorem exec_keeps_bufferInv {i : Instr} {s t : State} (hinv : BufferInv s)
    (h : exec i s = .next t) : BufferInv t := by
  obtain ⟨r, e, heff⟩ := exists_hasEffect i s
  cases heff.exec_eq.symm.trans h
  exact bufferInv_endWith e (heff.1.bufferInv_write hinv)

/-- A hardware reset leaves nothing listed (R52). -/
theorem bufferInv_hardReset (s : State) : BufferInv (hardReset s) := fun b => by
  cases b <;> exact ⟨Memory.wf_nil, fun _ he => absurd he List.not_mem_nil⟩

/-- No register write, with the command it may start, writes outside a buffer. -/
theorem writeScalar_keeps_bufferInv {r : ScalarReg} {v : HostWord} {s t : State}
    (hinv : BufferInv s) (h : writeScalar r v s = .next t) : BufferInv t := by
  cases r with
  | cmd =>
    rcases startCommand_cases (v.setWidth 8) s with ⟨i, -, hr⟩ | ⟨op, -, hr⟩
    · exact exec_keeps_bufferInv (s := { s with cmd := v.setWidth 8 })
        (bufferInv_congr hinv rfl rfl rfl rfl) (hr.symm.trans h)
    · cases hr.symm.trans h
      exact bufferInv_congr hinv rfl rfl rfl rfl
  | ctrl =>
    cases h
    unfold writeCtrl
    split
    · exact bufferInv_congr hinv rfl rfl rfl rfl
    · exact hinv
  | esticky | inLen | bitLen | status | errPos | errAux | outLen | nodeCnt =>
    cases h
    exact bufferInv_congr hinv rfl rfl rfl rfl

/-- No host write stores outside a buffer: a byte is named below its buffer's capacity (R40). -/
theorem hostWrite_keeps_bufferInv {bank index : Nat} {v : HostWord} {s t : State}
    (hinv : BufferInv s) (h : hostWrite bank index v s = .next t) : BufferInv t := by
  cases hl : locate s.config bank index with
  | none =>
    cases (hostWrite_of_unassigned hl v).symm.trans h
    exact hinv
  | some l =>
    rw [hostWrite_of_locate hl] at h
    cases l with
    | scalar r => exact writeScalar_keeps_bufferInv hinv h
    | freq x => cases h; exact bufferInv_congr hinv rfl rfl rfl rfl
    | clen x | cbits x | node k => cases h; exact hinv
    | byte b a =>
      have ha : a < s.config.capacity b := lt_capacity_of_locate hl
      cases b with
      | ibuf | bbuf => cases h; exact bufferInv_writeBytes hinv ha
      | obuf => cases h; exact hinv

/-- Settles O58: a command stores a result that fits, the host writes at indices below the capacity,
and a hardware reset leaves no byte listed. -/
theorem stepKeepsTheBuffers : Obligations.StepKeepsTheBuffers := by
  intro s t hinv h
  cases hs : s.script with
  | nil =>
    cases (step_of_nextAction_none (nextAction_eq_none.2 hs)).symm.trans h
    exact hinv
  | cons a rest =>
    rw [step_of_script hs] at h
    have hnext : BufferInv { s with script := rest } := bufferInv_congr hinv rfl rfl rfl rfl
    cases a with
    | read bank index => cases h; exact bufferInv_congr hinv rfl rfl rfl rfl
    | write bank index v => exact hostWrite_keeps_bufferInv hnext h
    | hardReset => cases h; exact bufferInv_hardReset _

end Sys2Proof.Machine
end

section
/-!
PROOFS. The command word (spec/30_encoding.md R61 to R63): decoding and encoding agree both ways,
and a word that selects no command is reported (R155).
-/

namespace Sys2Proof.Machine

open Sys2Proof

theorem decode_encode (i : Instr) : decode (encode i) = .ok i := by cases i <;> rfl

/-- A word that decodes is the command's own code. -/
theorem encode_of_decode {w : Byte} {i : Instr} (h : decode w = .ok i) : encode i = w := by
  have hop : opField w = w := BitVec.extractLsb'_eq_self
  unfold decode at h
  rw [hop] at h
  split at h
  case h_7 => cases h
  all_goals
    rename_i hcode
    cases h
    exact BitVec.eq_of_toNat_eq hcode.symm

/-- Every word outside the six codes is refused by name (R63). -/
theorem decode_illegal {w : Byte} (hw : w.toNat = 0 ∨ 7 ≤ w.toNat) :
    decode w = .error (.illegalCommand w) := by
  cases h : decode w with
  | ok i =>
    rw [← encode_of_decode h] at hw
    cases i <;> simp [encode] at hw
  | error e =>
    unfold decode at h
    split at h
    case h_7 => exact h.symm
    all_goals cases h

/-- Settles O1: each word is the code of its command. -/
theorem commandCodesDecode : Obligations.CommandCodesDecode :=
  ⟨decode_encode .count, decode_encode .build, decode_encode .encode, decode_encode .decode,
    decode_encode .pack, decode_encode .unpack⟩

/-- Settles O2: the two directions and the refusals are the lemmas above. -/
theorem commandWordRoundTrip : Obligations.CommandWordRoundTrip :=
  ⟨decode_encode, fun _ _ => encode_of_decode, fun _ => decode_illegal⟩

/-- A `CMD` write of an illegal code stores it and reports it (R63, R155). -/
theorem startCommand_illegal {v : Byte} (hv : v.toNat = 0 ∨ 7 ≤ v.toNat) (s : State) :
    startCommand v s = .next (report (.illegalCommand v) { s with cmd := v }) := by
  rw [startCommand, decode_illegal hv]

/-- Settles O9: the step is the `CMD` write, and `report` writes the status registers alone. -/
theorem illegalCommandIsReported : Obligations.IllegalCommandIsReported := by
  intro s v rest hscript hv
  rw [step_of_script hscript]
  exact startCommand_illegal hv { s with script := rest }

end Sys2Proof.Machine
end

section
/-!
PROOFS. Bits, bytes and integers (spec/30_encoding.md R67 to R69, R81, R82). Bit sequences are read
by `getD` with `false` past the end, so that the zero padding needs no case of its own.
-/

namespace Sys2Proof.Machine

open Sys2Proof

/-- Padding a list with the default of `getD` changes no value `getD` returns. -/
theorem getD_append_replicate {α : Type} (l : List α) (m k : Nat) (d : α) :
    (l ++ List.replicate m d).getD k d = l.getD k d := by
  by_cases hk : k < l.length
  · exact List.getD_append _ _ _ _ hk
  · rw [List.getD_append_right _ _ _ _ (Nat.le_of_not_lt hk),
      List.getD_eq_default _ _ (Nat.le_of_not_lt hk)]
    simp only [List.getD_eq_getElem?_getD, List.getElem?_replicate]
    split <;> rfl

/-! ### Packing -/

/-- A bit sequence left-aligned in `w` bits: bit `j` of the integer, from the least significant, is
bit `w - 1 - j` of the sequence, and 0 past its end. -/
theorem testBit_natOfBits_leftAligned {c : Bits} {w j : Nat} (hc : c.length ≤ w) (hj : j < w) :
    (natOfBits c * 2 ^ (w - c.length)).testBit j = c.getD (w - 1 - j) false := by
  rw [Nat.testBit_mul_two_pow, testBit_natOfBits]
  by_cases hpad : w - c.length ≤ j
  · rw [decide_eq_true hpad, Bool.true_and, List.getD_reverse _ (by omega)]
    congr 1
    omega
  · rw [decide_eq_false hpad, Bool.false_and, List.getD_eq_default _ _ (by omega)]

theorem getLsbD_byteOfBits (b : Bits) {j : Nat} (hj : j < 8) :
    (byteOfBits b).getLsbD j = b.getD (7 - j) false := by
  rw [byteOfBits, BitVec.getLsbD_ofNat,
    testBit_natOfBits_leftAligned (List.length_take_le 8 b) hj, decide_eq_true hj, Bool.true_and]
  simp only [List.getD_eq_getElem?_getD]
  rw [List.getElem?_take_of_lt (by omega)]

/-- R67: the bits of a packed byte, and 0 for the bytes past the end. -/
theorem getLsbD_getD_packBits (b : Bits) (k : Nat) {j : Nat} (hj : j < 8) :
    ((packBits b).getD k 0).getLsbD j = b.getD (8 * k + (7 - j)) false := by
  by_cases hk : k < ceil8 b.length
  · have hbyte : (packBits b).getD k 0 = byteOfBits (b.drop (8 * k)) := by
      simp [packBits, List.getD_eq_getElem?_getD, hk]
    rw [hbyte, getLsbD_byteOfBits _ hj]
    simp [List.getD_eq_getElem?_getD]
  · have hend : b.length ≤ 8 * k := (ceil8_le_iff _ _).1 (Nat.le_of_not_lt hk)
    rw [List.getD_eq_default _ _ (by rw [length_packBits]; omega),
      List.getD_eq_default _ _ (by omega)]
    exact BitVec.getLsbD_zero

/-- The `w` low bits of an integer, most significant first, with their weights. -/
theorem sum_testBit_eq_mod (n w : Nat) :
    ((List.range w).map fun t => (n.testBit (w - 1 - t)).toNat * 2 ^ (w - 1 - t)).sum =
      n % 2 ^ w := by
  induction w with
  | zero => simp [Nat.mod_one]
  | succ w ih =>
    rw [List.range_succ_eq_map, List.map_cons, List.map_map, List.sum_cons, Nat.mod_pow_succ, ← ih,
      ← Nat.toNat_testBit, Nat.add_comm, Nat.mul_comm]
    simp only [Function.comp_def, Nat.succ_eq_add_one, Nat.add_sub_cancel, Nat.sub_zero,
      Nat.sub_sub, Nat.add_comm 1]

/-- Settles O4: a byte is the sum of its bits, and its bits are those of the sequence. -/
theorem packBitsMostSignificantFirst : Obligations.PackBitsMostSignificantFirst := by
  refine fun b => ⟨length_packBits b, fun k _ => ?_⟩
  have hsum := sum_testBit_eq_mod ((packBits b).getD k 0).toNat 8
  rw [Nat.mod_eq_of_lt (BitVec.isLt _)] at hsum
  rw [← hsum]
  refine congrArg List.sum (List.map_congr_left fun t ht => ?_)
  have ht8 : t < 8 := List.mem_range.1 ht
  have hbit := getLsbD_getD_packBits b k (j := 7 - t) (by omega)
  rw [show 7 - (7 - t) = t by omega] at hbit
  rw [← hbit]
  rfl

/-! ### Unpacking -/

/-- R43, R67: a packed sequence holds the sequence and then zero bits. -/
theorem bitOfBytes_packBits (b : Bits) (i : Nat) : bitOfBytes (packBits b) i = b.getD i false := by
  rw [bitOfBytes, getLsbD_getD_packBits b _ (by omega)]
  congr 1
  omega

/-- R68: bits unpacked past the end of a packed sequence are zero. -/
theorem unpackBits_packBits_add (b : Bits) (m : Nat) :
    unpackBits (packBits b) (b.length + m) = b ++ List.replicate m false := by
  refine List.ext_getElem (by simp) fun i _ hi => ?_
  rw [← List.getD_eq_getElem _ false hi, getD_append_replicate]
  simp only [unpackBits, List.getElem_map, List.getElem_range, bitOfBytes_packBits]

theorem unpackBits_packBits (b : Bits) : unpackBits (packBits b) b.length = b := by
  simpa using unpackBits_packBits_add b 0

/-- Settles O3: unpacking stops at the end of the bits, or at the end of the last byte. -/
theorem unpackBitsUndoesPackBits : Obligations.UnpackBitsUndoesPackBits := by
  refine ⟨unpackBits_packBits, fun b => ?_, fun bs n _ =>
    ⟨length_unpackBits bs n, getElem?_unpackBits bs n⟩⟩
  have hpad : 8 * ceil8 b.length = b.length + (8 - b.length % 8) % 8 := by unfold ceil8; omega
  rw [hpad, unpackBits_packBits_add]

/-! ### Integers -/

/-- The `n` low bytes of an integer, most significant first, spell it (R42). -/
theorem natOfBytes_bigEndian (n v : Nat) :
    natOfBytes ((List.range n).map fun k => BitVec.ofNat 8 (v / 2 ^ (8 * (n - 1 - k)))) =
      v % 2 ^ (8 * n) := by
  induction n generalizing v with
  | zero => simp [Nat.mod_one]
  | succ n ih =>
    have hinit : ∀ k ∈ List.range n,
        BitVec.ofNat 8 (v / 2 ^ (8 * (n + 1 - 1 - k))) =
          BitVec.ofNat 8 (v / 2 ^ 8 / 2 ^ (8 * (n - 1 - k))) := fun k hk => by
      have hk := List.mem_range.1 hk
      have hexp : 8 + 8 * (n - 1 - k) = 8 * (n + 1 - 1 - k) := by omega
      rw [Nat.div_div_eq_div_mul, ← pow_add, hexp]
    rw [List.range_succ, List.map_append, List.map_singleton, natOfBytes_append_singleton,
      List.map_congr_left hinit, ih, Nat.add_sub_cancel, Nat.sub_self, Nat.mul_zero, pow_zero,
      Nat.div_one, BitVec.toNat_ofNat, Nat.mul_succ, Nat.add_comm (8 * n), pow_add, Nat.mod_mul]
    exact Nat.add_comm _ _

/-- Settles O5: each byte is a quotient's remainder, and eight bytes hold every `v` below 2^64. -/
theorem bigEndianIntegers : Obligations.BigEndianIntegers := by
  refine fun v hv => ⟨length_bytesOfNat64 v, fun k hk => ?_, ?_⟩
  · simp [bytesOfNat64, List.getD_eq_getElem?_getD, hk]
  · exact (natOfBytes_bigEndian 8 v).trans (Nat.mod_eq_of_lt hv)

/-! ### The images of a code and of a node -/

/-- A register whose unused bits are 0 holds the bits of its code from the top and then zeros. -/
theorem getD_codeOf {s : State} (hinv : CodeInv s) (x : Byte) {i : Nat} (hi : i < 256) :
    (codeOf s x).getD i false = (symGet s.cbits x).getLsbD (255 - i) := by
  obtain ⟨-, -, hzero⟩ := hinv
  by_cases hlen : i < (symGet s.clen x).toNat
  · rw [List.getD_eq_getElem _ _ (by rwa [length_codeOf])]
    simp [codeOf, imageBits]
  · rw [List.getD_eq_default _ _ (by rw [length_codeOf]; omega), hzero x _ (by omega)]

/-- Settles O6: both sides have 32 bytes, and bit `j` of byte `k` is bit `8 * k + (7 - j)` of the
code. -/
theorem codeRegisterImage : Obligations.CodeRegisterImage := by
  intro s x hinv
  have hlen : ceil8 (symGet s.clen x).toNat ≤ 32 := by
    have := (symGet s.clen x).isLt
    rw [ceil8_le_iff]
    omega
  refine List.ext_getElem (by simp; omega) fun k hk hk' => BitVec.eq_of_getLsbD_eq fun j hj => ?_
  rw [List.length_map, List.length_range] at hk
  rw [← List.getD_eq_getElem _ 0 hk', getD_append_replicate, getLsbD_getD_packBits _ _ hj,
    getD_codeOf hinv x (by omega), List.getElem_map, List.getElem_range,
    BitVec.getLsbD_extractLsb', decide_eq_true hj, Bool.true_and]
  congr 1
  omega

/-- The fields of a node record in its own image (R82). -/
theorem extractLsb'_image (nd : Node) :
    nd.image.extractLsb' 98 1 = nd.kind.bit ∧ nd.image.extractLsb' 90 8 = nd.sym ∧
    nd.image.extractLsb' 18 72 = nd.freq ∧ nd.image.extractLsb' 9 9 = nd.left ∧
    nd.image.extractLsb' 0 9 = nd.right := by
  unfold Node.image
  refine ⟨?_, ?_, ?_, ?_, BitVec.extractLsb'_append_eq_right⟩
  · simp only [BitVec.extractLsb'_append_eq_of_le, Nat.reduceLeDiff, Nat.reduceSub, Nat.le_refl,
      BitVec.extractLsb'_eq_self]
  all_goals
    simp only [BitVec.extractLsb'_append_eq_of_le, Nat.reduceLeDiff, Nat.reduceSub, Nat.le_refl,
      BitVec.extractLsb'_append_eq_right]

/-- A read of a slot below `NODE_CNT` returns the record's image, zero-extended (log entry 13). -/
theorem hostRead_node {s : State} {h : Nat} {nd : Node} (hh : h < 511)
    (hnd : s.nodes[h]? = some nd) : hostRead s 4 h = nd.image.setWidth 256 := by
  have hloc : locate s.config 4 h = some (.node h) := if_pos hh
  rw [hostRead_of_locate hloc, readLocation, readNode, hnd]

/-- Settles O7: the zero extension moves no field. -/
theorem nodeRecordImage : Obligations.NodeRecordImage := by
  intro s h nd hh hnd
  obtain ⟨hkind, hsym, hfreq, hleft, hright⟩ := extractLsb'_image nd
  have hkeep {start len : Nat} (hle : start + len ≤ 256) :
      (nd.image.setWidth 256).extractLsb' start len = nd.image.extractLsb' start len :=
    BitVec.extractLsb'_setWidth_of_le hle
  rw [hostRead_node hh hnd]
  exact ⟨(hkeep (by decide)).trans hkind, (hkeep (by decide)).trans hsym,
    (hkeep (by decide)).trans hfreq, (hkeep (by decide)).trans hleft,
    (hkeep (by decide)).trans hright, by ext; simp⟩

end Sys2Proof.Machine
end

section
/-!
PROOFS. The compress flow on an empty input (spec/30_encoding.md R80), command by command.
-/

namespace Sys2Proof.Machine

open Sys2Proof

/-- A register file of zeros has no key. -/
theorem symbolsWith_eq_nil {w : Nat} {v : Vector (BitVec w) 256} (h : ∀ x, symGet v x = 0) :
    symbolsWith v = [] := by
  simp [symbolsWith_eq, h]

theorem inputBytes_eq_nil {s : State} (h : s.inLen = 0) : inputBytes s = [] :=
  List.eq_nil_of_length_eq_zero (by rw [length_inputBytes, h]; rfl)

/-- COUNT of an empty input clears every counter (R87). -/
theorem execCount_empty {s : State} (h : s.inLen = 0) :
    execCount s = .next (finishOk { s with freq := Vector.replicate 256 0 }) := by
  rcases execCount_cases s with ⟨hlong, -⟩ | ⟨-, hr⟩
  · simp [h] at hlong
  · rw [hr, inputBytes_eq_nil h]
    rfl

/-- BUILD of the empty map reports EmptyInput (R95). -/
theorem execBuild_empty {s : State} (h : keys s.freq = []) :
    execBuild s = .next (report .emptyInput (writeBuild s)) := by
  rcases execBuild_cases s with ⟨-, hr⟩ | ⟨hkeys, -⟩
  · exact hr
  · exact absurd h hkeys

/-- BUILD of the empty map leaves no code (R95). -/
theorem codeDomain_writeBuild_empty {s : State} (h : keys s.freq = []) :
    codeDomain (writeBuild s) = [] :=
  symbolsWith_eq_nil fun x => by simp [h, buildCodes, codeLength, lookupCode]

/-- ENCODE of an empty input stores no bit (R105). -/
theorem execEncode_empty {s : State} (h : s.inLen = 0) :
    execEncode s = .next (finishOk (writeEncoded s [])) := by
  have hlen : encodedLength s (inputBytes s) 0 0 = .ok 0 := by
    rw [inputBytes_eq_nil h]
    rfl
  rcases execEncode_cases s with
    ⟨hlong, -⟩ | ⟨-, e, he, -⟩ | ⟨-, n, hn, hfull, -⟩ | ⟨-, -, -, -, hr⟩
  · simp [h] at hlong
  · cases hlen.symm.trans he
  · cases hlen.symm.trans hn
    exact absurd hfull (Nat.not_lt_zero _)
  · rw [hr, inputBytes_eq_nil h]
    rfl

/-- PACK of no code and no bit writes the symbol count alone (R120). -/
theorem execPack_empty {s : State} (hcodes : codeDomain s = []) (hbits : s.bitLen = 0)
    (hcap : 8 ≤ s.config.obufBytes) :
    execPack s = .next (finishOk (writeOutput s [0, 0, 0, 0, 0, 0, 0, 0])) := by
  have hencoded : encodedBits s = [] :=
    List.eq_nil_of_length_eq_zero (by rw [length_encodedBits, hbits]; rfl)
  have hcontainer : packContainer [] [] = [0, 0, 0, 0, 0, 0, 0, 0] := by decide
  have hsize : containerSize s = 8 := by simp [containerSize, hcodes, hbits]
  rcases execPack_cases s with ⟨hlong, -⟩ | ⟨-, hfull, -⟩ | ⟨-, -, hr⟩
  · simp [hbits] at hlong
  · omega
  · rw [hr, codeMap, hcodes, hencoded, List.map_nil, hcontainer]

/-- The output bytes of a command that has just stored `bs` (R18). -/
theorem outputBytes_writeOutput {s : State} {bs : List Byte} (h : bs.length < 2 ^ 64) :
    outputBytes (writeOutput s bs) = bs := by
  rw [outputBytes, writeOutput_outLen, BitVec.toNat_ofNat, Nat.mod_eq_of_lt h]
  exact readBytes_writeBytes s .obuf 0 bs

/-- Settles O39: no counter, hence no code; no byte, hence no bit; the container is the symbol count
0 in eight bytes. -/
theorem compressOfTheEmptyInput : Obligations.CompressOfTheEmptyInput := by
  intro s hin hcap
  have hkeys : keys (Vector.replicate 256 0) = [] := symbolsWith_eq_nil (symGet_replicate 0)
  exact ⟨_, _, _, _, execCount_empty hin, execBuild_empty hkeys, execEncode_empty hin,
    execPack_empty (codeDomain_writeBuild_empty hkeys) rfl hcap, rfl, ⟨rfl, rfl, rfl⟩, rfl, rfl,
    rfl, outputBytes_writeOutput (by decide)⟩

end Sys2Proof.Machine
end

section
/-!
PROOFS. The Frequency Counter (spec/40_count.md R86 to R88). The counters of one COUNT are the
occurrence counts of the input, exactly: a length of 64 bits bounds every one of them. What R88 says
of the counters is then a fact about occurrence counts.
-/

namespace Sys2Proof.Machine

open Sys2Proof

/-! ### The counters -/

/-- R87: each occurrence of a byte increments its counter once, modulo 2^64. -/
theorem symGet_foldl_countByte (bs : List Byte) (freq : Vector Word64 256) (x : Byte) :
    symGet (bs.foldl countByte freq) x = symGet freq x + BitVec.ofNat 64 (bs.count x) := by
  induction bs generalizing freq with
  | nil => simp
  | cons y bs ih =>
    rw [List.foldl_cons, ih, countByte, symGet_symSet]
    by_cases hxy : x = y
    · subst hxy
      rw [if_pos rfl, List.count_cons_self, Nat.add_comm, BitVec.ofNat_add, ← BitVec.add_assoc]
      rfl
    · rw [if_neg hxy, List.count_cons_of_ne (Ne.symm hxy)]

/-- R86: no counter wraps where the length of the sequence fits 64 bits. -/
theorem toNat_symGet_countBytes {bs : List Byte} (hlen : bs.length < 2 ^ 64) (x : Byte) :
    (symGet (countBytes bs) x).toNat = bs.count x := by
  rw [countBytes, symGet_foldl_countByte, symGet_replicate, zero_add, BitVec.toNat_ofNat]
  exact Nat.mod_eq_of_lt (List.count_le_length.trans_lt hlen)

/-- `IN_LEN` is a 64-bit register, so the counters of the input are exact. -/
theorem toNat_symGet_countBytes_inputBytes (s : State) (x : Byte) :
    (symGet (countBytes (inputBytes s)) x).toNat = (inputBytes s).count x :=
  toNat_symGet_countBytes (by rw [length_inputBytes]; exact s.inLen.isLt) x

/-! ### The two ways the command ends -/

theorem exec_count_of_fits {s : State} (hfit : s.inLen.toNat ≤ s.config.ibufBytes) :
    exec .count s = .next (finishOk { s with freq := countBytes (inputBytes s) }) := by
  rcases execCount_cases s with ⟨hlong, -⟩ | ⟨-, hr⟩
  · exact absurd hlong (Nat.not_lt.2 hfit)
  · exact hr

theorem exec_count_of_tooLong {s : State} (hlong : s.config.ibufBytes < s.inLen.toNat) :
    exec .count s = .next (report (inputTooLongError s) s) := by
  rcases execCount_cases s with ⟨-, hr⟩ | ⟨hfit, -⟩
  · exact hr
  · exact absurd hlong (Nat.not_lt.2 hfit)

/-- `Capacity(IN_LEN, 1)` in the status registers: `ERR_POS` holds `IN_LEN` whole (R85, R150). -/
theorem report_inputTooLongError (s : State) :
    report (inputTooLongError s) s =
      { s with status := 6, errPos := s.inLen, errAux := 1, esticky := s.esticky ||| 0x40 } := by
  have hpos : (inputTooLongError s).pos = s.inLen := by
    rw [inputTooLongError, CmdError.pos, BitVec.ofNat_toNat, BitVec.setWidth_eq]
  rw [report, hpos]
  rfl

/-- Settles O21: the counters are the occurrence counts, and an input beyond `IBUF` is reported. -/
theorem countCountsTheInput : Obligations.CountCountsTheInput := by
  refine fun s => ⟨fun hfit => ?_, fun hlong => ?_⟩
  · exact ⟨_, exec_count_of_fits hfit, toNat_symGet_countBytes_inputBytes s⟩
  · rw [exec_count_of_tooLong hlong, report_inputTooLongError]

/-! ### What follows for the counters -/

/-- The counters after a COUNT whose input fits. -/
theorem freq_of_exec_count {s t : State} (h : exec .count s = .next t)
    (hfit : s.inLen.toNat ≤ s.config.ibufBytes) : t.freq = countBytes (inputBytes s) := by
  rw [exec_count_of_fits hfit] at h
  cases h
  rfl

/-- R88 (a): every byte of a sequence is counted at one symbol. -/
theorem sum_count_allSymbols (bs : List Byte) :
    (allSymbols.map fun x => bs.count x).sum = bs.length := by
  have hmem : ∀ x ∈ (bs : Multiset Byte), x ∈ allSymbols.toFinset := fun x _ =>
    List.mem_toFinset.2 (mem_allSymbols x)
  have hsum := Multiset.sum_count_eq_card hmem
  rw [List.sum_toFinset _ allSymbols_nodup] at hsum
  simpa only [Multiset.coe_count, Multiset.coe_card] using hsum

/-- R88 (b): the keys of the counters are the bytes that occur. -/
theorem symGet_countBytes_inputBytes_ne_zero {s : State} {x : Byte} :
    symGet (countBytes (inputBytes s)) x ≠ 0 ↔ x ∈ inputBytes s := by
  rw [← List.count_pos_iff, ← toNat_symGet_countBytes_inputBytes, Nat.pos_iff_ne_zero]
  exact BitVec.toNat_ne_iff_ne.symm

theorem keys_nodup (freq : Vector Word64 256) : (keys freq).Nodup := by
  rw [keys, symbolsWith_eq]
  exact allSymbols_nodup.filter _

/-- R88 (c): distinct keys occur at distinct indices. -/
theorem length_keys_countBytes_inputBytes_le (s : State) :
    (keys (countBytes (inputBytes s))).length ≤ s.inLen.toNat := by
  have hsub : keys (countBytes (inputBytes s)) ⊆ inputBytes s := fun _ hx =>
    symGet_countBytes_inputBytes_ne_zero.1 (mem_keys.1 hx)
  rw [← length_inputBytes s]
  exact ((keys_nodup _).subperm hsub).length_le

/-- R88 (d): the counters of two inputs with the same bytes in another order are equal. -/
theorem countBytes_inputBytes_perm {s s' : State} (hp : (inputBytes s').Perm (inputBytes s)) :
    countBytes (inputBytes s') = countBytes (inputBytes s) :=
  eq_of_symGet_eq fun x => BitVec.eq_of_toNat_eq <| by
    rw [toNat_symGet_countBytes_inputBytes, toNat_symGet_countBytes_inputBytes, hp.count_eq]

/-- Settles O22: the four parts of R88, (a) to (d), about the counters COUNT leaves. -/
theorem countTotals : Obligations.CountTotals := by
  intro s t h hfit
  rw [freq_of_exec_count h hfit]
  refine ⟨?_, fun x => ?_, ?_, fun s' t' h' hfit' hp => ?_⟩
  · simp only [toNat_symGet_countBytes_inputBytes, sum_count_allSymbols, length_inputBytes]
  · rw [symGet_countBytes_inputBytes_ne_zero, inputBytes, mem_readBytes]
    simp only [Nat.zero_add]
  · exact Nat.le_min.2 ⟨length_keys_le _, length_keys_countBytes_inputBytes_le s⟩
  · rw [freq_of_exec_count h' hfit', countBytes_inputBytes_perm hp]

end Sys2Proof.Machine
end

section
/-!
PROOFS. The order of BUILD's merges (spec/41_build.md R92, R93): the queue of the combination loop
is sorted, so each parent stands over the two least roots of the forest it is added to.
-/

namespace Sys2Proof.Machine

open Sys2Proof

/-- BUILD answers a state that holds the tree and the code table of `writeBuild` (R97). -/
theorem exists_exec_build (s : State) : ∃ t, exec .build s = .next t ∧
    t.nodes = buildTree s.freq ∧ t.clen = (writeBuild s).clen ∧ t.cbits = (writeBuild s).cbits := by
  rcases execBuild_cases s with ⟨-, hr⟩ | ⟨-, hr⟩ <;> exact ⟨_, hr, rfl, rfl, rfl⟩

/-! ### Merges in a given arena -/

/-- Node `c` is in the queue when the node in slot `h` is made: it stands below `h` and no node
below `h` has it as a child. -/
def QueuedAt (nodes : List Node) (h c : Nat) : Prop := c < h ∧ ∀ k < h, ¬ IsChild nodes k c

/-- The node in slot `h` merges `a` and `b`, in this order the two least nodes in the queue when it
is made (R93). -/
structure MergesTwoLeast (nodes : List Node) (h a b : Nat) : Prop where
  children : HasChildren nodes h a b
  left : QueuedAt nodes h a
  right : QueuedAt nodes h b
  ordered : LessFrequent nodes a b
  least : ∀ c, QueuedAt nodes h c → c ≠ a → c ≠ b → LessFrequent nodes b c

theorem hasChildren_append {nodes : List Node} {h a b : Nat} (more : List Node)
    (hh : h < nodes.length) :
    HasChildren (nodes ++ more) h a b ↔ HasChildren nodes h a b := by
  rw [HasChildren, HasChildren, List.getElem?_append_left hh]

theorem queuedAt_append {nodes : List Node} {h c : Nat} (more : List Node)
    (hh : h ≤ nodes.length) : QueuedAt (nodes ++ more) h c ↔ QueuedAt nodes h c := by
  have hchild : ∀ k < h, (IsChild (nodes ++ more) k c ↔ IsChild nodes k c) := fun k hk => by
    simp only [IsChild, hasChildren_append more (Nat.lt_of_lt_of_le hk hh)]
  simp only [QueuedAt]
  exact and_congr_right fun _ => forall₂_congr fun k hk => not_congr (hchild k hk)

theorem lessFrequent_append {nodes : List Node} {a b : Nat} (more : List Node)
    (ha : a < nodes.length) (hb : b < nodes.length) :
    LessFrequent (nodes ++ more) a b ↔ LessFrequent nodes a b := by
  rw [LessFrequent, LessFrequent, freqAt_append more ha, freqAt_append more hb]

/-- A merge speaks of its slot and the slots below it alone. -/
theorem MergesTwoLeast.append {nodes : List Node} {h a b : Nat} (more : List Node)
    (hm : MergesTwoLeast nodes h a b) : MergesTwoLeast (nodes ++ more) h a b := by
  have hh : h < nodes.length := IsChild.lt_length ⟨a, b, hm.children, .inl rfl⟩
  have hlt : ∀ {c}, QueuedAt nodes h c → c < nodes.length := fun hc => Nat.lt_trans hc.1 hh
  exact {
    children := (hasChildren_append more hh).2 hm.children
    left := (queuedAt_append more hh.le).2 hm.left
    right := (queuedAt_append more hh.le).2 hm.right
    ordered := (lessFrequent_append more (hlt hm.left) (hlt hm.right)).2 hm.ordered
    least := fun c hc hca hcb => by
      have hc := (queuedAt_append more hh.le).1 hc
      exact (lessFrequent_append more (hlt hm.right) (hlt hc)).2 (hm.least c hc hca hcb) }

/-! ### The loop -/

/-- The invariant of BUILD's loop on the order of its merges: the queue is sorted, and every parent
made so far merges the two least nodes. -/
structure MergeOrder (n : Nat) (nodes : List Node) (q : List QueueEntry) : Prop
    extends Forest n nodes q where
  sorted : q.Pairwise fun x y => x.before y = true
  merged : ∀ h, n ≤ h → h < nodes.length → ∃ a b, MergesTwoLeast nodes h a b

/-- The queue holds what stands below the next slot without a parent. -/
theorem Forest.queuedAt_length_iff {n : Nat} {nodes : List Node} {q : List QueueEntry}
    (hF : Forest n nodes q) {c : Nat} :
    QueuedAt nodes nodes.length c ↔ c ∈ q.map QueueEntry.handle := by
  rw [hF.roots, QueuedAt]
  exact and_congr_right fun _ => ⟨fun h k hk => h k hk.lt_length hk, fun h k _ => h k⟩

/-- The order of queue entries is the order of their nodes. -/
theorem Forest.lessFrequent_of_before {n : Nat} {nodes : List Node} {q : List QueueEntry}
    (hF : Forest n nodes q) {x y : QueueEntry} (hx : x ∈ q) (hy : y ∈ q)
    (hxy : x.before y = true) : LessFrequent nodes x.handle y.handle := by
  rw [LessFrequent, hF.freqs x hx, hF.freqs y hy, BitVec.toNat_inj]
  exact (QueueEntry.before_iff x y).1 hxy

/-- The parent of the two first entries of the queue merges the two least nodes. -/
theorem MergeOrder.merges_internalNode {n : Nat} {nodes : List Node} {a b : QueueEntry}
    {q : List QueueEntry} (hM : MergeOrder n nodes (a :: b :: q)) :
    MergesTwoLeast (nodes ++ [internalNode a b]) nodes.length a.handle b.handle := by
  have hF := hM.toForest
  have queued : ∀ {c}, QueuedAt (nodes ++ [internalNode a b]) nodes.length c ↔
      c ∈ (a :: b :: q).map QueueEntry.handle := fun {c} => by
    rw [queuedAt_append _ le_rfl, hF.queuedAt_length_iff]
  have less : ∀ {x y}, x ∈ a :: b :: q → y ∈ a :: b :: q → x.before y = true →
      LessFrequent (nodes ++ [internalNode a b]) x.handle y.handle := fun hx hy hxy =>
    (lessFrequent_append _ (hF.handle_lt hx) (hF.handle_lt hy)).2
      (hF.lessFrequent_of_before hx hy hxy)
  have hsorted := hM.sorted
  simp only [List.pairwise_cons, List.mem_cons, forall_eq_or_imp] at hsorted
  obtain ⟨⟨hab, -⟩, hb, -⟩ := hsorted
  have hsize := hF.size
  have ha' := hF.handle_lt (e := a) (by simp)
  have hb' := hF.handle_lt (e := b) (by simp)
  exact {
    children := by
      refine ⟨internalNode a b, by simp, rfl, ?_, ?_⟩ <;>
        simp only [internalNode, BitVec.toNat_ofNat, List.length_cons] at hsize ⊢ <;> omega
    left := queued.2 (by simp)
    right := queued.2 (by simp)
    ordered := less (by simp) (by simp) hab
    least := fun c hc hca hcb => by
      have hcq := queued.1 hc
      simp only [List.map_cons, List.mem_cons, hca, hcb, false_or] at hcq
      obtain ⟨e, he, rfl⟩ := List.mem_map.1 hcq
      exact less (by simp) (by simp [he]) (hb e he) }

/-- One round of the loop (R93) keeps the order. -/
theorem MergeOrder.combine_step {n : Nat} {nodes : List Node} {a b : QueueEntry}
    {q : List QueueEntry} (hM : MergeOrder n nodes (a :: b :: q)) :
    MergeOrder n (nodes ++ [internalNode a b])
      (enqueue ⟨(internalNode a b).freq, nodes.length⟩ q) where
  toForest := hM.toForest.combine_step
  sorted := enqueue_sorted hM.sorted.of_cons.of_cons fun y hy =>
    (hM.handle_lt (e := y) (by simp [hy])).ne'
  merged h hn hh := by
    rcases Nat.lt_succ_iff_lt_or_eq.1 (show h < nodes.length + 1 by simpa using hh) with hh | rfl
    · obtain ⟨x, y, hxy⟩ := hM.merged h hn hh
      exact ⟨x, y, hxy.append _⟩
    · exact ⟨_, _, hM.merges_internalNode⟩

/-- The loop ends with one node in the queue, all its merges in order. -/
theorem MergeOrder.combine {n : Nat} : ∀ {rounds : Nat} {nodes : List Node}
    {q : List QueueEntry}, MergeOrder n nodes q → q ≠ [] → q.length ≤ rounds + 1 →
    ∃ root, MergeOrder n (combine rounds nodes q) [root]
  | _, nodes, [root], hM, _, _ => ⟨root, by simpa [Machine.combine] using hM⟩
  | rounds + 1, nodes, a :: b :: q, hM, _, hle =>
    hM.combine_step.combine (by simp [← List.length_pos_iff]) (by
      simp only [List.length_cons, length_enqueue] at hle ⊢
      omega)

/-- Inserting nodes under rising handles keeps the queue sorted. -/
theorem enqueueNodes_sorted {h : Nat} {q : List QueueEntry} (nodes : List Node)
    (hq : q.Pairwise fun x y => x.before y = true) (hlt : ∀ e ∈ q, e.handle < h) :
    (enqueueNodes h q nodes).Pairwise fun x y => x.before y = true := by
  induction nodes generalizing h q with
  | nil => exact hq
  | cons nd rest ih =>
    refine ih (enqueue_sorted hq fun y hy => (hlt y hy).ne') fun e he => ?_
    rcases List.mem_cons.1 ((enqueue_perm _ q).mem_iff.1 he) with rfl | he
    · exact Nat.lt_succ_self h
    · exact Nat.lt_succ_of_lt (hlt e he)

/-- Where there is a key, the loop ends with one root, all its merges in order. -/
theorem mergeOrder_buildTree {freq : Vector Word64 256} (h : keys freq ≠ []) :
    ∃ root, MergeOrder (keys freq).length (buildTree freq) [root] := by
  have hq : (enqueueNodes 0 [] (leafNodes freq)).length = (keys freq).length := by
    rw [length_enqueueNodes]; simp
  have hstart : MergeOrder (keys freq).length (leafNodes freq)
      (enqueueNodes 0 [] (leafNodes freq)) :=
    { toForest := forest_leafNodes freq
      sorted := enqueueNodes_sorted _ List.Pairwise.nil (by simp)
      merged := fun k hn hk => absurd hk (by rw [length_leafNodes]; omega) }
  refine hstart.combine (List.ne_nil_of_length_pos ?_) (by rw [hq, length_leafNodes]; omega)
  rw [hq]
  exact List.length_pos_iff.2 h

/-- Settles O26: the loop's invariant at its end, and R32 (c), (d) for the sums. -/
theorem buildMergesTheTwoLeast : Obligations.BuildMergesTheTwoLeast := by
  intro s hkeys
  obtain ⟨root, hM⟩ := mergeOrder_buildTree (freq := s.freq) (List.ne_nil_of_length_pos (by omega))
  obtain ⟨t, ht, hnodes, -⟩ := exists_exec_build s
  refine ⟨t, ht, by rw [hnodes, length_buildTree]; omega, ?_⟩
  rw [hnodes]
  intro h hn hh
  obtain ⟨a, b, hm⟩ := hM.merged h hn hh
  obtain ⟨nd, hnd, -, hsym, -, -, hne, hfreq⟩ := hM.internal h hn hh
  obtain ⟨nd', hnd', hkind, rfl, rfl⟩ := id hm.children
  cases hnd.symm.trans hnd'
  refine ⟨_, _, hm.children, hm.left.1, hm.right.1, fun e => hne (BitVec.eq_of_toNat_eq e),
    fun nd' hnd' => ?_, (freqAt_of_getElem? hnd).trans hfreq,
    fun k hk => ⟨hm.left.2 k hk, hm.right.2 k hk⟩, hm.ordered,
    fun c hc hno => hm.least c ⟨hc, hno⟩⟩
  cases hnd.symm.trans hnd'
  exact hsym

end Sys2Proof.Machine
end

section
/-!
PROOFS. The codes BUILD assigns (spec/41_build.md R94 to R98): the descent from the root meets every
leaf once, so the code map has one entry for each key, the path to its leaf.
-/

namespace Sys2Proof.Machine

open Sys2Proof

/-! ### Edges and paths -/

theorem HasChildren.isChild_left {nodes : List Node} {h a b : Nat} (hc : HasChildren nodes h a b) :
    IsChild nodes h a := ⟨a, b, hc, .inl rfl⟩

theorem HasChildren.isChild_right {nodes : List Node} {h a b : Nat} (hc : HasChildren nodes h a b) :
    IsChild nodes h b := ⟨a, b, hc, .inr rfl⟩

/-- A slot has at most one pair of children. -/
theorem HasChildren.unique {nodes : List Node} {h a b a' b' : Nat} (hc : HasChildren nodes h a b)
    (hc' : HasChildren nodes h a' b') : a = a' ∧ b = b' := by
  obtain ⟨nd, hn, -, rfl, rfl⟩ := hc
  obtain ⟨nd', hn', -, rfl, rfl⟩ := hc'
  cases hn.symm.trans hn'
  exact ⟨rfl, rfl⟩

/-- `p` is the path from the root, the last node of the arena, to the node in slot `h`: left edge 0,
right edge 1 (R96). -/
inductive PathTo (nodes : List Node) : Nat → Bits → Prop
  | root : PathTo nodes (nodes.length - 1) []
  | left {h a b : Nat} {p : Bits} (hc : HasChildren nodes h a b) (hp : PathTo nodes h p) :
      PathTo nodes a (p ++ [false])
  | right {h a b : Nat} {p : Bits} (hc : HasChildren nodes h a b) (hp : PathTo nodes h p) :
      PathTo nodes b (p ++ [true])

/-- Only the root has the empty path. -/
theorem PathTo.eq_root_of_nil {nodes : List Node} {h : Nat} {p : Bits} (hp : PathTo nodes h p)
    (hnil : p = []) : h = nodes.length - 1 := by
  cases hp with
  | root => rfl
  | left hc hp => simp at hnil
  | right hc hp => simp at hnil

section Arena

variable {n : Nat} {nodes : List Node} {q : List QueueEntry} (hF : Forest n nodes q)

include hF

/-- The slots with children are those of the internal nodes. -/
theorem Forest.le_of_isChild {h c : Nat} (hc : IsChild nodes h c) : n ≤ h := by
  by_contra hlt
  exact (hF.leaf h (Nat.lt_of_not_le hlt)).not_isChild c hc

/-- The children of a node differ, and its frequency is their sum (R93). -/
theorem Forest.merge_of_hasChildren {h a b : Nat} (hc : HasChildren nodes h a b) :
    a ≠ b ∧ freqAt nodes h = freqAt nodes a + freqAt nodes b := by
  obtain ⟨nd, hn, -, -, -, -, hne, hfreq⟩ :=
    hF.internal h (hF.le_of_isChild hc.isChild_left) hc.isChild_left.lt_length
  obtain ⟨nd', hn', -, rfl, rfl⟩ := hc
  cases hn.symm.trans hn'
  exact ⟨fun e => hne (BitVec.eq_of_toNat_eq e), (freqAt_of_getElem? hn).trans hfreq⟩

/-- Induction over the nodes of a forest: a node is a leaf, or its claim follows from its
children's. -/
theorem Forest.node_induction {P : Nat → Prop}
    (leaf : ∀ h nd, h < n → nodes[h]? = some nd → nd.kind = .leaf → P h)
    (internal : ∀ h a b, HasChildren nodes h a b → P a → P b → P h) :
    ∀ h < nodes.length, P h := by
  intro h
  induction h using Nat.strong_induction_on with
  | _ h ih =>
    intro hh
    rcases Nat.lt_or_ge h n with hn | hn
    · obtain ⟨nd, hnd, hk, -⟩ := hF.leaf h hn
      exact leaf h nd hn hnd hk
    · obtain ⟨nd, hnd, hk, -, hl, hr, -⟩ := hF.internal h hn hh
      exact internal h _ _ ⟨nd, hnd, hk, rfl, rfl⟩ (ih _ hl (hl.trans hh)) (ih _ hr (hr.trans hh))

/-- The last node of the arena is no child. -/
theorem Forest.not_isChild_last (k : Nat) : ¬ IsChild nodes k (nodes.length - 1) := fun hk => by
  have := hF.child_lt hk
  have := hk.lt_length
  omega

/-- A node has at most one path. -/
theorem Forest.pathTo_unique {c : Nat} {p p' : Bits} (hp : PathTo nodes c p)
    (hp' : PathTo nodes c p') : p = p' := by
  induction hp generalizing p' with
  | root =>
    generalize hlast : nodes.length - 1 = c at hp'
    cases hp' with
    | root => rfl
    | left hc _ => exact absurd (hlast ▸ hc.isChild_left) (hF.not_isChild_last _)
    | right hc _ => exact absurd (hlast ▸ hc.isChild_right) (hF.not_isChild_last _)
  | left hc _ ih =>
    cases hp' with
    | root => exact absurd hc.isChild_left (hF.not_isChild_last _)
    | left hc' hp' =>
      cases hF.parent _ _ _ hc.isChild_left hc'.isChild_left
      rw [ih hp']
    | right hc' hp' =>
      cases hF.parent _ _ _ hc.isChild_left hc'.isChild_right
      exact absurd (hc'.unique hc).1 (hF.merge_of_hasChildren hc').1
  | right hc _ ih =>
    cases hp' with
    | root => exact absurd hc.isChild_right (hF.not_isChild_last _)
    | left hc' hp' =>
      cases hF.parent _ _ _ hc.isChild_right hc'.isChild_left
      exact absurd (hc.unique hc').1 (hF.merge_of_hasChildren hc).1
    | right hc' hp' =>
      cases hF.parent _ _ _ hc.isChild_right hc'.isChild_right
      rw [ih hp']

end Arena

/-- In a tree every node but the last has a parent. -/
theorem Forest.exists_isChild {n : Nat} {nodes : List Node} {root : QueueEntry}
    (hF : Forest n nodes [root]) {c : Nat} (hc : c + 1 < nodes.length) :
    ∃ h, IsChild nodes h c := by
  by_contra hno
  have eq_root : ∀ x, x < nodes.length → (∀ k, ¬ IsChild nodes k x) → x = root.handle :=
    fun x hx hk => by simpa using (hF.roots x).2 ⟨hx, hk⟩
  have := eq_root c (by omega) (not_exists.1 hno)
  have := eq_root (nodes.length - 1) (by omega) hF.not_isChild_last
  omega

/-- In a tree every node has a path. -/
theorem Forest.exists_pathTo {n : Nat} {nodes : List Node} {root : QueueEntry}
    (hF : Forest n nodes [root]) {c : Nat} (hc : c < nodes.length) : ∃ p, PathTo nodes c p := by
  induction hm : nodes.length - c using Nat.strong_induction_on generalizing c with
  | _ m ih =>
    by_cases hlast : c + 1 < nodes.length
    · obtain ⟨h, hch⟩ := hF.exists_isChild hlast
      have hlt := hF.child_lt hch
      obtain ⟨p, hp⟩ := ih (nodes.length - h) (by omega) hch.lt_length rfl
      obtain ⟨a, b, hab, rfl | rfl⟩ := hch
      · exact ⟨_, .left hab hp⟩
      · exact ⟨_, .right hab hp⟩
    · obtain rfl : c = nodes.length - 1 := by omega
      exact ⟨[], .root⟩

/-! ### The descent -/

/-- The code map of the subtree under the node in slot `h`, whose path is `p`: the descent of R97
with a bound that suffices. -/
def codesUnder (nodes : List Node) (h : Nat) (p : Bits) : CodeMap := assignCodes nodes (h + 1) h p

/-- A leaf gives its symbol its path. -/
theorem codesUnder_leaf {nodes : List Node} {h : Nat} {nd : Node} (hn : nodes[h]? = some nd)
    (hk : nd.kind = .leaf) (p : Bits) : codesUnder nodes h p = [(nd.sym, p)] := by
  simp [codesUnder, assignCodes, hn, hk]

section Descent

variable {n : Nat} {nodes : List Node} {q : List QueueEntry} (hF : Forest n nodes q)

include hF

/-- Children stand below their parent, so a bound above the handle suffices for the descent. -/
theorem Forest.assignCodes_eq_codesUnder {h depth : Nat} (hd : h < depth) (p : Bits) :
    assignCodes nodes depth h p = codesUnder nodes h p := by
  rw [codesUnder]
  induction h using Nat.strong_induction_on generalizing depth p with
  | _ h ih =>
    obtain ⟨d, rfl⟩ := Nat.exists_eq_add_one_of_ne_zero (Nat.ne_zero_of_lt hd)
    cases hn : nodes[h]? with
    | none => simp [assignCodes, hn]
    | some nd =>
      cases hk : nd.kind with
      | leaf => simp [assignCodes, hn, hk]
      | internal =>
        have hc : HasChildren nodes h nd.left.toNat nd.right.toNat := ⟨nd, hn, hk, rfl, rfl⟩
        have hl := hF.child_lt hc.isChild_left
        have hr := hF.child_lt hc.isChild_right
        simp only [assignCodes, hn, hk]
        rw [ih _ hl (by omega : nd.left.toNat < d), ih _ hr (by omega : nd.right.toNat < d),
          ih _ hl hl, ih _ hr hr]

/-- An internal node gives its path on to its children, with 0 to the left and 1 to the right. -/
theorem Forest.codesUnder_internal {h a b : Nat} (hc : HasChildren nodes h a b) (p : Bits) :
    codesUnder nodes h p =
      codesUnder nodes a (p ++ [false]) ++ codesUnder nodes b (p ++ [true]) := by
  rw [← hF.assignCodes_eq_codesUnder (hF.child_lt hc.isChild_left),
    ← hF.assignCodes_eq_codesUnder (hF.child_lt hc.isChild_right)]
  obtain ⟨nd, hn, hk, rfl, rfl⟩ := hc
  simp [codesUnder, assignCodes, hn, hk]

/-- The descent from a node gives codes that are paths to leaves. -/
theorem Forest.exists_leaf_of_mem_codesUnder : ∀ h < nodes.length, ∀ {p : Bits} {e : Byte × Bits},
    PathTo nodes h p → e ∈ codesUnder nodes h p →
    ∃ t nd, nodes[t]? = some nd ∧ nd.kind = .leaf ∧ nd.sym = e.1 ∧ PathTo nodes t e.2 := by
  refine hF.node_induction (fun h nd _ hn hk p e hp he => ?_)
    fun h a b hc iha ihb p e hp he => ?_
  · rw [codesUnder_leaf hn hk, List.mem_singleton] at he
    subst he
    exact ⟨h, nd, hn, hk, rfl, hp⟩
  · rw [hF.codesUnder_internal hc, List.mem_append] at he
    rcases he with he | he
    · exact iha (.left hc hp) he
    · exact ihb (.right hc hp) he

/-- The descent from the root meets the subtree of every node that has a path. -/
theorem Forest.codesUnder_subset {h : Nat} {p : Bits} (hp : PathTo nodes h p) :
    codesUnder nodes h p ⊆ codesUnder nodes (nodes.length - 1) [] := by
  induction hp with
  | root => exact List.Subset.refl _
  | left hc _ ih =>
    rw [hF.codesUnder_internal hc] at ih
    exact (List.append_subset.1 ih).1
  | right hc _ ih =>
    rw [hF.codesUnder_internal hc] at ih
    exact (List.append_subset.1 ih).2

end Descent

/-! ### The code map of a frequency map -/

/-- The paths from the root of BUILD's tree to its leaves (R96). -/
def treeCodes (freq : Vector Word64 256) : CodeMap :=
  codesUnder (buildTree freq) ((buildTree freq).length - 1) []

/-- The leaves of BUILD's tree are those of the keys (R91). -/
theorem leaf_buildTree {freq : Vector Word64 256} {h : Nat} {nd : Node}
    (hn : (buildTree freq)[h]? = some nd) (hk : nd.kind = .leaf) :
    ∃ hh : h < (keys freq).length, nd = leafNode freq (keys freq)[h] := by
  have hlt := (List.getElem?_eq_some_iff.1 hn).1
  have hkeys : keys freq ≠ [] := fun e => by simp [length_buildTree, e] at hlt
  obtain ⟨root, hF⟩ := forest_buildTree hkeys
  have hh : h < (keys freq).length := by
    by_contra hge
    obtain ⟨nd', hn', hk', -⟩ := hF.internal h (Nat.le_of_not_lt hge) hlt
    cases hn.symm.trans hn'
    cases hk.symm.trans hk'
  exact ⟨hh, Option.some.inj (hn.symm.trans (getElem?_buildTree hh))⟩

/-- A leaf has its key's counter whole (R91). -/
theorem toNat_freq_leafNode (freq : Vector Word64 256) (x : Byte) :
    (leafNode freq x).freq.toNat = (symGet freq x).toNat := by
  have := (symGet freq x).isLt
  simp only [leafNode, BitVec.toNat_setWidth]
  omega

section Keys

variable {freq : Vector Word64 256} (hkeys : keys freq ≠ [])

include hkeys

/-- The entries of the code map are the keys with the paths to their leaves. -/
theorem mem_treeCodes {e : Byte × Bits} : e ∈ treeCodes freq ↔
    ∃ t, ∃ ht : t < (keys freq).length, (keys freq)[t] = e.1 ∧ PathTo (buildTree freq) t e.2 := by
  obtain ⟨root, hF⟩ := forest_buildTree hkeys
  have hlen := length_buildTree freq
  have hpos := List.length_pos_iff.2 hkeys
  constructor
  · intro he
    obtain ⟨t, nd, hn, hk, hs, hp⟩ := hF.exists_leaf_of_mem_codesUnder _ (by omega) .root he
    obtain ⟨ht, rfl⟩ := leaf_buildTree hn hk
    exact ⟨t, ht, hs, hp⟩
  · rintro ⟨t, ht, hs, hp⟩
    refine hF.codesUnder_subset hp ?_
    rw [codesUnder_leaf (getElem?_buildTree ht) rfl, List.mem_singleton]
    exact Prod.ext hs.symm rfl

/-- No symbol has two entries: the paths of different entries differ, and a key has one path. -/
theorem treeCodes_pairwise_ne : (treeCodes freq).Pairwise fun e f => e.1 ≠ f.1 := by
  obtain ⟨root, hF⟩ := forest_buildTree hkeys
  refine (prefixFree_assignCodes _ _ _ _).imp_of_mem fun {e f} he hf hne hef => hne.1 ?_
  obtain ⟨t, ht, hte, hpe⟩ := (mem_treeCodes hkeys).1 he
  obtain ⟨u, hu, huf, hpf⟩ := (mem_treeCodes hkeys).1 hf
  cases (keys_nodup freq).getElem_inj_iff.1 (hte.trans (hef.trans huf.symm))
  rw [hF.pathTo_unique hpe hpf]

/-- The symbols of the code map are the keys, each once. -/
theorem map_fst_treeCodes_perm : ((treeCodes freq).map Prod.fst).Perm (keys freq) := by
  refine (List.perm_ext_iff_of_nodup (List.pairwise_map.2 (treeCodes_pairwise_ne hkeys))
    (keys_nodup freq)).2 fun x => ⟨fun hx => ?_, fun hx => ?_⟩
  · obtain ⟨e, he, rfl⟩ := List.mem_map.1 hx
    obtain ⟨t, ht, hs, -⟩ := (mem_treeCodes hkeys).1 he
    exact hs ▸ List.getElem_mem ht
  · obtain ⟨t, ht, rfl⟩ := List.mem_iff_getElem.1 hx
    obtain ⟨root, hF⟩ := forest_buildTree hkeys
    obtain ⟨p, hp⟩ := hF.exists_pathTo (c := t) (by rw [length_buildTree]; omega)
    exact List.mem_map.2 ⟨((keys freq)[t], p), (mem_treeCodes hkeys).2 ⟨t, ht, rfl, hp⟩, rfl⟩

end Keys

/-- With two or more keys the code map is that of the tree (R96). -/
theorem buildCodes_eq_treeCodes {freq : Vector Word64 256} (htwo : 2 ≤ (keys freq).length) :
    buildCodes (keys freq) (buildTree freq) = treeCodes freq := by
  obtain ⟨root, hF⟩ := forest_buildTree (freq := freq) (List.ne_nil_of_length_pos (by omega))
  have hlen := length_buildTree freq
  rw [treeCodes, ← hF.assignCodes_eq_codesUnder (depth := (buildTree freq).length) (by omega),
    buildCodes.eq_def]
  split
  next hk => simp [hk] at htwo
  next hk => simp [hk] at htwo
  next => rfl

/-- BUILD gives a code to each key once, and to no other symbol (R94 to R96). -/
theorem map_fst_buildCodes_perm (freq : Vector Word64 256) :
    ((buildCodes (keys freq) (buildTree freq)).map Prod.fst).Perm (keys freq) := by
  rcases Nat.lt_or_ge (keys freq).length 2 with hlt | htwo
  · match keys freq, hlt with
    | [], _ => exact .refl _
    | [x], _ => exact .refl _
  · rw [buildCodes_eq_treeCodes htwo]
    exact map_fst_treeCodes_perm (List.ne_nil_of_length_pos (by omega))

/-- BUILD gives no empty code: only the root has the empty path, and it is no leaf (R96). -/
theorem ne_nil_of_mem_buildCodes {freq : Vector Word64 256} {e : Byte × Bits}
    (he : e ∈ buildCodes (keys freq) (buildTree freq)) : e.2 ≠ [] := by
  rcases Nat.lt_or_ge (keys freq).length 2 with hlt | htwo
  · match hk : keys freq, hlt with
    | [], _ => rw [hk] at he; exact absurd he List.not_mem_nil
    | [x], _ => rw [hk] at he; rw [List.mem_singleton.1 he]; simp
  · rw [buildCodes_eq_treeCodes htwo, mem_treeCodes (List.ne_nil_of_length_pos (by omega))] at he
    obtain ⟨t, ht, -, hp⟩ := he
    intro hnil
    have := hp.eq_root_of_nil hnil
    have := length_buildTree freq
    omega

/-! ### The code table -/

section Table

variable {s : State}

/-- The code table holds the entries of the code map (R97). -/
theorem lookupCode_of_mem_buildCodes {freq : Vector Word64 256} {x : Byte} {c : Bits}
    (h : (x, c) ∈ buildCodes (keys freq) (buildTree freq)) :
    lookupCode (buildCodes (keys freq) (buildTree freq)) x = some c :=
  lookupCode_eq_some
    (List.pairwise_map.1 ((map_fst_buildCodes_perm freq).nodup_iff.2 (keys_nodup freq))) h

theorem toNat_clen_writeBuild {x : Byte} {c : Bits}
    (h : (x, c) ∈ buildCodes (keys s.freq) (buildTree s.freq)) :
    (symGet (writeBuild s).clen x).toNat = c.length :=
  toNat_clen_of_lookupCode (writeBuild_clen s) (fun _ => length_le_of_mem_buildCodes)
    (lookupCode_of_mem_buildCodes h)

theorem codeOf_writeBuild {x : Byte} {c : Bits}
    (h : (x, c) ∈ buildCodes (keys s.freq) (buildTree s.freq)) : codeOf (writeBuild s) x = c :=
  codeOf_of_lookupCode (writeBuild_clen s) (writeBuild_cbits s)
    (fun _ => length_le_of_mem_buildCodes) (lookupCode_of_mem_buildCodes h)

/-- Every key has an entry in the code map. -/
theorem exists_mem_buildCodes {freq : Vector Word64 256} {x : Byte} (hx : symGet freq x ≠ 0) :
    ∃ c, (x, c) ∈ buildCodes (keys freq) (buildTree freq) := by
  obtain ⟨⟨y, c⟩, he, rfl⟩ :=
    List.mem_map.1 ((map_fst_buildCodes_perm freq).mem_iff.2 (mem_keys.2 hx))
  exact ⟨c, he⟩

/-- Exactly the keys have codes (R98). -/
theorem clen_writeBuild_ne_zero_iff {x : Byte} :
    symGet (writeBuild s).clen x ≠ 0 ↔ symGet s.freq x ≠ 0 := by
  constructor
  · intro hx
    obtain ⟨c, hc⟩ := exists_lookupCode_of_clen_ne_zero (writeBuild_clen s) hx
    exact mem_keys.1 ((map_fst_buildCodes_perm s.freq).mem_iff.1
      (List.mem_map_of_mem (mem_of_lookupCode hc)))
  · intro hx
    obtain ⟨c, hc⟩ := exists_mem_buildCodes hx
    rw [← BitVec.toNat_ne_iff_ne, toNat_clen_writeBuild hc]
    exact fun e => ne_nil_of_mem_buildCodes hc (List.length_eq_zero_iff.1 e)

/-- A symbol that is no key has no code, and its registers are 0 (R91). -/
theorem codes_writeBuild_of_freq_zero {x : Byte} (hx : symGet s.freq x = 0) :
    symGet (writeBuild s).clen x = 0 ∧ symGet (writeBuild s).cbits x = 0 := by
  have hnone : lookupCode (buildCodes (keys s.freq) (buildTree s.freq)) x = none :=
    lookupCode_eq_none.2 fun c hc => absurd hx <| mem_keys.1 <|
      (map_fst_buildCodes_perm s.freq).mem_iff.1 (List.mem_map_of_mem hc)
  simp [codeLength, codeBitsImage, hnone]

/-- The symbols with a code are the keys, in the same order. -/
theorem codeDomain_writeBuild : codeDomain (writeBuild s) = keys s.freq := by
  rw [codeDomain, keys, symbolsWith_eq, symbolsWith_eq]
  exact List.filter_congr fun x _ => decide_eq_decide.2 clen_writeBuild_ne_zero_iff

end Table

/-- Settles O28: the paths to the leaves do not begin one another, and the leaves are the keys'. -/
theorem buildIsPrefixFree : Obligations.BuildIsPrefixFree := by
  intro s
  obtain ⟨t, ht, -, hl, hb⟩ := exists_exec_build s
  exact ⟨t, ht, codeInv_congr hl hb (codeInv_writeBuild s),
    fun x => by rw [hl]; exact clen_writeBuild_ne_zero_iff⟩

end Sys2Proof.Machine
end

section
/-!
PROOFS. The results of BUILD (spec/41_build.md R91, R94 to R96, R100): its leaves, its codes with
no, one and more keys, and the sums over the code map, each by induction over the nodes of the tree.
-/

namespace Sys2Proof.Machine

open Sys2Proof

/-! ### No key and one key -/

/-- Settles O23: no key, no node and no code; EmptyInput is reported for no other map. -/
theorem buildReportsTheEmptyMap : Obligations.BuildReportsTheEmptyMap := by
  intro s
  rcases execBuild_cases s with ⟨hk, hr⟩ | ⟨hk, hr⟩
  · refine ⟨_, hr, rfl, rfl,
      fun hz => ⟨?_, fun x => codes_writeBuild_of_freq_zero (hz x), rfl, rfl⟩,
      fun ⟨x, hx⟩ => absurd (mem_keys.2 hx) (by simp [hk])⟩
    exact List.eq_nil_of_length_eq_zero (by simp [length_buildTree, hk])
  · exact ⟨_, hr, rfl, rfl, fun hz => absurd (symbolsWith_eq_nil hz) hk, fun _ => ⟨rfl, rfl⟩⟩

theorem keys_eq_singleton {freq : Vector Word64 256} {x : Byte}
    (h : ∀ y, symGet freq y ≠ 0 ↔ y = x) : keys freq = [x] :=
  List.perm_singleton.1 <| (List.perm_ext_iff_of_nodup (keys_nodup freq)
    (List.nodup_singleton x)).2 fun y => by rw [mem_keys, h, List.mem_singleton]

theorem buildTree_singleton {freq : Vector Word64 256} {x : Byte} (h : keys freq = [x]) :
    buildTree freq = [leafNode freq x] := by
  simp [buildTree, leafNodes, h, enqueueNodes, enqueue, combine]

theorem mem_buildCodes_singleton {freq : Vector Word64 256} {x : Byte} (h : keys freq = [x]) :
    (x, [false]) ∈ buildCodes (keys freq) (buildTree freq) := by
  simp [h, buildCodes]

/-- Settles O24: the tree and the code map of one key. -/
theorem buildSingleSymbol : Obligations.BuildSingleSymbol := by
  intro s x hx
  have hkeys := keys_eq_singleton hx
  have hmem := mem_buildCodes_singleton hkeys
  obtain ⟨t, ht, hnodes, hl, hb⟩ := exists_exec_build s
  refine ⟨t, ht, by rw [hnodes, buildTree_singleton hkeys]; rfl, ?_, ?_, ?_, fun y hy => ?_⟩
  · rw [hl]
    exact BitVec.eq_of_toNat_eq (toNat_clen_writeBuild hmem)
  · rw [codeOf_congr hl hb, codeOf_writeBuild hmem]
  · rw [hb, writeBuild_cbits, symGet_symFill,
      codeBitsImage_of_lookupCode (lookupCode_of_mem_buildCodes hmem)]
    decide
  · rw [hl, hb]
    exact codes_writeBuild_of_freq_zero (by simpa using mt (hx y).1 hy)

/-! ### The leaves -/

theorem take_buildTree (freq : Vector Word64 256) :
    (buildTree freq).take (keys freq).length = leafNodes freq := by
  obtain ⟨more, hmore⟩ := combine_extends (leafNodes freq).length (leafNodes freq)
    (enqueueNodes 0 [] (leafNodes freq))
  rw [buildTree, hmore, ← length_leafNodes, List.take_left]

/-- Settles O25: the loop starts from the leaves and adds internal nodes alone. -/
theorem buildLeavesInSymbolOrder : Obligations.BuildLeavesInSymbolOrder := by
  intro s
  obtain ⟨t, ht, hnodes, hl, -⟩ := exists_exec_build s
  refine ⟨t, ht, fun x => mem_keys, keys_ascending s.freq, ?_, fun nd hnd hk => ?_, fun x hx => ?_⟩
  · rw [hnodes, take_buildTree]
    rfl
  · obtain ⟨h, hn⟩ := List.mem_iff_getElem?.1 (hnodes ▸ hnd)
    obtain ⟨hh, rfl⟩ := leaf_buildTree hn hk
    exact mem_keys.1 (List.getElem_mem hh)
  · rw [hl]
    exact (codes_writeBuild_of_freq_zero hx).1

/-! ### The paths -/

/-- The path to the node in slot `h`; the empty one where there is none. -/
noncomputable def pathOf (nodes : List Node) (h : Nat) : Bits :=
  open Classical in if hp : ∃ p, PathTo nodes h p then hp.choose else []

section Tree

variable {n : Nat} {nodes : List Node} {root : QueueEntry} (hF : Forest n nodes [root])

include hF

theorem Forest.pathTo_pathOf {h : Nat} (hh : h < nodes.length) :
    PathTo nodes h (pathOf nodes h) := by
  have hp := hF.exists_pathTo hh
  rw [pathOf, dif_pos hp]
  exact hp.choose_spec

theorem Forest.pathOf_eq {h : Nat} {p : Bits} (hh : h < nodes.length) (hp : PathTo nodes h p) :
    pathOf nodes h = p := hF.pathTo_unique (hF.pathTo_pathOf hh) hp

/-- The edges of the tree extend the paths (R96). -/
theorem Forest.pathOf_children {h a b : Nat} (hc : HasChildren nodes h a b) :
    pathOf nodes a = pathOf nodes h ++ [false] ∧ pathOf nodes b = pathOf nodes h ++ [true] := by
  have hh := hc.isChild_left.lt_length
  have hp := hF.pathTo_pathOf hh
  exact ⟨hF.pathOf_eq ((hF.child_lt hc.isChild_left).trans hh) (.left hc hp),
    hF.pathOf_eq ((hF.child_lt hc.isChild_right).trans hh) (.right hc hp)⟩

theorem Forest.pathOf_root (hne : nodes ≠ []) : pathOf nodes (nodes.length - 1) = [] :=
  hF.pathOf_eq (Nat.sub_lt (List.length_pos_iff.2 hne) Nat.one_pos) .root

end Tree

section TwoKeys

variable {s : State} (htwo : 2 ≤ (keys s.freq).length)

include htwo

/-- The code of a leaf's key is the path to the leaf. -/
theorem mem_buildCodes_pathOf {t : Nat} (ht : t < (keys s.freq).length) :
    ((keys s.freq)[t], pathOf (buildTree s.freq) t) ∈
      buildCodes (keys s.freq) (buildTree s.freq) := by
  have hkeys : keys s.freq ≠ [] := List.ne_nil_of_length_pos (by omega)
  obtain ⟨root, hF⟩ := forest_buildTree hkeys
  rw [buildCodes_eq_treeCodes htwo, mem_treeCodes hkeys]
  exact ⟨t, ht, rfl, hF.pathTo_pathOf (by rw [length_buildTree]; omega)⟩

/-- No path is longer than there are internal nodes (R100). -/
theorem length_le_pred_of_mem_buildCodes {e : Byte × Bits}
    (he : e ∈ buildCodes (keys s.freq) (buildTree s.freq)) :
    e.2.length ≤ (keys s.freq).length - 1 := by
  have hkeys : keys s.freq ≠ [] := List.ne_nil_of_length_pos (by omega)
  obtain ⟨root, hF⟩ := forest_buildTree hkeys
  rw [buildCodes_eq_treeCodes htwo] at he
  have := hF.length_le_of_mem_assignCodes he
  have := length_buildTree s.freq
  rw [List.length_nil] at *
  omega

end TwoKeys

/-- Settles O27: the paths of the tree, whose leaves carry the keys. -/
theorem buildCodesAreLeafPaths : Obligations.BuildCodesAreLeafPaths := by
  intro s htwo
  obtain ⟨root, hF⟩ := forest_buildTree (freq := s.freq) (List.ne_nil_of_length_pos (by omega))
  obtain ⟨t, ht, hnodes, hl, hb⟩ := exists_exec_build s
  refine ⟨t, ht, ⟨pathOf (buildTree s.freq), ?_, fun h a b hc => ?_, fun h nd hn hk => ?_⟩,
    fun x hx => by rw [hl, hb]; exact codes_writeBuild_of_freq_zero hx⟩
  · rw [hnodes]
    exact hF.pathOf_root (List.ne_nil_of_length_pos (by rw [length_buildTree]; omega))
  · exact hF.pathOf_children (hnodes ▸ hc)
  · obtain ⟨hh, rfl⟩ := leaf_buildTree (hnodes ▸ hn) hk
    have hmem := mem_buildCodes_pathOf htwo hh
    exact ⟨by rw [codeOf_congr hl hb]; exact codeOf_writeBuild hmem,
      List.length_pos_iff.2 (ne_nil_of_mem_buildCodes hmem),
      length_le_pred_of_mem_buildCodes htwo hmem⟩

/-! ### Sums over the code map -/

/-- The root's frequency is the sum of the counters under it (R93). -/
theorem sum_freq_codesUnder {freq : Vector Word64 256} (hkeys : keys freq ≠ []) :
    ∀ h < (buildTree freq).length, ∀ p, ((codesUnder (buildTree freq) h p).map fun e =>
      (symGet freq e.1).toNat).sum = freqAt (buildTree freq) h := by
  obtain ⟨root, hF⟩ := forest_buildTree hkeys
  refine hF.node_induction (fun h nd _ hn hk p => ?_) fun h a b hc iha ihb p => ?_
  · obtain ⟨hh, rfl⟩ := leaf_buildTree hn hk
    rw [codesUnder_leaf hn hk, freqAt_of_getElem? hn, toNat_freq_leafNode]
    exact List.sum_singleton
  · rw [hF.codesUnder_internal hc, List.map_append, List.sum_append, iha, ihb,
      (hF.merge_of_hasChildren hc).2]

/-- Kraft's sum of a subtree is that of its root's path: each internal node has two children
(R100). -/
theorem Forest.sum_kraft_codesUnder {n : Nat} {nodes : List Node} {q : List QueueEntry}
    (hF : Forest n nodes q) (m : Nat) : ∀ h < nodes.length, ∀ p : Bits, p.length + (h + 1 - n) ≤ m →
    ((codesUnder nodes h p).map fun e => 2 ^ (m - e.2.length)).sum = 2 ^ (m - p.length) := by
  refine hF.node_induction (fun h nd _ hn hk p _ => ?_) fun h a b hc iha ihb p hp => ?_
  · simp [codesUnder_leaf hn hk]
  · have hge := hF.le_of_isChild hc.isChild_left
    have ha := hF.child_lt hc.isChild_left
    have hb := hF.child_lt hc.isChild_right
    have hpow : m - p.length = m - (p.length + 1) + 1 := by omega
    rw [hF.codesUnder_internal hc, List.map_append, List.sum_append,
      iha _ (by rw [List.length_append, List.length_singleton]; omega),
      ihb _ (by rw [List.length_append, List.length_singleton]; omega), List.length_append,
      List.length_append, List.length_singleton, List.length_singleton, hpow, pow_succ, mul_two]

/-- The infinite sequence `bits` begins with `c`. -/
def Begins (bits : Nat → Bool) (c : Bits) : Prop := c = (List.range c.length).map bits

theorem Begins.append {bits : Nat → Bool} {p : Bits} {b : Bool} (hp : Begins bits p)
    (hb : bits p.length = b) : Begins bits (p ++ [b]) := by
  rw [Begins, List.length_append, List.length_singleton, List.range_succ, List.map_append, ← hp,
    List.map_singleton, hb]

/-- Of two beginnings of a sequence the shorter one begins the other. -/
theorem Begins.prefix_or_prefix {bits : Nat → Bool} {c d : Bits} (hc : Begins bits c)
    (hd : Begins bits d) : c <+: d ∨ d <+: c := by
  have shorter : ∀ m n, m ≤ n → (List.range m).map bits <+: (List.range n).map bits :=
    fun m n hmn => by
      obtain ⟨k, rfl⟩ := Nat.exists_eq_add_of_le hmn
      rw [List.range_add, List.map_append]
      exact List.prefix_append _ _
  rw [hc, hd]
  exact (Nat.le_total c.length d.length).imp (shorter _ _) (shorter _ _)

/-- Going down the tree as the sequence says ends at a leaf (R100). -/
theorem Forest.exists_begins_of_begins {n : Nat} {nodes : List Node} {q : List QueueEntry}
    (hF : Forest n nodes q) (bits : Nat → Bool) : ∀ h < nodes.length, ∀ p, Begins bits p →
    ∃ e ∈ codesUnder nodes h p, Begins bits e.2 := by
  refine hF.node_induction (fun h nd _ hn hk p hp => ?_) fun h a b hc iha ihb p hp => ?_
  · exact ⟨(nd.sym, p), by simp [codesUnder_leaf hn hk], hp⟩
  · rw [hF.codesUnder_internal hc]
    cases hbit : bits p.length with
    | false =>
      obtain ⟨e, he, hbe⟩ := iha _ (hp.append hbit)
      exact ⟨e, List.mem_append_left _ he, hbe⟩
    | true =>
      obtain ⟨e, he, hbe⟩ := ihb _ (hp.append hbit)
      exact ⟨e, List.mem_append_right _ he, hbe⟩

/-! ### The shape of the result -/

/-- A sum over all symbols of what is 0 off the keys is a sum over the keys. -/
theorem sum_allSymbols_eq_sum_keys {freq : Vector Word64 256} {f : Byte → Nat}
    (hf : ∀ x, symGet freq x = 0 → f x = 0) :
    (allSymbols.map f).sum = ((keys freq).map f).sum := by
  rw [keys, symbolsWith_eq]
  induction allSymbols with
  | nil => rfl
  | cons x l ih =>
    by_cases hx : symGet freq x = 0
    · rw [List.filter_cons_of_neg (by simpa using hx), List.map_cons, List.sum_cons, hf x hx, ih,
        Nat.zero_add]
    · rw [List.filter_cons_of_pos (by simpa using hx), List.map_cons, List.sum_cons, List.map_cons,
        List.sum_cons, ih]

/-- The root's frequency is the sum of all counters (R100). -/
theorem freqAt_root_buildTree {freq : Vector Word64 256} (hkeys : keys freq ≠ []) :
    freqAt (buildTree freq) ((buildTree freq).length - 1) =
      (allSymbols.map fun x => (symGet freq x).toNat).sum := by
  have hpos := List.length_pos_iff.2 hkeys
  have hlen := length_buildTree freq
  rw [← sum_freq_codesUnder hkeys _ (by omega) [],
    sum_allSymbols_eq_sum_keys (freq := freq) fun x hx => by rw [hx]; rfl,
    ← ((map_fst_treeCodes_perm hkeys).map _).sum_eq, List.map_map]
  rfl

section TwoKeys

variable {s : State} (htwo : 2 ≤ (keys s.freq).length)

include htwo

/-- No code is longer than the number of keys less one (R100). -/
theorem toNat_clen_writeBuild_le (x : Byte) :
    (symGet (writeBuild s).clen x).toNat ≤ (keys s.freq).length - 1 := by
  by_cases hx : symGet s.freq x = 0
  · rw [(codes_writeBuild_of_freq_zero hx).1]
    exact Nat.zero_le _
  · obtain ⟨c, hc⟩ := exists_mem_buildCodes hx
    rw [toNat_clen_writeBuild hc]
    exact length_le_pred_of_mem_buildCodes htwo hc

/-- Kraft's sum of BUILD's codes is 1 (R100), as a multiple of `2 ^ -255`. -/
theorem sum_kraft_writeBuild :
    ((codeDomain (writeBuild s)).map fun x =>
      2 ^ (255 - (symGet (writeBuild s).clen x).toNat)).sum = 2 ^ 255 := by
  have hkeys : keys s.freq ≠ [] := List.ne_nil_of_length_pos (by omega)
  obtain ⟨root, hF⟩ := forest_buildTree hkeys
  have hlen := length_buildTree s.freq
  have hle := length_keys_le s.freq
  have hentry : ∀ e ∈ treeCodes s.freq,
      2 ^ (255 - (symGet (writeBuild s).clen e.1).toNat) = 2 ^ (255 - e.2.length) := fun e he => by
    rw [toNat_clen_writeBuild (c := e.2) (by rw [buildCodes_eq_treeCodes htwo]; exact he)]
  rw [codeDomain_writeBuild, ← ((map_fst_treeCodes_perm hkeys).map _).sum_eq, List.map_map]
  calc _ = ((treeCodes s.freq).map fun e => 2 ^ (255 - e.2.length)).sum :=
        congrArg List.sum (List.map_congr_left hentry)
    _ = 2 ^ 255 := hF.sum_kraft_codesUnder 255 ((buildTree s.freq).length - 1) (by omega) []
        (by rw [List.length_nil]; omega)

/-- Every infinite bit sequence begins with a code (R100). -/
theorem exists_begins_codeOf_writeBuild (bits : Nat → Bool) :
    ∃ x, symGet (writeBuild s).clen x ≠ 0 ∧ Begins bits (codeOf (writeBuild s) x) := by
  have hkeys : keys s.freq ≠ [] := List.ne_nil_of_length_pos (by omega)
  obtain ⟨root, hF⟩ := forest_buildTree hkeys
  have hlen := length_buildTree s.freq
  obtain ⟨⟨x, c⟩, he, hb⟩ :=
    hF.exists_begins_of_begins bits ((buildTree s.freq).length - 1) (by omega) [] rfl
  have hmem : (x, c) ∈ buildCodes (keys s.freq) (buildTree s.freq) := by
    rw [buildCodes_eq_treeCodes htwo]
    exact he
  have hkey : x ∈ keys s.freq :=
    (map_fst_buildCodes_perm s.freq).mem_iff.1 (List.mem_map_of_mem hmem)
  exact ⟨x, clen_writeBuild_ne_zero_iff.2 (mem_keys.1 hkey), (codeOf_writeBuild hmem).symm ▸ hb⟩

end TwoKeys

/-- In a table that meets R15 a sequence begins with at most one code. -/
theorem CodeInv.eq_of_begins {t : State} (hinv : CodeInv t) {bits : Nat → Bool} {x y : Byte}
    (hx : symGet t.clen x ≠ 0) (hy : symGet t.clen y ≠ 0) (hbx : Begins bits (codeOf t x))
    (hby : Begins bits (codeOf t y)) : y = x := by
  obtain ⟨-, hfree, -⟩ := hinv
  by_contra hne
  rcases hbx.prefix_or_prefix hby with h | h
  · exact hfree x y (Ne.symm hne) hx hy h
  · exact hfree y x hne hy hx h

/-- Settles O31: the sums and the walk down the tree, and the one code of one key. -/
theorem buildResultShape : Obligations.BuildResultShape := by
  intro s
  obtain ⟨t, ht, hnodes, hl, hb⟩ := exists_exec_build s
  have hlen := length_buildTree s.freq
  have hdom : codeDomain t = codeDomain (writeBuild s) := by rw [codeDomain, codeDomain, hl]
  refine ⟨t, ht, ?_⟩
  rw [hnodes, hdom, codeOf_congr hl hb, hl]
  refine ⟨fun h => by omega, fun h => ⟨by omega, ?_⟩, by rw [codeDomain_writeBuild],
    fun htwo => ⟨toNat_clen_writeBuild_le htwo, sum_kraft_writeBuild htwo, fun bits => ?_⟩,
    fun hone x hx => ?_⟩
  · exact freqAt_root_buildTree (List.ne_nil_of_length_pos h)
  · obtain ⟨x, hx, hbx⟩ := exists_begins_codeOf_writeBuild htwo bits
    simp only [← length_codeOf]
    exact ⟨x, ⟨hx, hbx⟩, fun y hy hby => (codeInv_writeBuild s).eq_of_begins hx hy hbx hby⟩
  · obtain ⟨y, hk⟩ := List.length_eq_one_iff.1 hone
    have hxy : x ∈ [y] := hk ▸ mem_keys.2 (clen_writeBuild_ne_zero_iff.1 hx)
    rw [List.mem_singleton.1 hxy]
    exact codeOf_writeBuild (mem_buildCodes_singleton hk)

end Sys2Proof.Machine
end

section
/-!
PROOFS. The optimality of BUILD's codes (spec/41_build.md R99). The lengths of a code map free of
overlaps satisfy Kraft's inequality. Among all lengths that satisfy it, some least one gives the two
least frequent nodes the same greatest length; so by induction over BUILD's merges, from the last to
the first, the depths in BUILD's tree are least.
-/

namespace Sys2Proof.Machine

open Sys2Proof

/-! ### Kraft's inequality -/

/-- Where no code is empty or begins another, a concatenation of codes can be read in one way. -/
theorem uniquelyDecodable_of_prefixFree {S : Set Bits} (hne : [] ∉ S)
    (hfree : ∀ c ∈ S, ∀ d ∈ S, c <+: d → c = d) : InformationTheory.UniquelyDecodable S := by
  intro l
  induction l with
  | nil =>
    intro m _ hm h
    cases m with
    | nil => rfl
    | cons d m =>
      have hd : d = [] := (List.append_eq_nil_iff.1 h.symm).1
      exact absurd (hd ▸ hm d List.mem_cons_self) hne
  | cons c l ih =>
    intro m hl hm h
    cases m with
    | nil =>
      have hc : c = [] := (List.append_eq_nil_iff.1 h).1
      exact absurd (hc ▸ hl c List.mem_cons_self) hne
    | cons d m =>
      rw [List.flatten_cons, List.flatten_cons] at h
      have hc := hl c List.mem_cons_self
      have hd := hm d List.mem_cons_self
      have hcd : c = d := by
        rcases List.prefix_or_prefix_of_prefix (h ▸ List.prefix_append c l.flatten)
          (List.prefix_append d m.flatten) with hp | hp
        · exact hfree c hc d hd hp
        · exact (hfree d hd c hc hp).symm
      subst hcd
      rw [ih m (fun w hw => hl w (List.mem_cons_of_mem _ hw))
        (fun w hw => hm w (List.mem_cons_of_mem _ hw)) (List.append_cancel_left h)]

section Lengths

variable {ι : Type}

/-- Kraft's sum of the lengths `len` over `S`: the sum of `2 ^ -len x`. -/
noncomputable def kraftSum (S : Finset ι) (len : ι → Nat) : ℝ := ∑ x ∈ S, (1 / 2) ^ len x

/-- Kraft's sum is a multiple of its least possible term, so where it is below 1 there is room for
one more such term. -/
theorem kraftSum_add_pow_le_one {S : Finset ι} {len : ι → Nat} {m : Nat} (hm : ∀ c ∈ S, len c ≤ m)
    (hlt : kraftSum S len < 1) : kraftSum S len + (1 / 2) ^ m ≤ 1 := by
  have hsum : kraftSum S len = ((∑ c ∈ S, 2 ^ (m - len c) : Nat) : ℝ) / 2 ^ m := by
    rw [kraftSum, Nat.cast_sum, Finset.sum_div]
    refine Finset.sum_congr rfl fun c hc => ?_
    obtain ⟨d, hd⟩ := Nat.exists_eq_add_of_le (hm c hc)
    rw [hd, Nat.add_sub_cancel_left, pow_add, one_div_pow, Nat.cast_pow, Nat.cast_ofNat]
    field_simp
  have hpos : (0 : ℝ) < 2 ^ m := by positivity
  rw [hsum, div_lt_one hpos] at hlt
  rw [hsum, one_div_pow, ← add_div, div_le_one hpos]
  exact_mod_cast Nat.succ_le_of_lt (by exact_mod_cast hlt)

variable [DecidableEq ι]

theorem kraftSum_insert {S : Finset ι} {a : ι} (ha : a ∉ S) (len : ι → Nat) :
    kraftSum (insert a S) len = (1 / 2) ^ len a + kraftSum S len := Finset.sum_insert ha

/-- The lengths of a code map free of overlaps satisfy Kraft's inequality. -/
theorem kraftSum_length_le_one {S : Finset ι} {codes : ι → Bits} (hne : ∀ x ∈ S, codes x ≠ [])
    (hfree : ∀ x ∈ S, ∀ y ∈ S, x ≠ y → ¬ codes x <+: codes y) :
    kraftSum S (fun x => (codes x).length) ≤ 1 := by
  have hinj : Set.InjOn codes S := fun x hx y hy hxy => by
    by_contra hn
    exact hfree x hx y hy hn (hxy ▸ List.prefix_refl _)
  have hdec : InformationTheory.UniquelyDecodable ((S.image codes : Finset Bits) : Set Bits) := by
    refine uniquelyDecodable_of_prefixFree (fun h => ?_) fun c hc d hd hcd => ?_
    · obtain ⟨x, hx, hnil⟩ := Finset.mem_image.1 h
      exact hne x hx hnil
    · obtain ⟨x, hx, rfl⟩ := Finset.mem_image.1 hc
      obtain ⟨y, hy, rfl⟩ := Finset.mem_image.1 hd
      by_contra hn
      exact hfree x hx y hy (fun e => hn (congrArg codes e)) hcd
  have hkraft := InformationTheory.kraft_mcmillan_inequality hdec
  rwa [Finset.sum_image hinj, Fintype.card_bool, Nat.cast_ofNat] at hkraft

/-! ### Exchanges -/

/-- Exchanging the lengths of two elements keeps Kraft's sum. -/
theorem kraftSum_comp_swap {S : Finset ι} {a b : ι} (ha : a ∈ S) (hb : b ∈ S) (len : ι → Nat) :
    kraftSum S (fun c => len (Equiv.swap a b c)) = kraftSum S len := by
  refine Equiv.Perm.sum_comp (Equiv.swap a b) S (fun c => (1 / 2 : ℝ) ^ len c) fun c hc => ?_
  by_contra hn
  exact hc (Equiv.swap_apply_of_ne_of_ne (fun e => hn (e ▸ ha)) fun e => hn (e ▸ hb))

/-- What exchanging the lengths of two elements does to the weighted sum. -/
theorem sum_mul_comp_swap {S : Finset ι} {a b : ι} (ha : a ∈ S) (hb : b ∈ S) (w len : ι → Nat) :
    ∑ c ∈ S, w c * len (Equiv.swap a b c) + (w a * len a + w b * len b) =
      ∑ c ∈ S, w c * len c + (w a * len b + w b * len a) := by
  rcases eq_or_ne a b with rfl | hab
  · simp
  · have hb' : b ∈ S.erase a := Finset.mem_erase.2 ⟨hab.symm, hb⟩
    have hrest : ∑ c ∈ (S.erase a).erase b, w c * len (Equiv.swap a b c) =
        ∑ c ∈ (S.erase a).erase b, w c * len c :=
      Finset.sum_congr rfl fun c hc => by
        simp only [Finset.mem_erase] at hc
        rw [Equiv.swap_apply_of_ne_of_ne hc.2.1 hc.1]
    rw [← Finset.add_sum_erase S _ ha, ← Finset.add_sum_erase S _ ha,
      ← Finset.add_sum_erase (S.erase a) _ hb', ← Finset.add_sum_erase (S.erase a) _ hb', hrest,
      Equiv.swap_apply_left, Equiv.swap_apply_right]
    omega

/-- Lengths may be exchanged so that an element of least weight has the greatest length, at no
cost. -/
theorem exists_lengths_max_at {S : Finset ι} {w : ι → Nat} {a : ι} (ha : a ∈ S)
    (hw : ∀ c ∈ S, w a ≤ w c) (len : ι → Nat) :
    ∃ len' : ι → Nat, (∀ c ∈ S, len' c ≤ len' a) ∧ (∃ c ∈ S, len' a = len c) ∧
      (∀ c ∉ S, len' c = len c) ∧ kraftSum S len' = kraftSum S len ∧
      ∑ c ∈ S, w c * len' c ≤ ∑ c ∈ S, w c * len c := by
  obtain ⟨m, hm, hmax⟩ := Finset.exists_max_image S len ⟨a, ha⟩
  refine ⟨fun c => len (Equiv.swap a m c), fun c hc => ?_, ⟨m, hm, by simp⟩, fun c hc => ?_,
    kraftSum_comp_swap ha hm len, ?_⟩
  · simp only [Equiv.swap_apply_left]
    rw [Equiv.swap_apply_def]
    split_ifs
    · exact le_rfl
    · exact hmax a ha
    · exact hmax c hc
  · exact congrArg len
      (Equiv.swap_apply_of_ne_of_ne (ne_of_mem_of_not_mem ha hc).symm
        (ne_of_mem_of_not_mem hm hc).symm)
  · have hsum := sum_mul_comp_swap ha hm w len
    have := mul_add_mul_le_mul_add_mul (hw m hm) (hmax a ha)
    beta_reduce
    omega

/-- Lengths that satisfy Kraft's inequality may be changed at no cost so that the two elements of
least weight have the same length, one more than a parent `h` that stands in their place. -/
theorem exists_sibling_lengths {R : Finset ι} {w : ι → Nat} {a b h : ι} (ha : a ∉ insert b R)
    (hb : b ∉ R) (hh : h ∉ R) (hwa : w a ≤ w b) (hwb : ∀ c ∈ R, w b ≤ w c) {len : ι → Nat}
    (hk : kraftSum (insert a (insert b R)) len ≤ 1) :
    ∃ len' : ι → Nat, kraftSum (insert h R) len' ≤ 1 ∧
      (w a + w b) * (len' h + 1) + ∑ c ∈ R, w c * len' c ≤
        ∑ c ∈ insert a (insert b R), w c * len c := by
  obtain ⟨len₁, hmax₁, -, -, hk₁, hcost₁⟩ :=
    exists_lengths_max_at (Finset.mem_insert_self a (insert b R)) (w := w)
      (by simpa using ⟨hwa, fun c hc => hwa.trans (hwb c hc)⟩) len
  obtain ⟨len₂, hmax₂, ⟨d, hd, hbd⟩, hkeep₂, hk₂, hcost₂⟩ :=
    exists_lengths_max_at (Finset.mem_insert_self b R) (w := w) (by simpa using hwb) len₁
  rw [← hk₁, kraftSum_insert ha, ← hk₂, ← hkeep₂ a ha] at hk
  rw [Finset.sum_insert ha, ← hkeep₂ a ha] at hcost₁
  rw [Finset.sum_insert hb] at hcost₂
  have hba : len₂ b ≤ len₂ a := by
    rw [hbd, hkeep₂ a ha]
    exact hmax₁ d (Finset.mem_insert_of_mem hd)
  have hposa : (0 : ℝ) < (1 / 2) ^ len₂ a := by positivity
  have hposR : 0 ≤ kraftSum R len₂ := Finset.sum_nonneg fun c _ => by positivity
  have hroom := kraftSum_add_pow_le_one hmax₂ (by linarith)
  rw [kraftSum_insert hb] at hroom
  cases hm : len₂ b with
  | zero =>
    rw [hm, pow_zero] at hroom
    linarith
  | succ m =>
    have hrest : ∀ c ∈ R, Function.update len₂ h m c = len₂ c := fun c hc =>
      Function.update_of_ne (ne_of_mem_of_not_mem hc hh) _ _
    refine ⟨Function.update len₂ h m, ?_, ?_⟩
    · rw [kraftSum_insert hh, Function.update_self, kraftSum,
        Finset.sum_congr rfl fun c hc => congrArg ((1 / 2 : ℝ) ^ ·) (hrest c hc), ← kraftSum]
      rw [hm, pow_succ] at hroom
      linarith
    · rw [Function.update_self, Finset.sum_congr rfl fun c hc => congrArg (w c * ·) (hrest c hc),
        add_mul]
      have := Nat.mul_le_mul_left (w a) (hm ▸ hba)
      rw [hm] at hcost₂
      omega

end Lengths

/-! ### The depths in BUILD's tree -/

/-- The nodes in the queue when the node in slot `h` is made. -/
noncomputable def queuedNodes (nodes : List Node) (h : Nat) : Finset Nat :=
  open Classical in (Finset.range h).filter (QueuedAt nodes h)

@[simp] theorem mem_queuedNodes {nodes : List Node} {h c : Nat} :
    c ∈ queuedNodes nodes h ↔ QueuedAt nodes h c := by
  simp only [queuedNodes, Finset.mem_filter, Finset.mem_range]
  exact ⟨And.right, fun hc => ⟨hc.1, hc⟩⟩

/-- Making the node in slot `h` takes its children out of the queue and puts it in (R93). -/
theorem Forest.queuedNodes_succ {n : Nat} {nodes : List Node} {q : List QueueEntry}
    (hF : Forest n nodes q) {h a b : Nat} (hc : HasChildren nodes h a b) :
    queuedNodes nodes (h + 1) = insert h (((queuedNodes nodes h).erase a).erase b) := by
  ext c
  have hchild : IsChild nodes h c ↔ c = a ∨ c = b :=
    ⟨fun ⟨x, y, hxy, hcxy⟩ => by
      obtain ⟨rfl, rfl⟩ := hxy.unique hc
      exact hcxy, fun h => ⟨a, b, hc, h⟩⟩
  simp only [Finset.mem_insert, Finset.mem_erase, mem_queuedNodes, QueuedAt]
  constructor
  · rintro ⟨hlt, hno⟩
    rcases Nat.lt_succ_iff_lt_or_eq.1 hlt with hlt | rfl
    · have := mt hchild.2 (hno h (Nat.lt_succ_self h))
      rw [not_or] at this
      exact .inr ⟨this.2, this.1, hlt, fun k hk => hno k (Nat.lt_succ_of_lt hk)⟩
    · exact .inl rfl
  · rintro (rfl | ⟨hcb, hca, hlt, hno⟩)
    · exact ⟨Nat.lt_succ_self _, fun k hk hch => by have := hF.child_lt hch; omega⟩
    · refine ⟨Nat.lt_succ_of_lt hlt, fun k hk => ?_⟩
      rcases Nat.lt_succ_iff_lt_or_eq.1 hk with hk | rfl
      · exact hno k hk
      · exact fun hch => (hchild.1 hch).elim hca hcb

theorem LessFrequent.freqAt_le {nodes : List Node} {a b : Nat} (h : LessFrequent nodes a b) :
    freqAt nodes a ≤ freqAt nodes b := h.elim Nat.le_of_lt fun h => h.1.le

/-- A merge as sets: out of the queue, two least nodes and the others, one parent and the others are
made. -/
theorem MergesTwoLeast.exists_rest {n : Nat} {nodes : List Node} {q : List QueueEntry} {h a b : Nat}
    (hm : MergesTwoLeast nodes h a b) (hF : Forest n nodes q) :
    ∃ R : Finset Nat, a ∉ insert b R ∧ b ∉ R ∧ h ∉ R ∧
      queuedNodes nodes h = insert a (insert b R) ∧ queuedNodes nodes (h + 1) = insert h R ∧
      ∀ c ∈ R, freqAt nodes b ≤ freqAt nodes c := by
  have hab := (hF.merge_of_hasChildren hm.children).1
  have hb : b ∈ (queuedNodes nodes h).erase a :=
    Finset.mem_erase.2 ⟨hab.symm, mem_queuedNodes.2 hm.right⟩
  have hrest : ∀ c ∈ ((queuedNodes nodes h).erase a).erase b,
      c ≠ b ∧ c ≠ a ∧ QueuedAt nodes h c := fun c hc => by simpa using hc
  refine ⟨_, ?_, Finset.notMem_erase b _, fun hh => Nat.lt_irrefl h (hrest h hh).2.2.1, ?_,
    hF.queuedNodes_succ hm.children, fun c hc => ?_⟩
  · rw [Finset.insert_erase hb]
    exact Finset.notMem_erase a _
  · rw [Finset.insert_erase hb, Finset.insert_erase (mem_queuedNodes.2 hm.left)]
  · obtain ⟨hcb, hca, hq⟩ := hrest c hc
    exact (hm.least c hq hca hcb).freqAt_le

/-- At every merge, the depths of the queue's nodes in the tree that BUILD ends with are least among
all lengths that satisfy Kraft's inequality. -/
theorem MergeOrder.sum_depth_le {n : Nat} {nodes : List Node} {root : QueueEntry}
    (hM : MergeOrder n nodes [root]) {h : Nat} (hn : n ≤ h) (hle : h ≤ nodes.length)
    {len : Nat → Nat} (hk : kraftSum (queuedNodes nodes h) len ≤ 1) :
    ∑ c ∈ queuedNodes nodes h, freqAt nodes c * (pathOf nodes c).length ≤
      ∑ c ∈ queuedNodes nodes h, freqAt nodes c * len c := by
  have hF := hM.toForest
  induction hle using Nat.decreasingInduction generalizing len with
  | self =>
    refine (Finset.sum_eq_zero fun c hc => ?_).trans_le (Nat.zero_le _)
    obtain ⟨hlt, hno⟩ := mem_queuedNodes.1 hc
    have hroot : c = nodes.length - 1 := by
      by_contra hne
      obtain ⟨k, hk⟩ := hF.exists_isChild (c := c) (by omega)
      exact hno k hk.lt_length hk
    rw [hroot, hF.pathOf_root (List.ne_nil_of_length_pos (by omega)), List.length_nil, mul_zero]
  | of_succ h hh ih =>
    obtain ⟨a, b, hm⟩ := hM.merged h hn hh
    obtain ⟨R, ha, hb, hhR, hnow, hnext, hleast⟩ := hm.exists_rest hF
    rw [hnow] at hk ⊢
    rw [hnext] at ih
    obtain ⟨len', hk', hcost⟩ :=
      exists_sibling_lengths ha hb hhR hm.ordered.freqAt_le hleast hk
    have hparent := ih (Nat.le_succ_of_le hn) hk'
    obtain ⟨hpa, hpb⟩ := hF.pathOf_children hm.children
    rw [Finset.sum_insert hhR, Finset.sum_insert hhR,
      (hF.merge_of_hasChildren hm.children).2] at hparent
    refine le_trans ?_ hcost
    rw [Finset.sum_insert ha, Finset.sum_insert hb, hpa, hpb, List.length_append,
      List.length_append, List.length_singleton, List.length_singleton]
    simp only [add_mul, mul_add] at hparent ⊢
    omega

/-! ### The depths of the keys -/

theorem queuedNodes_leaves {n : Nat} {nodes : List Node} {q : List QueueEntry}
    (hF : Forest n nodes q) : queuedNodes nodes n = Finset.range n := by
  ext c
  rw [mem_queuedNodes, Finset.mem_range]
  exact ⟨And.left, fun hc => ⟨hc, fun k hk => (hF.leaf k hk).not_isChild c⟩⟩

/-- A sum over the positions of a list is a sum over its entries. -/
theorem sum_range_getD {α : Type} [AddCommMonoid α] (l : List Byte) (f : Byte → α) :
    ∑ i ∈ Finset.range l.length, f (l.getD i 0) = (l.map f).sum := by
  induction l with
  | nil => rfl
  | cons x l ih =>
    rw [List.length_cons, Finset.sum_range_succ', List.map_cons, List.sum_cons, ← ih, add_comm]
    rfl

/-- The weighted length is a sum over the keys. -/
theorem weightedLength_eq_sum_keys (freq : Vector Word64 256) (len : Byte → Nat) :
    weightedLength freq len = ((keys freq).map fun x => (symGet freq x).toNat * len x).sum :=
  sum_allSymbols_eq_sum_keys fun x hx => by rw [hx]; exact Nat.zero_mul _

/-- BUILD's code lengths are least among all lengths of keys that satisfy Kraft's inequality. -/
theorem weightedLength_writeBuild_le {s : State} (htwo : 2 ≤ (keys s.freq).length)
    {len : Byte → Nat} (hk : kraftSum (keys s.freq).toFinset len ≤ 1) :
    weightedLength s.freq (fun x => (symGet (writeBuild s).clen x).toNat) ≤
      weightedLength s.freq len := by
  obtain ⟨root, hM⟩ := mergeOrder_buildTree (freq := s.freq) (List.ne_nil_of_length_pos (by omega))
  have hlen := length_buildTree s.freq
  have hleaf : ∀ t ∈ Finset.range (keys s.freq).length,
      freqAt (buildTree s.freq) t = (symGet s.freq ((keys s.freq).getD t 0)).toNat ∧
      (pathOf (buildTree s.freq) t).length =
        (symGet (writeBuild s).clen ((keys s.freq).getD t 0)).toNat := fun t ht => by
    rw [Finset.mem_range] at ht
    rw [List.getD_eq_getElem _ _ ht, toNat_clen_writeBuild (mem_buildCodes_pathOf htwo ht),
      freqAt_of_getElem? (getElem?_buildTree ht), toNat_freq_leafNode]
    exact ⟨rfl, rfl⟩
  have hdepth := hM.sum_depth_le le_rfl (by omega : (keys s.freq).length ≤ _)
    (len := fun t => len ((keys s.freq).getD t 0)) (by
      rw [queuedNodes_leaves hM.toForest, kraftSum,
        sum_range_getD (keys s.freq) (fun x => (1 / 2 : ℝ) ^ len x),
        ← List.sum_toFinset _ (keys_nodup s.freq)]
      exact hk)
  rw [queuedNodes_leaves hM.toForest] at hdepth
  rw [weightedLength_eq_sum_keys, weightedLength_eq_sum_keys, ← sum_range_getD, ← sum_range_getD]
  calc _ = _ := Finset.sum_congr rfl fun t ht => by rw [← (hleaf t ht).1, ← (hleaf t ht).2]
    _ ≤ _ := hdepth
    _ = _ := Finset.sum_congr rfl fun t ht => by rw [(hleaf t ht).1]

/-- Settles O29: the lengths of a code map free of overlaps satisfy Kraft's inequality. -/
theorem buildIsOptimal : Obligations.BuildIsOptimal := by
  intro s htwo
  obtain ⟨t, ht, -, hl, -⟩ := exists_exec_build s
  refine ⟨t, ht, fun codes hne hfree => ?_⟩
  rw [hl]
  exact weightedLength_writeBuild_le htwo
    (kraftSum_length_le_one (by simpa using hne) (by simpa using hfree))

/-- The lengths of BUILD's codes satisfy Kraft's inequality. -/
theorem kraftSum_writeBuild_le_one (s : State) :
    kraftSum (keys s.freq).toFinset (fun x => (symGet (writeBuild s).clen x).toNat) ≤ 1 := by
  obtain ⟨hlen, hfree, -⟩ := codeInv_writeBuild s
  have hcode : ∀ x ∈ (keys s.freq).toFinset, symGet (writeBuild s).clen x ≠ 0 := fun x hx =>
    clen_writeBuild_ne_zero_iff.2 (mem_keys.1 (List.mem_toFinset.1 hx))
  simp only [← length_codeOf]
  exact kraftSum_length_le_one
    (fun x hx => List.ne_nil_of_length_pos (hlen x (hcode x hx)).1)
    fun x hx y hy hxy => hfree x y hxy (hcode x hx) (hcode y hy)

/-- Settles O30: otherwise exchanging the two lengths would make the weighted length smaller. -/
theorem frequentSymbolsHaveShortCodes : Obligations.FrequentSymbolsHaveShortCodes := by
  intro s
  obtain ⟨t, ht, -, hl, -⟩ := exists_exec_build s
  refine ⟨t, ht, fun x y hx hy hlt => ?_⟩
  rw [hl]
  have hxy : x ≠ y := fun e => by rw [e] at hlt; exact Nat.lt_irrefl _ hlt
  have hsub : [x, y].Subperm (keys s.freq) :=
    (show [x, y].Nodup by simpa using hxy).subperm (by simpa using ⟨hx, hy⟩)
  have hx' : x ∈ (keys s.freq).toFinset := by simpa using hx
  have hy' : y ∈ (keys s.freq).toFinset := by simpa using hy
  have hopt := weightedLength_writeBuild_le hsub.length_le
    ((kraftSum_comp_swap hx' hy' _).trans_le (kraftSum_writeBuild_le_one s))
  rw [weightedLength_eq_sum_keys, weightedLength_eq_sum_keys,
    ← List.sum_toFinset _ (keys_nodup s.freq), ← List.sum_toFinset _ (keys_nodup s.freq)] at hopt
  have hswap := sum_mul_comp_swap hx' hy' (fun c => (symGet s.freq c).toNat)
    fun c => (symGet (writeBuild s).clen c).toNat
  by_contra hlong
  have := mul_add_mul_lt_mul_add_mul hlt (Nat.lt_of_not_le hlong)
  omega

end Sys2Proof.Machine
end

section
/-!
PROOFS. The Bit Codec (spec/42_codec.md R105 to R115): what ENCODE stores, what a scan emits and
leaves over, and what DECODE delivers. A scan emits codes that spell the bits it consumed, so where
no code begins another it emits the very bytes whose codes the bits begin with.
-/

namespace Sys2Proof.Machine

open Sys2Proof

/-! ### Sizes -/

/-- R5: no capacity exceeds 2^48 bytes, so what fits a buffer is counted in 64 bits without loss. -/
theorem capacity_le_of_wellFormed {c : Config} (hwf : c.wellFormed = true) (b : Buffer) :
    c.capacity b ≤ 2 ^ 48 := by
  have hrange := List.all_eq_true.1 hwf (c.capacity b) (by cases b <;> simp [Config.capacity])
  rw [Bool.and_eq_true, decide_eq_true_eq, decide_eq_true_eq] at hrange
  exact hrange.2

theorem length_lt_of_fits_bbuf {c : Config} (hwf : c.wellFormed = true) {bits : Bits}
    (h : bits.length ≤ 8 * c.bbufBytes) : bits.length < 2 ^ 64 := by
  have hcap : c.bbufBytes ≤ 2 ^ 48 := capacity_le_of_wellFormed hwf .bbuf
  omega

theorem length_lt_of_fits_obuf {c : Config} (hwf : c.wellFormed = true) {bs : List Byte}
    (h : bs.length ≤ c.obufBytes) : bs.length < 2 ^ 64 := by
  have hcap : c.obufBytes ≤ 2 ^ 48 := capacity_le_of_wellFormed hwf .obuf
  omega

/-! ### ENCODE -/

/-- R106: the end of ENCODE where every byte has a code and the result fits. -/
theorem exec_encode_of_fits {s : State} (hfit : s.inLen.toNat ≤ s.config.ibufBytes)
    (hcoded : ∀ x ∈ inputBytes s, symGet s.clen x ≠ 0)
    (hroom : ((inputBytes s).flatMap (codeOf s)).length ≤ 8 * s.config.bbufBytes) :
    exec .encode s = .next (finishOk (writeEncoded s ((inputBytes s).flatMap (codeOf s)))) := by
  have hlen := encodedLength_ok (i := 0) (n := 0) hcoded
  rw [Nat.zero_add] at hlen
  rcases execEncode_cases s with
    ⟨hlong, -⟩ | ⟨-, e, he, -⟩ | ⟨-, n, hn, hfull, -⟩ | ⟨-, -, -, -, hr⟩
  · exact absurd hlong (Nat.not_lt.2 hfit)
  · cases hlen.symm.trans he
  · cases hlen.symm.trans hn
    exact absurd hfull (Nat.not_lt.2 hroom)
  · exact hr

section Stored

variable (s : State) {bits : Bits} (h : bits.length < 2 ^ 64)

include h

theorem toNat_bitLen_writeEncoded : (writeEncoded s bits).bitLen.toNat = bits.length := by
  rw [writeEncoded_bitLen, BitVec.toNat_ofNat, Nat.mod_eq_of_lt h]

/-- The bytes of `BBUF` up to `BIT_LEN`, right after `bits` were stored. -/
theorem readBytes_writeEncoded :
    readBytes (writeEncoded s bits) .bbuf 0 (ceil8 (writeEncoded s bits).bitLen.toNat) =
      packBits bits := by
  rw [toNat_bitLen_writeEncoded s h, ← length_packBits]
  exact readBytes_writeBytes s .bbuf 0 (packBits bits)

/-- EncodedBits are the bits just stored (R17). -/
theorem encodedBits_writeEncoded : encodedBits (writeEncoded s bits) = bits := by
  rw [encodedBits, readBytes_writeEncoded s h, toNat_bitLen_writeEncoded s h, unpackBits_packBits]

end Stored

/-- R43: a bit of a buffer is the same bit of the bytes read from it. -/
theorem bitRead_eq_bitOfBytes {s : State} {b : Buffer} {n i : Nat} (hi : i < 8 * n) :
    bitRead s b i = bitOfBytes (readBytes s b 0 n) i := by
  rw [bitRead, bitOfBytes, List.getD_eq_getElem?_getD,
    getElem?_readBytes s b 0 n (i / 8) (by omega), Nat.zero_add, Option.getD_some]

/-- Settles O32: the check pass finds every code and its room, and unpacking undoes packing. -/
theorem encodeConcatenatesTheCodes : Obligations.EncodeConcatenatesTheCodes := by
  intro s hwf hfit hcoded hroom
  have hlt := length_lt_of_fits_bbuf hwf hroom
  have hend := toNat_bitLen_writeEncoded s hlt
  refine ⟨_, exec_encode_of_fits hfit hcoded hroom, ⟨rfl, rfl, rfl⟩, rfl,
    hend, encodedBits_writeEncoded s hlt, readBytes_writeEncoded s hlt,
    fun j hj hj8 => ?_⟩
  rw [bitRead_eq_bitOfBytes hj8]
  refine (congrArg (bitOfBytes · j) (readBytes_writeEncoded s hlt)).trans ?_
  rw [bitOfBytes_packBits]
  exact List.getD_eq_default _ _ (hend.symm.trans_le hj)

/-! ### What a scan emits and leaves over -/

/-- No code begins the bits `p`: a scan that has gathered `p` has not passed a code (R108). -/
def NoCodeBegins (s : State) (p : Bits) : Prop :=
  ∀ x, symGet s.clen x ≠ 0 → ¬ codeOf s x <+: p

/-- `r` accounts for `bits`, whose end stands at position `stop`: the codes of the bytes emitted and
then the residual are the bits, and the residual is no longer than it must be (R108, R115 (a)). -/
structure Scan.Accounts (s : State) (bits : Bits) (stop : Nat) (r : Scan) : Prop where
  reencode : r.out.flatMap (codeOf s) ++ r.cand = bits
  coded : ∀ x ∈ r.out, symGet s.clen x ≠ 0
  residual : NoCodeBegins s r.cand
  start : r.cand ≠ [] → r.start + r.cand.length = stop

theorem codeOf_ne_nil {s : State} {x : Byte} (hx : symGet s.clen x ≠ 0) : codeOf s x ≠ [] := by
  rw [← List.length_pos_iff, length_codeOf, Nat.pos_iff_ne_zero]
  exact BitVec.toNat_ne_iff_ne.2 hx

theorem noCodeBegins_nil (s : State) : NoCodeBegins s [] := fun _ hx hp =>
  codeOf_ne_nil hx (List.prefix_nil.1 hp)

/-- A candidate that the reverse map does not know has passed no code either. -/
theorem NoCodeBegins.append_singleton {s : State} {p : Bits} {b : Bool} (hp : NoCodeBegins s p)
    (hnone : symbolOfCode (codeMap s) (p ++ [b]) = none) : NoCodeBegins s (p ++ [b]) := by
  intro x hx hc
  rcases List.prefix_concat_iff.1 hc with heq | hpre
  · exact symbolOfCode_none.1 hnone (x, codeOf s x) (mem_codeMap.2 ⟨hx, rfl⟩) heq
  · exact hp x hx hpre

/-- A scan accounts for the candidate it starts with and the bits it reads. -/
theorem accounts_scanBits {s : State} {bits cand : Bits} {j start : Nat}
    (hcand : NoCodeBegins s cand) (hstart : cand ≠ [] → start + cand.length = j) :
    (scanBits (codeMap s) bits j cand start).Accounts s (cand ++ bits) (j + bits.length) := by
  induction bits generalizing cand j start with
  | nil => exact ⟨by simp [scanBits], by simp [scanBits], hcand, hstart⟩
  | cons b rest ih =>
    have hstop : j + (b :: rest).length = j + 1 + rest.length := by
      rw [List.length_cons]
      omega
    rw [scanBits, hstop]
    cases hx : symbolOfCode (codeMap s) (cand ++ [b]) with
    | some x =>
      obtain ⟨hcoded, hcode⟩ := mem_codeMap.1 (symbolOfCode_some hx)
      have hr := ih (j := j + 1) (start := if cand.isEmpty then j else start) (noCodeBegins_nil s)
        fun h => absurd rfl h
      refine ⟨?_, List.forall_mem_cons.2 ⟨hcoded, hr.coded⟩, hr.residual, hr.start⟩
      rw [List.flatMap_cons, ← hcode, List.append_assoc, hr.reencode]
      simp
    | none =>
      rw [List.append_cons]
      refine ih (hcand.append_singleton hx) fun _ => ?_
      cases cand with
      | nil => rfl
      | cons c cs =>
        have := hstart (List.cons_ne_nil c cs)
        rw [List.length_append, ← Nat.add_assoc]
        exact congrArg (· + 1) this

/-- `decode` accounts for the whole bit sequence (R115 (a)). -/
theorem accounts_decodeBits (s : State) (bits : Bits) :
    (decodeBits (codeMap s) bits).Accounts s bits bits.length := by
  rw [decodeBits]
  simpa using accounts_scanBits (bits := bits) (j := 0) (start := 0) (noCodeBegins_nil s)
    fun h => absurd rfl h

/-- Settles O34: an induction over the bits, with the candidate gathered so far. -/
theorem decodeScanAccountsForEveryBit : Obligations.DecodeScanAccountsForEveryBit := by
  intro s bits
  have h := accounts_decodeBits s bits
  exact ⟨h.reencode, h.coded, fun c _ hc x hx heq => h.residual x hx (heq ▸ hc), h.start⟩

/-! ### DECODE -/

/-- AmbiguousTrailingBits in `ERR_POS`: where the residual starts (R154). -/
theorem toNat_pos_ambiguousTrailingBits {n : Nat} (h : n < 2 ^ 64) :
    (CmdError.ambiguousTrailingBits n).pos.toNat = n := by
  rw [CmdError.pos, BitVec.toNat_ofNat, Nat.mod_eq_of_lt h]

/-- Settles O35: the residual starts as many bits before `BIT_LEN` as it has. -/
theorem decodeDeliversTheScan : Obligations.DecodeDeliversTheScan := by
  intro s hwf hbits hroom
  have hlt := length_lt_of_fits_obuf hwf hroom
  have hout := outputBytes_writeOutput (s := s) hlt
  have hlen := (length_outputBytes (writeOutput s _)).symm.trans (congrArg List.length hout)
  rcases execDecode_cases s with
    ⟨hlong, -⟩ | ⟨-, hfull, -⟩ | ⟨-, -, hcand, hr⟩ | ⟨-, -, hcand, hr⟩
  · exact absurd hlong (Nat.not_lt.2 hbits)
  · exact absurd hfull (Nat.not_lt.2 hroom)
  · exact ⟨_, hr, hout, hlen, fun _ => ⟨⟨rfl, rfl, rfl⟩, rfl⟩, absurd hcand⟩
  · have hstart := (accounts_decodeBits s (encodedBits s)).start hcand
    rw [length_encodedBits] at hstart
    have hpos := toNat_pos_ambiguousTrailingBits
      (n := (decodeBits (codeMap s) (encodedBits s)).start) (by omega)
    exact ⟨_, hr, hout, hlen, fun h => absurd h hcand,
      fun _ => ⟨rfl, rfl, rfl, (congrArg (· + _) hpos).trans hstart⟩⟩

/-! ### Decoding what was encoded -/

/-- In a table that meets R15 at most one code begins a bit sequence. -/
theorem CodeInv.eq_of_prefix {s : State} (hinv : CodeInv s) {x y : Byte} {p : Bits}
    (hx : symGet s.clen x ≠ 0) (hy : symGet s.clen y ≠ 0) (hpx : codeOf s x <+: p)
    (hpy : codeOf s y <+: p) : x = y := by
  obtain ⟨-, hfree, -⟩ := hinv
  by_contra hne
  rcases List.prefix_or_prefix_of_prefix hpx hpy with h | h
  · exact hfree x y hne hx hy h
  · exact hfree y x (Ne.symm hne) hy hx h

/-- In a table that meets R15 the bytes whose codes a sequence begins with come first in every way
to read the sequence that leaves no code in its rest. -/
theorem CodeInv.prefix_of_reencode {s : State} (hinv : CodeInv s) {bs out : List Byte}
    {cand rest : Bits} (hbs : ∀ x ∈ bs, symGet s.clen x ≠ 0)
    (hout : ∀ x ∈ out, symGet s.clen x ≠ 0) (hcand : NoCodeBegins s cand)
    (h : out.flatMap (codeOf s) ++ cand = bs.flatMap (codeOf s) ++ rest) : bs <+: out := by
  induction bs generalizing out with
  | nil => exact List.nil_prefix
  | cons x bs ih =>
    obtain ⟨hx, hbs⟩ := List.forall_mem_cons.1 hbs
    rw [List.flatMap_cons, List.append_assoc] at h
    have hpx := List.prefix_append (codeOf s x) (bs.flatMap (codeOf s) ++ rest)
    rw [← h] at hpx
    cases out with
    | nil => exact absurd hpx (hcand x hx)
    | cons y out =>
      obtain ⟨hy, hmore⟩ := List.forall_mem_cons.1 hout
      rw [List.flatMap_cons, List.append_assoc] at h hpx
      have hxy : x = y := hinv.eq_of_prefix hx hy hpx (List.prefix_append _ _)
      subst hxy
      exact List.cons_prefix_cons.2 ⟨rfl, ih hbs hmore (List.append_cancel_left h)⟩

/-- R113: whatever follows an encoding, its bytes are decoded first. -/
theorem CodeInv.prefix_out_decodeBits {s : State} (hinv : CodeInv s) {bs : List Byte}
    (hbs : ∀ x ∈ bs, symGet s.clen x ≠ 0) (rest : Bits) :
    bs <+: (decodeBits (codeMap s) (bs.flatMap (codeOf s) ++ rest)).out := by
  have h := accounts_decodeBits s (bs.flatMap (codeOf s) ++ rest)
  exact hinv.prefix_of_reencode hbs h.coded h.residual h.reencode

/-- Settles O41: the padding stands after the encoding. -/
theorem paddedDecodeBeginsWithTheTrueBytes : Obligations.PaddedDecodeBeginsWithTheTrueBytes :=
  fun _ _ n hinv hbs => hinv.prefix_out_decodeBits hbs (List.replicate n false)

/-- Settles O37: after the true bytes no bit is left for another byte or for a residual. -/
theorem decodeUndoesEncode : Obligations.DecodeUndoesEncode := by
  intro s bs hinv hbs
  have h := accounts_decodeBits s (bs.flatMap (codeOf s))
  obtain ⟨more, hmore⟩ := hinv.prefix_of_reencode (rest := []) hbs h.coded h.residual
    (by rw [h.reencode, List.append_nil])
  have hrest := h.reencode
  rw [← hmore, List.flatMap_append, List.append_assoc, List.append_right_eq_self,
    List.append_eq_nil_iff, List.flatMap_eq_nil_iff] at hrest
  obtain ⟨hcodes, hcand⟩ := hrest
  have hnil : more = [] := List.eq_nil_iff_forall_not_mem.2 fun x hx =>
    codeOf_ne_nil (h.coded x (hmore ▸ List.mem_append_right bs hx)) (hcodes x hx)
  exact ⟨by rw [← hmore, hnil, List.append_nil], hcand⟩

end Sys2Proof.Machine
end

section
/-!
PROOFS. The compress flow, COUNT, BUILD and ENCODE, and DECODE after it (spec/42_codec.md R107,
R114). Its three commands read one input, so BUILD gives every byte of it a code, and the number of
bits is a sum over the input's bytes as well as a sum over the counters.
-/

namespace Sys2Proof.Machine

open Sys2Proof

/-! ### Weighted lengths -/

/-- A sum over the bytes of a sequence weighs each symbol by how often it occurs. -/
theorem sum_map_eq_sum_count_mul (bs : List Byte) (f : Byte → Nat) :
    (bs.map f).sum = (allSymbols.map fun x => bs.count x * f x).sum := by
  rw [Finset.sum_list_map_count, ← List.sum_toFinset _ allSymbols_nodup]
  simp only [smul_eq_mul]
  refine Finset.sum_subset (fun x _ => by simp) fun x _ hx => ?_
  rw [List.count_eq_zero_of_not_mem (by simpa using hx), Nat.zero_mul]

/-- R107: for the counters of COUNT the weighted length is a sum over the bytes of the input. -/
theorem weightedLength_countBytes_inputBytes (s : State) (len : Byte → Nat) :
    weightedLength (countBytes (inputBytes s)) len = ((inputBytes s).map len).sum := by
  rw [sum_map_eq_sum_count_mul]
  simp only [weightedLength, toNat_symGet_countBytes_inputBytes]

/-- R107: the number of bits of an encoding is the weighted length of the code. -/
theorem length_flatMap_codeOf (s t : State) :
    ((inputBytes s).flatMap (codeOf t)).length =
      weightedLength (countBytes (inputBytes s)) (fun x => (symGet t.clen x).toNat) := by
  rw [weightedLength_countBytes_inputBytes, List.length_flatMap]
  simp only [length_codeOf]

theorem weightedLength_countBytes_inputBytes_const (s : State) (n : Nat) :
    weightedLength (countBytes (inputBytes s)) (fun _ => n) = n * s.inLen.toNat := by
  rw [weightedLength_countBytes_inputBytes, List.map_const', List.sum_replicate, length_inputBytes,
    smul_eq_mul, Nat.mul_comm]

/-- There are codes of eight bits for all 256 symbols. -/
theorem kraftSum_const_eight_le_one (freq : Vector Word64 256) :
    kraftSum (keys freq).toFinset (fun _ => 8) ≤ 1 := by
  have hcard : (keys freq).toFinset.card ≤ 256 :=
    (List.toFinset_card_le _).trans (length_keys_le freq)
  have hreal : ((keys freq).toFinset.card : ℝ) ≤ 256 := by exact_mod_cast hcard
  rw [kraftSum, Finset.sum_const, nsmul_eq_mul]
  linarith

theorem keys_countBytes_inputBytes_eq_nil_iff {s : State} :
    keys (countBytes (inputBytes s)) = [] ↔ s.inLen = 0 := by
  constructor
  · intro hkeys
    have hnil : inputBytes s = [] := List.eq_nil_iff_forall_not_mem.2 fun x hx =>
      absurd (mem_keys.2 (symGet_countBytes_inputBytes_ne_zero.2 hx)) (by simp [hkeys])
    exact BitVec.eq_of_toNat_eq (by rw [← length_inputBytes, hnil]; rfl)
  · intro hlen
    exact symbolsWith_eq_nil fun x => not_not.1 fun hx => by
      simpa [inputBytes_eq_nil hlen] using symGet_countBytes_inputBytes_ne_zero.1 hx

/-! ### The end of BUILD and of DECODE -/

theorem codes_of_exec_build {s t : State} (h : exec .build s = .next t) :
    t.clen = (writeBuild s).clen ∧ t.cbits = (writeBuild s).cbits := by
  obtain ⟨t', ht', -, hcodes⟩ := exists_exec_build s
  rwa [Host.Outcome.next.inj (h.symm.trans ht')]

/-- BUILD sets the EmptyInput sticky bit on the empty map and no other bit (R95, R158). -/
theorem esticky_of_exec_build {s t : State} (h : exec .build s = .next t) :
    t.esticky = if keys s.freq = [] then s.esticky ||| 0x02 else s.esticky := by
  rcases execBuild_cases s with ⟨hkeys, hr⟩ | ⟨hkeys, hr⟩
  · rw [Host.Outcome.next.inj (h.symm.trans hr), if_pos hkeys]
    rfl
  · rw [Host.Outcome.next.inj (h.symm.trans hr), if_neg hkeys]
    rfl

/-- R114: DECODE of an encoding delivers the encoded bytes. -/
theorem exec_decode_of_encoded {s : State} {bs : List Byte} (hinv : CodeInv s)
    (hcoded : ∀ x ∈ bs, symGet s.clen x ≠ 0) (hbits : encodedBits s = bs.flatMap (codeOf s))
    (hfit : s.bitLen.toNat ≤ 8 * s.config.bbufBytes) (hroom : bs.length ≤ s.config.obufBytes) :
    exec .decode s = .next (finishOk (writeOutput s bs)) := by
  obtain ⟨hout, hcand⟩ := decodeUndoesEncode s bs hinv hcoded
  rw [← hbits] at hout hcand
  have hcases := execDecode_cases s
  simp only [hout, hcand] at hcases
  rcases hcases with ⟨hlong, -⟩ | ⟨-, hfull, -⟩ | ⟨-, -, -, hr⟩ | ⟨-, -, hres, -⟩
  · exact absurd hlong (Nat.not_lt.2 hfit)
  · exact absurd hfull (Nat.not_lt.2 hroom)
  · exact hr
  · exact absurd rfl hres

/-! ### COUNT, BUILD and ENCODE -/

section Compress

variable {s s₁ s₂ : State} (hfit : s.inLen.toNat ≤ s.config.ibufBytes)
  (hcount : exec .count s = .next s₁) (hbuild : exec .build s₁ = .next s₂)

include hcount hbuild

theorem config_compress : s₂.config = s.config :=
  (exec_frame hbuild).config.trans (exec_frame hcount).config

theorem inputBytes_compress : inputBytes s₂ = inputBytes s :=
  (exec_frame hbuild).inputBytes_eq.trans (exec_frame hcount).inputBytes_eq

include hfit

theorem inLen_compress_le : s₂.inLen.toNat ≤ s₂.config.ibufBytes := by
  rwa [config_compress hcount hbuild, (exec_frame hbuild).inLen, (exec_frame hcount).inLen]

/-- R98: exactly the bytes of the input have codes. -/
theorem coded_compress {x : Byte} : symGet s₂.clen x ≠ 0 ↔ x ∈ inputBytes s₂ := by
  rw [(codes_of_exec_build hbuild).1, clen_writeBuild_ne_zero_iff, freq_of_exec_count hcount hfit,
    symGet_countBytes_inputBytes_ne_zero, inputBytes_compress hcount hbuild]

theorem esticky_compress :
    s₂.esticky = if s.inLen = 0 then s.esticky ||| 0x02 else s.esticky := by
  have hsticky : s₁.esticky = s.esticky := by
    rw [Host.Outcome.next.inj (hcount.symm.trans (exec_count_of_fits hfit))]
    rfl
  rw [esticky_of_exec_build hbuild, hsticky, freq_of_exec_count hcount hfit]
  simp only [keys_countBytes_inputBytes_eq_nil_iff]

/-- R107: BUILD's code is no longer than the code of eight bits for each symbol. -/
theorem length_encoding_le_of_two_keys (htwo : 2 ≤ (keys s₁.freq).length) :
    ((inputBytes s).flatMap (codeOf s₂)).length ≤ 8 * s.inLen.toNat := by
  rw [length_flatMap_codeOf, (codes_of_exec_build hbuild).1,
    ← weightedLength_countBytes_inputBytes_const, ← freq_of_exec_count hcount hfit]
  exact weightedLength_writeBuild_le htwo (kraftSum_const_eight_le_one s₁.freq)

/-- R107: the one code of one key has one bit. -/
theorem length_encoding_of_one_key (hone : (keys s₁.freq).length = 1) :
    ((inputBytes s).flatMap (codeOf s₂)).length = s.inLen.toNat := by
  obtain ⟨y, hy⟩ := List.length_eq_one_iff.1 hone
  have hlen : ∀ x ∈ inputBytes s, (codeOf s₂ x).length = 1 := fun x hx => by
    have hxy : x ∈ keys s₁.freq := mem_keys.2 <| by
      rwa [freq_of_exec_count hcount hfit, symGet_countBytes_inputBytes_ne_zero]
    rw [hy, List.mem_singleton] at hxy
    rw [hxy, length_codeOf, (codes_of_exec_build hbuild).1,
      toNat_clen_writeBuild (mem_buildCodes_singleton hy)]
    rfl
  rw [List.length_flatMap, List.map_congr_left hlen, List.map_const', List.sum_replicate,
    length_inputBytes, smul_eq_mul, Nat.mul_one]

/-- R107: at most eight bits for each byte of any input. -/
theorem length_encoding_le :
    ((inputBytes s).flatMap (codeOf s₂)).length ≤ 8 * s.inLen.toNat := by
  rcases Nat.lt_trichotomy (keys s₁.freq).length 1 with hnone | hone | htwo
  · rw [Nat.lt_one_iff, List.length_eq_zero_iff, freq_of_exec_count hcount hfit,
      keys_countBytes_inputBytes_eq_nil_iff] at hnone
    rw [inputBytes_eq_nil hnone]
    exact Nat.zero_le _
  · rw [length_encoding_of_one_key hfit hcount hbuild hone]
    omega
  · exact length_encoding_le_of_two_keys hfit hcount hbuild htwo

end Compress

/-- Settles O40: eight bits for every symbol are a code, and BUILD's is no worse. -/
theorem compressedSizeBound : Obligations.CompressedSizeBound := by
  intro s s₁ s₂ hfit hcount hbuild
  refine ⟨freq_of_exec_count hcount hfit ▸ length_flatMap_codeOf s s₂,
    length_encoding_le_of_two_keys hfit hcount hbuild,
    length_encoding_of_one_key hfit hcount hbuild, fun hcap => ?_⟩
  have hlen := length_encoding_le hfit hcount hbuild
  have hroom : ((inputBytes s₂).flatMap (codeOf s₂)).length ≤ 8 * s₂.config.bbufBytes := by
    rw [inputBytes_compress hcount hbuild, config_compress hcount hbuild]
    omega
  exact ⟨_, exec_encode_of_fits (inLen_compress_le hfit hcount hbuild)
    (fun _ => (coded_compress hfit hcount hbuild).2) hroom, rfl, rfl, rfl⟩

/-! ### The round trip -/

/-- Equal byte sequences in the input and in the output, byte by byte. -/
theorem readByte_obuf_of_outputBytes_eq {s t : State} (h : outputBytes t = inputBytes s) {a : Nat}
    (ha : a < s.inLen.toNat) : readByte t .obuf a = readByte s .ibuf a := by
  have hout : a < t.outLen.toNat := by rwa [← length_outputBytes, h, length_inputBytes]
  have hbyte := congrArg (·[a]?) h
  simp only [outputBytes, inputBytes] at hbyte
  rw [getElem?_readBytes _ _ _ _ _ hout, getElem?_readBytes _ _ _ _ _ ha] at hbyte
  simpa using hbyte

/-- R114, for a table that meets R15: DECODE right after ENCODE delivers the input. -/
theorem exec_decode_of_exec_encode {s : State} (hwf : s.config.wellFormed = true)
    (hfit : s.inLen.toNat ≤ s.config.ibufBytes) (hinv : CodeInv s)
    (hcoded : ∀ x ∈ inputBytes s, symGet s.clen x ≠ 0)
    (hroom : ((inputBytes s).flatMap (codeOf s)).length ≤ 8 * s.config.bbufBytes)
    (hobuf : (inputBytes s).length ≤ s.config.obufBytes) :
    ∃ t u, exec .encode s = .next t ∧ exec .decode t = .next u ∧ Succeeded t ∧ Succeeded u ∧
      outputBytes u = inputBytes s ∧ u.esticky = s.esticky := by
  obtain ⟨t, hencode, hok, hsticky, hbitLen, hbits, -⟩ :=
    encodeConcatenatesTheCodes s hwf hfit hcoded hroom
  have hf := exec_frame hencode
  obtain ⟨hl, hb⟩ := hf.codes (by decide) (by decide)
  have hdecode : exec .decode t = .next (finishOk (writeOutput t (inputBytes s))) :=
    exec_decode_of_encoded (codeInv_congr hl hb hinv) (by rwa [hl])
      (by rw [hbits, codeOf_congr hl hb]) (by rwa [hbitLen, hf.config]) (by rwa [hf.config])
  exact ⟨t, _, hencode, hdecode, hok, ⟨rfl, rfl, rfl⟩,
    outputBytes_writeOutput (length_lt_of_fits_obuf hwf hobuf), hsticky⟩

/-- Settles O38: BUILD's code table meets R15, so DECODE undoes the ENCODE before it. -/
theorem compressionRoundTrip : Obligations.CompressionRoundTrip := by
  intro s hwf hfit hobuf
  obtain ⟨s₁, hcount⟩ : ∃ s₁, exec .count s = .next s₁ := ⟨_, exec_count_of_fits hfit⟩
  obtain ⟨s₂, hbuild, -, hl, hb⟩ := exists_exec_build s₁
  refine ⟨s₁, s₂, hcount, hbuild, fun hroom => ?_⟩
  have hin := inputBytes_compress hcount hbuild
  have hconfig := config_compress hcount hbuild
  rw [← hin, ← hconfig] at hroom
  obtain ⟨s₃, s₄, hencode, hdecode, hok₃, hok₄, hout, hsticky⟩ :=
    exec_decode_of_exec_encode (hconfig ▸ hwf) (inLen_compress_le hfit hcount hbuild)
      (codeInv_congr hl hb (codeInv_writeBuild s₁))
      (fun _ => (coded_compress hfit hcount hbuild).2) hroom
      (by rwa [hin, length_inputBytes, hconfig])
  rw [hin] at hout
  have hlen : s₄.outLen = s.inLen := BitVec.eq_of_toNat_eq <| by
    rw [← length_outputBytes, hout, length_inputBytes]
  exact ⟨s₃, s₄, hencode, hdecode, hlen, fun a ha => readByte_obuf_of_outputBytes_eq hout ha, hok₃,
    hok₄, hsticky.trans (esticky_compress hfit hcount hbuild)⟩

end Sys2Proof.Machine
end

section
/-!
PROOFS. UNPACK (spec/43_container.md R123 to R126): how a container is read, entry by entry, and
what the command leaves. The reader is described at an offset that is the length of the bytes before
it, so that every check speaks of the bytes from there on alone.
-/

namespace Sys2Proof.Machine

open Sys2Proof

/-! ### How UNPACK ends -/

theorem exec_unpack_of_tooLong {s : State} (hlong : s.config.ibufBytes < s.inLen.toNat) :
    exec .unpack s = .next (report (inputTooLongError s) s) := by
  rcases execUnpack_cases s with ⟨-, hr⟩ | ⟨hfit, -⟩ | ⟨hfit, -⟩ | ⟨hfit, -⟩
  · exact hr
  all_goals exact absurd hlong (Nat.not_lt.2 hfit)

section Fitting

variable {s : State} (hfit : s.inLen.toNat ≤ s.config.ibufBytes)

include hfit

theorem exec_unpack_of_error {e : CmdError} (he : parseContainer (inputBytes s) = .error e) :
    exec .unpack s = .next (report e s) := by
  rcases execUnpack_cases s with
    ⟨hlong, -⟩ | ⟨-, e', he', hr⟩ | ⟨-, codes, p, hp, -⟩ | ⟨-, codes, p, hp, -⟩
  · exact absurd hlong (Nat.not_lt.2 hfit)
  · cases he.symm.trans he'
    exact hr
  all_goals cases he.symm.trans hp

theorem exec_unpack_of_payloadTooLong {codes : CodeMap} {p : Nat}
    (hp : parseContainer (inputBytes s) = .ok (codes, p))
    (hfull : s.config.bbufBytes < ((inputBytes s).drop p).length) :
    exec .unpack s =
      .next (report (.capacity (8 * ((inputBytes s).drop p).length) .bitBufferFull) s) := by
  rcases execUnpack_cases s with
    ⟨hlong, -⟩ | ⟨-, e, he, -⟩ | ⟨-, codes', p', hp', -, hr⟩ | ⟨-, codes', p', hp', hroom, -⟩
  · exact absurd hlong (Nat.not_lt.2 hfit)
  · cases hp.symm.trans he
  · cases hp.symm.trans hp'
    exact hr
  · cases hp.symm.trans hp'
    exact absurd hfull (Nat.not_lt.2 hroom)

theorem exec_unpack_of_fits {codes : CodeMap} {p : Nat}
    (hp : parseContainer (inputBytes s) = .ok (codes, p))
    (hroom : ((inputBytes s).drop p).length ≤ s.config.bbufBytes) :
    exec .unpack s = .next (finishOk (writeUnpacked s codes ((inputBytes s).drop p))) := by
  rcases execUnpack_cases s with
    ⟨hlong, -⟩ | ⟨-, e, he, -⟩ | ⟨-, codes', p', hp', hfull, -⟩ | ⟨-, codes', p', hp', -, hr⟩
  · exact absurd hlong (Nat.not_lt.2 hfit)
  · cases hp.symm.trans he
  · cases hp.symm.trans hp'
    exact absurd hfull (Nat.not_lt.2 hroom)
  · cases hp.symm.trans hp'
    exact hr

end Fitting

/-- No report leaves `STATUS` at 0: every error code is at least 1 (R83). -/
theorem status_report_ne_zero (e : CmdError) (s : State) : (report e s).status ≠ 0 := by
  intro h
  have hcode := e.code_range.1
  rw [← toNat_statusOf, ← report_status e s, h] at hcode
  exact absurd hcode (by decide)

theorem exec_ne_report_of_status_eq_zero {i : Instr} {s t u : State} {e : CmdError}
    (h : exec i s = .next t) (hstatus : t.status = 0) : exec i s ≠ .next (report e u) := by
  intro hr
  cases h.symm.trans hr
  exact status_report_ne_zero e u hstatus

/-- Settles O47: only a parse that accepted every entry ends with status 0. -/
theorem unpackAcceptsOnlyCodeMaps : Obligations.UnpackAcceptsOnlyCodeMaps := by
  intro s t h hstatus
  have refused {e} : exec .unpack s ≠ .next (report e s) :=
    exec_ne_report_of_status_eq_zero h hstatus
  rcases execUnpack_cases s with
    ⟨-, hr⟩ | ⟨-, e, -, hr⟩ | ⟨-, codes, p, -, -, hr⟩ | ⟨-, codes, p, hp, -, hr⟩
  · exact absurd hr refused
  · exact absurd hr refused
  · exact absurd hr refused
  · cases h.symm.trans hr
    have hinv := codeInv_writeUnpacked s ((inputBytes s).drop p) (listsCodeMap_of_parseContainer hp)
    exact codeInv_congr rfl rfl hinv

/-! ### Code maps and their bytes -/

theorem any_symbol_iff {codes : CodeMap} {x : Byte} :
    (codes.any fun e => e.1 == x) = true ↔ ∃ d, (x, d) ∈ codes := by
  simp

theorem any_codesClash_iff {codes : CodeMap} {c : Bits} :
    (codes.any fun e => codesClash e.2 c) = true ↔
      ∃ y d, (y, d) ∈ codes ∧ (d <+: c ∨ c <+: d) := by
  simp [codesClash]

/-- A code map has at most one entry for each of the 256 symbols. -/
theorem ListsCodeMap.length_le {codes : CodeMap} (h : ListsCodeMap codes) :
    codes.length ≤ 256 := by
  have hnodup : (codes.map Prod.fst).Nodup := List.pairwise_map.2 (h.2.imp And.left)
  simpa using (List.subperm_of_subset hnodup fun x _ => mem_allSymbols x).length_le

theorem ListsCodeMap.pairwise_ne {codes : CodeMap} (h : ListsCodeMap codes) :
    codes.Pairwise fun e f => e.1 ≠ f.1 := h.2.imp And.left

/-- The next entry of a code map passes the checks of R124 against the entries before it. -/
theorem ListsCodeMap.next_entry {tab rest : CodeMap} {x : Byte} {c : Bits}
    (h : ListsCodeMap (tab ++ (x, c) :: rest)) :
    (1 ≤ c.length ∧ c.length ≤ 255) ∧ ¬ (tab.any fun e => e.1 == x) = true ∧
      ¬ (tab.any fun e => codesClash e.2 c) = true := by
  obtain ⟨hlen, hpair⟩ := h
  have hbefore : ∀ e ∈ tab, e.1 ≠ x ∧ ¬ e.2 <+: c ∧ ¬ c <+: e.2 := fun e he =>
    (List.pairwise_append.1 hpair).2.2 e he (x, c) List.mem_cons_self
  rw [any_symbol_iff, any_codesClash_iff]
  refine ⟨hlen (x, c) (by simp), fun ⟨d, hd⟩ => (hbefore _ hd).1 rfl, fun ⟨y, d, hd, hclash⟩ => ?_⟩
  obtain ⟨-, hdc, hcd⟩ := hbefore _ hd
  exact hclash.elim hdc hcd

/-- A code table is its first entry and the table of the others. -/
theorem tableBytes_cons_iff {x : Byte} {c : Bits} {rest : CodeMap} {bs : List Byte} :
    TableBytes ((x, c) :: rest) bs ↔
      ∃ entry table, bs = entry ++ table ∧ TableBytes [(x, c)] entry ∧ TableBytes rest table := by
  constructor
  · rintro ⟨body, table, rfl, hbody⟩
    exact ⟨x :: (bytesOfNat64 c.length ++ body), table, by simp,
      ⟨body, [], by simp, hbody.1, hbody.2.1, rfl⟩, hbody.2.2⟩
  · rintro ⟨entry, table, rfl, ⟨body, tail, rfl, hlen, hbits, rfl⟩, htable⟩
    exact ⟨body, table, by simp, hlen, hbits, htable⟩

/-! ### Reading one entry -/

theorem natOfBytes_bytesOfNat64 {v : Nat} (h : v < 2 ^ 64) : natOfBytes (bytesOfNat64 v) = v :=
  (bigEndianIntegers v h).2.2

section Entry

variable {pre tail : List Byte} {p : Nat} (hp : pre.length = p) (count : Nat) (tab : CodeMap)

include hp

/-- R84 sub-reason 3, at any entry. -/
theorem parseEntries_entryTruncated (hshort : tail.length < 9) :
    parseEntries (pre ++ tail) (count + 1) p tab =
      .error (.malformedContainer p .entryTruncated) := by
  subst hp
  rw [parseEntries, if_pos (by simpa using hshort)]

/-- R84 sub-reason 4, at any entry. -/
theorem parseEntries_badCodeLength (hnine : 9 ≤ tail.length)
    (hlen : natOfBytes ((tail.drop 1).take 8) = 0 ∨ 255 < natOfBytes ((tail.drop 1).take 8)) :
    parseEntries (pre ++ tail) (count + 1) p tab =
      .error (.malformedContainer (p + 1) .badCodeLength) := by
  subst hp
  rw [parseEntries, if_neg (by simpa using hnine)]
  simp only [List.drop_length_add_append]
  rw [if_pos hlen]

/-- R84 sub-reason 5, at any entry. -/
theorem parseEntries_codeBitsTruncated (hnine : 9 ≤ tail.length)
    (hpos : 1 ≤ natOfBytes ((tail.drop 1).take 8))
    (hle : natOfBytes ((tail.drop 1).take 8) ≤ 255)
    (hshort : tail.length < 9 + ceil8 (natOfBytes ((tail.drop 1).take 8))) :
    parseEntries (pre ++ tail) (count + 1) p tab =
      .error (.malformedContainer (p + 9) .codeBitsTruncated) := by
  subst hp
  rw [parseEntries, if_neg (by simpa using hnine)]
  simp only [List.drop_length_add_append]
  rw [if_neg (by omega), if_pos (by rw [List.length_append]; omega)]

/-- R124: an entry whose fields are whole is read as its symbol and its code, and what becomes of it
rests on the entries before it alone. -/
theorem parseEntries_entry {entry : List Byte} {x : Byte} {c : Bits}
    (hentry : TableBytes [(x, c)] entry) (hpos : 1 ≤ c.length) (hle : c.length ≤ 255) :
    parseEntries (pre ++ (entry ++ tail)) (count + 1) p tab =
      if tab.any fun e => e.1 == x then .error (.malformedContainer p .duplicateSymbol)
      else if tab.any fun e => codesClash e.2 c then
        .error (.malformedContainer p .codesOverlap)
      else parseEntries (pre ++ (entry ++ tail)) count (p + entry.length) (tab ++ [(x, c)]) := by
  subst hp
  obtain ⟨body, _, rfl, hbody, hbits, rfl⟩ := hentry
  have hlength : natOfBytes (bytesOfNat64 c.length) = c.length :=
    natOfBytes_bytesOfNat64 (by omega)
  have hfield : (bytesOfNat64 c.length ++ (body ++ tail)).take 8 = bytesOfNat64 c.length :=
    List.take_left' (length_bytesOfNat64 _)
  have hdrop : (bytesOfNat64 c.length ++ (body ++ tail)).drop 8 = body ++ tail :=
    List.drop_left' (length_bytesOfNat64 _)
  have htake : (body ++ tail).take (ceil8 c.length) = body := List.take_left' hbody
  have hnext : pre.length + (x :: (bytesOfNat64 c.length ++ body)).length =
      pre.length + 9 + ceil8 c.length := by simp [hbody]; omega
  rw [List.append_nil, hnext, parseEntries, if_neg (by simp)]
  simp only [List.drop_length_add_append, List.append_assoc, List.cons_append,
    List.drop_succ_cons, List.drop_zero, hfield, hlength, hdrop, htake, hbits,
    List.getD_append_right _ _ _ _ (Nat.le_refl _), Nat.sub_self, List.getD_cons_zero]
  rw [if_neg (by omega), if_neg (by simp; omega)]

end Entry

/-! ### Reading the table -/

/-- R124: the entries of a well-formed table are read one by one, whatever stands before and after
it, and the reader goes on after its last byte. -/
theorem parseEntries_table {pre table tail : List Byte} {p : Nat} (hp : pre.length = p)
    (count : Nat) {codes tab : CodeMap} (htable : TableBytes codes table)
    (hcodes : ListsCodeMap (tab ++ codes)) :
    parseEntries (pre ++ (table ++ tail)) (codes.length + count) p tab =
      parseEntries (pre ++ (table ++ tail)) count (p + table.length) (tab ++ codes) := by
  induction codes generalizing pre table p tab with
  | nil =>
    have hnil : table = [] := htable
    simp [hnil]
  | cons e rest ih =>
    obtain ⟨x, c⟩ := e
    obtain ⟨entry, table, rfl, hentry, hrest⟩ := tableBytes_cons_iff.1 htable
    obtain ⟨⟨hpos, hle⟩, hsym, hclash⟩ := hcodes.next_entry
    have hread := parseEntries_entry hp (rest.length + count) tab (tail := table ++ tail) hentry
      hpos hle
    rw [if_neg hsym, if_neg hclash] at hread
    have hgo := ih (pre := pre ++ entry) (p := p + entry.length)
      (by rw [List.length_append, hp]) hrest (by rwa [List.append_cons] at hcodes)
    rw [← List.append_cons, List.append_assoc, Nat.add_assoc, ← List.length_append] at hgo
    rw [List.append_assoc, List.length_cons, Nat.add_right_comm]
    exact hread.trans hgo

/-- R124: a container whose symbol count is at most 256 is read from offset 8 on. -/
theorem parseContainer_count {n : Nat} (hn : n ≤ 256) (rest : List Byte) :
    parseContainer (bytesOfNat64 n ++ rest) = parseEntries (bytesOfNat64 n ++ rest) n 8 [] := by
  rw [parseContainer, if_neg (by simp), List.take_left' (length_bytesOfNat64 n),
    natOfBytes_bytesOfNat64 (by omega)]
  exact if_neg (Nat.not_lt.2 hn)

/-- R124: after a well-formed table the other entries are to be read, from its last byte on. -/
theorem parseContainer_table {codes : CodeMap} {table : List Byte} (hcodes : ListsCodeMap codes)
    (htable : TableBytes codes table) {count : Nat} (hn : codes.length + count ≤ 256)
    (tail : List Byte) :
    parseContainer (bytesOfNat64 (codes.length + count) ++ table ++ tail) =
      parseEntries (bytesOfNat64 (codes.length + count) ++ table ++ tail) count
        (8 + table.length) codes := by
  rw [List.append_assoc, parseContainer_count hn]
  exact parseEntries_table (length_bytesOfNat64 _) count htable hcodes

/-! ### Refused containers -/

/-- MalformedContainer in the status registers (R84, R150). -/
theorem exec_unpack_malformed {s : State} (hfit : s.inLen.toNat ≤ s.config.ibufBytes) {p : Nat}
    {why : MalformedReason}
    (he : parseContainer (inputBytes s) = .error (.malformedContainer p why)) :
    exec .unpack s = .next { s with
      status := 3, errPos := BitVec.ofNat 64 p, errAux := why.number,
      esticky := s.esticky ||| 0x08 } :=
  exec_unpack_of_error hfit he

/-- Settles O44: after the entries before it, the faulty entry fails the checks of R124 in their
order. -/
theorem unpackReportsTheFirstFault : Obligations.UnpackReportsTheFirstFault := by
  refine fun s => ⟨fun hlong => ?_, fun hfit => ⟨fun hshort => ?_, fun height hcount => ?_,
    fun codes table tail n hcodes htable hlt hn hin => ?_⟩⟩
  · rw [exec_unpack_of_tooLong hlong, report_inputTooLongError]
  · exact exec_unpack_malformed hfit (if_pos hshort)
  · exact exec_unpack_malformed hfit ((if_neg (Nat.not_lt.2 height)).trans (if_pos hcount))
  · obtain ⟨count, rfl⟩ : ∃ count, n = codes.length + (count + 1) :=
      ⟨n - codes.length - 1, by omega⟩
    have hparse := parseContainer_table hcodes htable hn tail
    rw [← hin] at hparse
    have hp : (bytesOfNat64 (codes.length + (count + 1)) ++ table).length = 8 + table.length := by
      simp
    have refused {pos why} (he : parseEntries (bytesOfNat64 (codes.length + (count + 1)) ++ table ++
        tail) (count + 1) (8 + table.length) codes = .error (.malformedContainer pos why)) :=
      exec_unpack_malformed hfit (hparse.trans (hin ▸ he))
    exact ⟨fun hnine => refused (parseEntries_entryTruncated hp count codes hnine),
      fun hnine hlen => refused (parseEntries_badCodeLength hp count codes hnine hlen),
      fun hnine hpos hle hshort =>
        refused (parseEntries_codeBitsTruncated hp count codes hnine hpos hle hshort)⟩

/-- Settles O45: the entry is whole, so the checks against the entries before it decide. -/
theorem unpackRefusesBadEntries : Obligations.UnpackRefusesBadEntries := by
  intro s codes x c n table entry tail hfit hcodes htable hpos hle hentry hlt hn hin
  obtain ⟨count, rfl⟩ : ∃ count, n = codes.length + (count + 1) :=
    ⟨n - codes.length - 1, by omega⟩
  have hp : (bytesOfNat64 (codes.length + (count + 1)) ++ table).length = 8 + table.length := by
    simp
  have hparse := (parseContainer_table hcodes htable hn (entry ++ tail)).trans
    (parseEntries_entry hp count codes hentry hpos hle)
  rw [← List.append_assoc, ← hin] at hparse
  refine ⟨fun hdup => exec_unpack_malformed (why := .duplicateSymbol) hfit ?_,
    fun hnew hclash => exec_unpack_malformed (why := .codesOverlap) hfit ?_⟩
  · rw [hparse, if_pos (any_symbol_iff.2 hdup)]
  · have hnone : ¬ (codes.any fun e => e.1 == x) = true := fun h =>
      (any_symbol_iff.1 h).elim hnew
    rw [hparse, if_neg hnone, if_pos (any_codesClash_iff.2 hclash)]

/-! ### Well-formed containers -/

/-- The table of a code map read back: of each entry its symbol's two registers and its code, and
zeros for the symbols without an entry. -/
theorem codes_writeUnpacked {codes : CodeMap} (hcodes : ListsCodeMap codes) (s : State)
    (payload : List Byte) :
    (∀ x c, (x, c) ∈ codes →
      (symGet (writeUnpacked s codes payload).clen x).toNat = c.length ∧
      symGet (writeUnpacked s codes payload).cbits x = codeImage c ∧
      codeOf (writeUnpacked s codes payload) x = c) ∧
    ∀ x, (∀ c, (x, c) ∉ codes) →
      symGet (writeUnpacked s codes payload).clen x = 0 ∧
      symGet (writeUnpacked s codes payload).cbits x = 0 := by
  have hlen : ∀ e ∈ codes, e.2.length ≤ 255 := fun e he => (hcodes.1 e he).2
  refine ⟨fun x c hxc => ?_, fun x hx => ?_⟩
  · have hlookup := lookupCode_eq_some hcodes.pairwise_ne hxc
    exact ⟨toNat_clen_of_lookupCode (writeUnpacked_clen s codes payload) hlen hlookup,
      by rw [writeUnpacked_cbits, symGet_symFill, codeBitsImage_of_lookupCode hlookup],
      codeOf_of_lookupCode (writeUnpacked_clen s codes payload)
        (writeUnpacked_cbits s codes payload) hlen hlookup⟩
  · have hlookup := lookupCode_eq_none.2 hx
    simp [codeLength, codeBitsImage, hlookup]

theorem toNat_bitLen_writeUnpacked {s : State} (hwf : s.config.wellFormed = true) (codes : CodeMap)
    {payload : List Byte} (hroom : payload.length ≤ s.config.bbufBytes) :
    (writeUnpacked s codes payload).bitLen.toNat = 8 * payload.length := by
  have hcap : s.config.bbufBytes ≤ 2 ^ 48 := capacity_le_of_wellFormed hwf .bbuf
  rw [writeUnpacked_bitLen, BitVec.toNat_ofNat]
  omega

theorem readBytes_writeUnpacked (s : State) (codes : CodeMap) (payload : List Byte) :
    readBytes (writeUnpacked s codes payload) .bbuf 0 payload.length = payload :=
  readBytes_writeBytes (writeCodes s codes) .bbuf 0 payload

section Container

variable {s : State} {codes : CodeMap} {table payload : List Byte}
  (hfit : s.inLen.toNat ≤ s.config.ibufBytes) (hcodes : ListsCodeMap codes)
  (htable : TableBytes codes table)
  (hin : inputBytes s = bytesOfNat64 codes.length ++ table ++ payload)

include hcodes htable hin

/-- R123: the reader stops after the last entry, and the payload is the rest of the input. -/
theorem parseContainer_wellFormed :
    parseContainer (inputBytes s) = .ok (codes, 8 + table.length) ∧
      (inputBytes s).drop (8 + table.length) = payload := by
  rw [hin]
  exact ⟨parseContainer_table (count := 0) hcodes htable hcodes.length_le payload,
    List.drop_left' (by simp)⟩

include hfit

theorem exec_unpack_of_container (hroom : payload.length ≤ s.config.bbufBytes) :
    exec .unpack s = .next (finishOk (writeUnpacked s codes payload)) := by
  obtain ⟨hparse, hpayload⟩ := parseContainer_wellFormed hcodes htable hin
  have hrun := exec_unpack_of_fits hfit hparse (by rwa [hpayload])
  rwa [hpayload] at hrun

theorem exec_unpack_of_containerTooLong (hfull : s.config.bbufBytes < payload.length) :
    exec .unpack s = .next (report (.capacity (8 * payload.length) .bitBufferFull) s) := by
  obtain ⟨hparse, hpayload⟩ := parseContainer_wellFormed hcodes htable hin
  have hrun := exec_unpack_of_payloadTooLong hfit hparse (by rwa [hpayload])
  rwa [hpayload] at hrun

end Container

/-- Settles O46: the reader gives back the code map and the payload, and a table written from a code
map holds it. -/
theorem unpackReadsBackTheContainer : Obligations.UnpackReadsBackTheContainer := by
  refine fun s codes table payload hwf hfit hcodes htable hin => ⟨fun hroom => ?_,
    exec_unpack_of_containerTooLong hfit hcodes htable hin⟩
  obtain ⟨hlisted, hother⟩ := codes_writeUnpacked hcodes s payload
  exact ⟨_, exec_unpack_of_container hfit hcodes htable hin hroom, ⟨rfl, rfl, rfl⟩, rfl, hlisted,
    hother, toNat_bitLen_writeUnpacked hwf codes hroom, readBytes_writeUnpacked s codes payload⟩

end Sys2Proof.Machine
end

section
/-!
PROOFS. PACK and the round trip (spec/43_container.md R120 to R122, R127): the container PACK writes
is one UNPACK accepts, with the code table as its code map.
-/

namespace Sys2Proof.Machine

open Sys2Proof

/-! ### How PACK ends -/

theorem exec_pack_of_bitsTooLong {s : State} (hlong : 8 * s.config.bbufBytes < s.bitLen.toNat) :
    exec .pack s = .next (report (bitsTooLongError s) s) := by
  rcases execPack_cases s with ⟨-, hr⟩ | ⟨hfit, -⟩ | ⟨hfit, -⟩
  · exact hr
  all_goals exact absurd hlong (Nat.not_lt.2 hfit)

/-- `Capacity(BIT_LEN, 2)` in the status registers: `ERR_POS` holds `BIT_LEN` whole (R85, R150). -/
theorem report_bitsTooLongError (s : State) :
    report (bitsTooLongError s) s =
      { s with status := 6, errPos := s.bitLen, errAux := 2, esticky := s.esticky ||| 0x40 } := by
  have hpos : (bitsTooLongError s).pos = s.bitLen := by
    rw [bitsTooLongError, CmdError.pos, BitVec.ofNat_toNat, BitVec.setWidth_eq]
  rw [report, hpos]
  rfl

section Fitting

variable {s : State} (hbits : s.bitLen.toNat ≤ 8 * s.config.bbufBytes)

include hbits

theorem exec_pack_of_outputFull (hfull : s.config.obufBytes < containerSize s) :
    exec .pack s = .next (report (.capacity (containerSize s) .outputFull) s) := by
  rcases execPack_cases s with ⟨hlong, -⟩ | ⟨-, -, hr⟩ | ⟨-, hroom, -⟩
  · exact absurd hlong (Nat.not_lt.2 hbits)
  · exact hr
  · exact absurd hfull (Nat.not_lt.2 hroom)

theorem exec_pack_of_fits (hroom : containerSize s ≤ s.config.obufBytes) :
    exec .pack s =
      .next (finishOk (writeOutput s (packContainer (codeMap s) (encodedBits s)))) := by
  rcases execPack_cases s with ⟨hlong, -⟩ | ⟨-, hfull, -⟩ | ⟨-, -, hr⟩
  · exact absurd hlong (Nat.not_lt.2 hbits)
  · exact absurd hfull (Nat.not_lt.2 hroom)
  · exact hr

end Fitting

/-! ### The bytes of the container -/

section Stored

variable {s : State} (hwf : s.config.wellFormed = true)
  (hroom : containerSize s ≤ s.config.obufBytes)

include hwf hroom

theorem containerSize_lt : containerSize s < 2 ^ 64 := by
  have hcap : s.config.obufBytes ≤ 2 ^ 48 := capacity_le_of_wellFormed hwf .obuf
  omega

/-- `OUT_LEN` after PACK is the size of the container (R121). -/
theorem toNat_outLen_writeOutput_packContainer :
    (writeOutput s (packContainer (codeMap s) (encodedBits s))).outLen.toNat =
      containerSize s := by
  rw [writeOutput_outLen, length_packContainer_eq_containerSize, BitVec.toNat_ofNat,
    Nat.mod_eq_of_lt (containerSize_lt hwf hroom)]

theorem outputBytes_writeOutput_packContainer :
    outputBytes (writeOutput s (packContainer (codeMap s) (encodedBits s))) =
      packContainer (codeMap s) (encodedBits s) := by
  refine outputBytes_writeOutput ?_
  rw [length_packContainer_eq_containerSize]
  exact containerSize_lt hwf hroom

end Stored

/-- R120: the container of the code table, symbol by symbol. -/
theorem packContainer_codeMap (s : State) (bits : Bits) :
    packContainer (codeMap s) bits = bytesOfNat64 (codeDomain s).length ++
      (codeDomain s).flatMap (fun x =>
        [x] ++ bytesOfNat64 (codeOf s x).length ++ packBits (codeOf s x)) ++ packBits bits := by
  rw [packContainer, codeMap, List.length_map, List.flatMap_map]
  rfl

/-- Settles O42: the three ways PACK ends. -/
theorem packWritesTheContainer : Obligations.PackWritesTheContainer := by
  refine fun s => ⟨fun hlong => ?_, fun hbits hfull => exec_pack_of_outputFull hbits hfull,
    fun hwf hbits hroom => ?_⟩
  · rw [exec_pack_of_bitsTooLong hlong, report_bitsTooLongError]
  · have hrun := exec_pack_of_fits hbits hroom
    refine ⟨_, _, hrun, toNat_outLen_writeOutput_packContainer hwf hroom,
      (outputBytes_writeOutput_packContainer hwf hroom).trans (packContainer_codeMap s _), ?_⟩
    rw [← length_packContainer_eq_containerSize]
    exact sameFrom_writeBytes s .obuf _

/-- A bit after the first `pre.length` bytes (R43). -/
theorem bitOfBytes_append (pre bs : List Byte) (j : Nat) :
    bitOfBytes (pre ++ bs) (8 * pre.length + j) = bitOfBytes bs j := by
  rw [bitOfBytes, bitOfBytes, List.getD_append_right _ _ _ _ (by omega)]
  congr 2 <;> omega

/-- EncodedBits bit by bit, and `false` past `BIT_LEN` (R17). -/
theorem getD_encodedBits (s : State) (j : Nat) :
    (encodedBits s).getD j false = if j < s.bitLen.toNat then bitRead s .bbuf j else false := by
  split
  next hj =>
    rw [bitRead_eq_bitOfBytes (n := ceil8 s.bitLen.toNat)
      (hj.trans_le (le_eight_mul_ceil8 _)), List.getD_eq_getElem?_getD, encodedBits,
      getElem?_unpackBits _ _ _ hj, Option.getD_some]
  next hj => exact List.getD_eq_default _ _ (by rw [length_encodedBits]; omega)

/-- The payload PACK stores, bit by bit at its own offset: the bits and then zeros (R78). -/
theorem bitRead_payload {s : State} (hwf : s.config.wellFormed = true)
    (hroom : containerSize s ≤ s.config.obufBytes) {j : Nat}
    (hj : j < 8 * ceil8 s.bitLen.toNat) :
    bitRead (writeOutput s (packContainer (codeMap s) (encodedBits s))) .obuf
        (8 * (containerSize s - ceil8 s.bitLen.toNat) + j) =
      (encodedBits s).getD j false := by
  have hout := outputBytes_writeOutput_packContainer hwf hroom
  rw [outputBytes, toNat_outLen_writeOutput_packContainer hwf hroom] at hout
  have hsize := length_packContainer_eq_containerSize s
  rw [packContainer, List.length_append, length_packBits, length_encodedBits] at hsize
  rw [bitRead_eq_bitOfBytes (n := containerSize s) (by omega), hout, packContainer,
    ← Nat.eq_sub_of_add_eq hsize, bitOfBytes_append, bitOfBytes_packBits]

/-- Settles O43: the payload is the last part of the container, and packing pads with zero bits. -/
theorem packPadsWithZeros : Obligations.PackPadsWithZeros := by
  intro s t h hok hwf j hj
  have refused {e} : exec .pack s ≠ .next (report e s) :=
    exec_ne_report_of_status_eq_zero h hok.1
  rcases execPack_cases s with ⟨-, hr⟩ | ⟨-, -, hr⟩ | ⟨-, hroom, hr⟩
  · exact absurd hr refused
  · exact absurd hr refused
  · cases h.symm.trans hr
    exact (bitRead_payload hwf hroom hj).trans (getD_encodedBits s j)

/-! ### The container as UNPACK reads it -/

/-- A table that meets R15 is a code map a container may list. -/
theorem CodeInv.listsCodeMap {s : State} (h : CodeInv s) : ListsCodeMap (codeMap s) := by
  obtain ⟨hlen, hprefix, -⟩ := h
  refine ⟨fun e he => ?_, List.pairwise_map.2 ((codeDomain_ascending s).imp_of_mem ?_)⟩
  · obtain ⟨hx, hcode⟩ := mem_codeMap.1 he
    rw [hcode]
    exact hlen e.1 hx
  · intro x y hx hy hlt
    rw [mem_codeDomain] at hx hy
    have hxy : x ≠ y := fun e => hlt.ne (congrArg BitVec.toNat e)
    exact ⟨hxy, hprefix x y hxy hx hy, hprefix y x hxy.symm hy hx⟩

/-- The entries PACK writes are a code table as UNPACK reads it (R72). -/
theorem tableBytes_flatMap_packEntry (codes : CodeMap) :
    TableBytes codes (codes.flatMap packEntry) := by
  induction codes with
  | nil => rfl
  | cons e rest ih =>
    exact ⟨packBits e.2, rest.flatMap packEntry, by simp [packEntry], length_packBits e.2,
      unpackBits_packBits e.2, ih⟩

/-- R15 (c), R81: a register holds the image of its own code. -/
theorem CodeInv.codeImage_codeOf {s : State} (h : CodeInv s) (x : Byte) :
    codeImage (codeOf s x) = symGet s.cbits x := by
  refine BitVec.eq_of_getLsbD_eq fun j hj => ?_
  have hlen : (codeOf s x).length ≤ 256 := by
    have := (symGet s.clen x).isLt
    rw [length_codeOf]
    omega
  rw [codeImage, BitVec.getLsbD_ofNat, testBit_natOfBits_leftAligned hlen hj, decide_eq_true hj,
    Bool.true_and, getD_codeOf h x (by omega)]
  congr 1
  omega

/-! ### A table written from a state's code map -/

theorem lookupCode_codeMap_of_clen_eq_zero {s : State} {x : Byte} (hx : symGet s.clen x = 0) :
    lookupCode (codeMap s) x = none :=
  lookupCode_eq_none.2 fun _ hc => (mem_codeMap.1 hc).1 hx

theorem lookupCode_codeMap_of_clen_ne_zero {s : State} {x : Byte} (hx : symGet s.clen x ≠ 0) :
    lookupCode (codeMap s) x = some (codeOf s x) := by
  refine lookupCode_eq_some (List.pairwise_map.2 ((codeDomain_ascending s).imp ?_))
    (mem_codeMap.2 ⟨hx, rfl⟩)
  exact fun hlt e => hlt.ne (congrArg BitVec.toNat e)

theorem codeLength_codeMap (s : State) (x : Byte) :
    codeLength (codeMap s) x = symGet s.clen x := by
  by_cases hx : symGet s.clen x = 0
  · rw [codeLength, lookupCode_codeMap_of_clen_eq_zero hx, hx]
  · rw [codeLength_of_lookupCode (lookupCode_codeMap_of_clen_ne_zero hx), length_codeOf,
      BitVec.ofNat_toNat, BitVec.setWidth_eq]

theorem CodeInv.codeBitsImage_codeMap {s : State} (h : CodeInv s) (x : Byte) :
    codeBitsImage (codeMap s) x = symGet s.cbits x := by
  by_cases hx : symGet s.clen x = 0
  · have hnil : codeOf s x = [] := List.eq_nil_of_length_eq_zero (by rw [length_codeOf, hx]; rfl)
    rw [codeBitsImage, lookupCode_codeMap_of_clen_eq_zero hx, ← h.codeImage_codeOf, hnil]
    rfl
  · rw [codeBitsImage_of_lookupCode (lookupCode_codeMap_of_clen_ne_zero hx), h.codeImage_codeOf]

theorem CodeInv.writeCodes_codeMap {s : State} (h : CodeInv s) (u : State) :
    (writeCodes u (codeMap s)).clen = s.clen ∧ (writeCodes u (codeMap s)).cbits = s.cbits :=
  ⟨eq_of_symGet_eq fun x => (symGet_symFill _ x).trans (codeLength_codeMap s x),
    eq_of_symGet_eq fun x => (symGet_symFill _ x).trans (h.codeBitsImage_codeMap x)⟩

/-! ### The round trip -/

/-- The bits UNPACK stores are those of the payload's bytes, padding included (R126). -/
theorem encodedBits_writeUnpacked {s : State} (hwf : s.config.wellFormed = true) (codes : CodeMap)
    {payload : List Byte} (hroom : payload.length ≤ s.config.bbufBytes) :
    encodedBits (writeUnpacked s codes payload) = unpackBits payload (8 * payload.length) := by
  rw [encodedBits, toNat_bitLen_writeUnpacked hwf codes hroom, ceil8_eight_mul,
    readBytes_writeUnpacked]

theorem outputBytes_finishOk (s : State) : outputBytes (finishOk s) = outputBytes s := rfl

/-- Settles O48: UNPACK reads the table PACK wrote, and unpacks the payload PACK packed. -/
theorem containerRoundTrip : Obligations.ContainerRoundTrip := by
  intro s hwf hinv hbits hroom hin
  refine ⟨_, exec_pack_of_fits hbits hroom, ⟨rfl, rfl, rfl⟩, fun u hconfig _ hbytes => ?_⟩
  have hcontainer : inputBytes u = packContainer (codeMap s) (encodedBits s) :=
    hbytes.trans ((outputBytes_finishOk _).trans (outputBytes_writeOutput_packContainer hwf hroom))
  have hfit : u.inLen.toNat ≤ u.config.ibufBytes := by
    rwa [← length_inputBytes, hcontainer, length_packContainer_eq_containerSize, hconfig]
  have hpayload : (packBits (encodedBits s)).length = ceil8 s.bitLen.toNat := by
    rw [length_packBits, length_encodedBits]
  have hbbuf : (packBits (encodedBits s)).length ≤ u.config.bbufBytes := by
    rwa [hpayload, hconfig, ceil8_le_iff]
  have hwfu : u.config.wellFormed = true := hconfig ▸ hwf
  obtain ⟨hclen, hcbits⟩ := hinv.writeCodes_codeMap u
  have hpad := unpackBitsUndoesPackBits.2.1 (encodedBits s)
  rw [length_encodedBits, ← hpayload] at hpad
  have hrun := exec_unpack_of_container hfit hinv.listsCodeMap
    (tableBytes_flatMap_packEntry (codeMap s)) hcontainer hbbuf
  have hbitLen := (toNat_bitLen_writeUnpacked hwfu (codeMap s) hbbuf).trans
    (congrArg (8 * ·) hpayload)
  exact ⟨_, hrun, ⟨rfl, rfl, rfl⟩, hclen, hcbits, hbitLen,
    (encodedBits_writeUnpacked hwfu (codeMap s) hbbuf).trans hpad⟩

end Sys2Proof.Machine
end

section
/-!
PROOFS. What a host write does (spec/44_host_access.md R141 to R146): a command is started, one
element of data state is stored, sticky bits are cleared, the registers are reset, or the write is
ignored.
-/

namespace Sys2Proof.Machine

open Sys2Proof

/-- A step whose next action is a write to an element that is there writes that element. -/
theorem step_of_write {s : State} {bank index : Nat} {v : HostWord} {rest : List HostAction}
    (hscript : s.script = .write bank index v :: rest) {l : Location}
    (hl : locate s.config bank index = some l) :
    step s = writeLocation l v { s with script := rest } := by
  rw [step_of_script hscript]
  exact hostWrite_of_locate (s := { s with script := rest }) hl v

/-! ### Starting a command (R142) -/

/-- A `CMD` write of a command's code stores it and runs the command. -/
theorem startCommand_of_decode {v : Byte} {i : Instr} (h : decode v = .ok i) (s : State) :
    startCommand v s = exec i { s with cmd := v } := by
  rw [startCommand, h]

/-- Settles O8: the write names `CMD`, and its value decodes. -/
theorem stepRunsDecodedCommand : Obligations.StepRunsDecodedCommand := by
  intro s v rest i hscript hdecode
  rw [step_of_write hscript (l := .scalar .cmd) rfl]
  exact startCommand_of_decode hdecode { s with script := rest }

/-! ### Writes to data state (R141) -/

/-- What a byte reads as after one byte is written. -/
theorem readByte_writeBytes_singleton (s : State) (b c : Buffer) (a i : Nat) (x : Byte) :
    readByte (writeBytes s b a [x]) c i = if c = b ∧ i = a then x else readByte s c i := by
  have hrange : (c = b ∧ a ≤ i ∧ i < a + [x].length) ↔ (c = b ∧ i = a) :=
    and_congr_right fun _ => by rw [List.length_singleton]; omega
  rw [readByte_writeBytes, if_congr hrange rfl rfl]
  split
  case isTrue h => rw [h.2, Nat.sub_self]; rfl
  case isFalse => rfl

/-- The host's script is not read by `readByte`. -/
theorem readByte_of_script (s : State) (rest : List HostAction) (b : Buffer) (a : Nat) :
    readByte { s with script := rest } b a = readByte s b a :=
  readByte_congr (by cases b <;> rfl) rfl a

/-- A byte stored while the script goes on: what every byte reads as afterwards. -/
theorem readByte_store_of_script (s : State) (rest : List HostAction) (b c : Buffer) (a i : Nat)
    (x : Byte) : readByte (writeBytes { s with script := rest } b a [x]) c i =
      if c = b ∧ i = a then x else readByte s c i := by
  rw [readByte_writeBytes_singleton, readByte_of_script]

/-- Settles O13: the element each write names, and what reads back from the file or the buffer it
is stored in. -/
theorem hostWriteChangesOneElement : Obligations.HostWriteChangesOneElement := by
  intro s bank index v rest hscript
  refine ⟨?freq, ?ibuf, ?bbuf, ?inLen, ?bitLen⟩
  case freq =>
    rintro rfl hindex
    obtain ⟨x, rfl⟩ : ∃ x : Byte, x.toNat = index := ⟨BitVec.ofNatLT index hindex, rfl⟩
    refine ⟨_, step_of_write hscript (l := .freq x) (by simp [locate]), fun y => ?_⟩
    rw [symGet_symSet, if_congr BitVec.toNat_inj.symm rfl rfl]
  case ibuf =>
    rintro rfl hindex
    exact ⟨_, step_of_write hscript (byteAt_of_lt (b := .ibuf) hindex),
      fun b a => readByte_store_of_script s rest .ibuf b index a _⟩
  case bbuf =>
    rintro rfl hindex
    exact ⟨_, step_of_write hscript (byteAt_of_lt (b := .bbuf) hindex),
      fun b a => readByte_store_of_script s rest .bbuf b index a _⟩
  case inLen =>
    rintro rfl rfl
    exact step_of_write hscript (l := .scalar .inLen) rfl
  case bitLen =>
    rintro rfl rfl
    exact step_of_write hscript (l := .scalar .bitLen) rfl

/-! ### Clearing sticky bits (R143) -/

/-- A sticky bit stays exactly where it was set and is not written as 1. -/
theorem getLsbD_stickyClear (e v : Byte) {k : Nat} (hk : k < 8) :
    (stickyClear e v).getLsbD k = (e.getLsbD k && !v.getLsbD k) := by
  rw [stickyClear, BitVec.getLsbD_and, BitVec.getLsbD_not, decide_eq_true hk, Bool.true_and]

/-- Settles O14: the write names `ESTICKY`, and `clearSticky` writes that register alone. -/
theorem stickyBitsAreWriteOneToClear : Obligations.StickyBitsAreWriteOneToClear := by
  intro s v rest hscript
  refine ⟨_, step_of_write hscript (l := .scalar .esticky) rfl, fun k hk => ?_⟩
  rw [getLsbD_stickyClear _ _ hk, BitVec.getLsbD_setWidth, decide_eq_true hk, Bool.true_and]

/-! ### The soft reset (R146) -/

/-- A `CTRL` write looks at bit 0 of the value alone (R24). -/
theorem writeCtrl_setWidth (v : HostWord) (s : State) :
    writeCtrl (v.setWidth 8) s = if v.getLsbD 0 then softReset s else s := by
  simp [writeCtrl]

/-- A step whose next action is a `CTRL` write with bit 0 clear does nothing. -/
theorem step_of_ctrl_write_clear {s : State} {v : HostWord} {rest : List HostAction}
    (hscript : s.script = .write 0 0x05 v :: rest) (hv : v.getLsbD 0 = false) :
    step s = .next { s with script := rest } := by
  rw [step_of_write hscript (l := .scalar .ctrl) rfl, writeLocation, writeScalar,
    writeCtrl_setWidth, hv, if_neg Bool.false_ne_true]

/-- A step whose next action is a `CTRL` write with bit 0 set performs the soft reset. -/
theorem step_of_ctrl_write_set {s : State} {v : HostWord} {rest : List HostAction}
    (hscript : s.script = .write 0 0x05 v :: rest) (hv : v.getLsbD 0 = true) :
    step s = .next (softReset { s with script := rest }) := by
  rw [step_of_write hscript (l := .scalar .ctrl) rfl, writeLocation, writeScalar,
    writeCtrl_setWidth, if_pos hv]

/-- The soft reset keeps what every byte of every buffer reads as. -/
theorem readByte_softReset (s : State) (b : Buffer) (a : Nat) :
    readByte (softReset s) b a = readByte s b a :=
  readByte_congr (by cases b <;> rfl) (softReset_bufDraw s) a

/-- Settles O17: the register files of the soft reset are filled with 0, its other registers are 0,
and its buffers are those before it. -/
theorem softResetClearsRegisters : Obligations.SoftResetClearsRegisters := by
  intro s v rest hscript
  refine ⟨step_of_ctrl_write_clear hscript,
    fun hv => ⟨_, step_of_ctrl_write_set hscript hv, fun x => ?files, rfl, rfl, rfl, rfl, rfl, rfl,
      rfl, rfl, rfl, rfl, fun b a => ?bytes, rfl, rfl, rfl⟩⟩
  case files => exact ⟨symGet_replicate 0 x, symGet_replicate 0 x, symGet_replicate 0 x⟩
  case bytes => rw [readByte_softReset, readByte_of_script]

/-! ### Writes that do nothing (R144) -/

/-- The elements the host cannot write: five registers of bank 0 and every element of banks 2, 3, 4
and 7 (R144). -/
def Location.readOnly : Location → Bool
  | .scalar r => r ∈ [.status, .errPos, .errAux, .outLen, .nodeCnt]
  | .freq _ => false
  | .clen _ => true
  | .cbits _ => true
  | .node _ => true
  | .byte b _ => b = .obuf

/-- A write to a read-only register changes nothing. -/
theorem writeScalar_of_readOnly {r : ScalarReg} (h : (Location.scalar r).readOnly = true)
    (v : HostWord) (s : State) : writeScalar r v s = .next s := by
  cases r with
  | status | errPos | errAux | outLen | nodeCnt => rfl
  | cmd | esticky | ctrl | inLen | bitLen => cases h

/-- A write to a read-only element changes nothing. -/
theorem writeLocation_of_readOnly {l : Location} (h : l.readOnly = true) (v : HostWord)
    (s : State) : writeLocation l v s = .next s := by
  cases l with
  | scalar r => exact writeScalar_of_readOnly h v s
  | freq x => cases h
  | clen x | cbits x | node k => rfl
  | byte b a =>
    cases b with
    | ibuf | bbuf => cases h
    | obuf => rfl

/-- A step whose next action is a write that names no element, or a read-only one, is ignored. -/
theorem step_of_ignored_write {s : State} {bank index : Nat} {v : HostWord}
    {rest : List HostAction} (hscript : s.script = .write bank index v :: rest)
    (hl : ∀ l, locate s.config bank index = some l → l.readOnly = true) :
    step s = .next { s with script := rest } := by
  cases h : locate s.config bank index with
  | none =>
    rw [step_of_script hscript]
    exact hostWrite_of_unassigned (s := { s with script := rest }) h v
  | some l => rw [step_of_write hscript h, writeLocation_of_readOnly (hl l h)]

/-- Banks 2, 3, 4 and 7 hold read-only elements (R40). -/
theorem readOnly_of_locate_bank {c : Config} {bank index : Nat} {l : Location}
    (hbank : bank ∈ [2, 3, 4, 7]) (h : locate c bank index = some l) : l.readOnly = true := by
  simp only [List.mem_cons, List.not_mem_nil, or_false] at hbank
  rcases hbank with rfl | rfl | rfl | rfl
  · obtain ⟨x, -, rfl⟩ := Option.map_eq_some_iff.1 h
    rfl
  · obtain ⟨x, -, rfl⟩ := Option.map_eq_some_iff.1 h
    rfl
  · obtain ⟨-, e⟩ := Option.ite_none_right_eq_some.1 h
    cases e
    rfl
  · obtain ⟨-, e⟩ := Option.ite_none_right_eq_some.1 h
    cases e
    rfl

/-- The read-only registers of bank 0 (R41). -/
theorem readOnly_of_locate_register {c : Config} {index : Nat} {l : Location}
    (hindex : index ∈ [0x01, 0x03, 0x04, 0x08, 0x09]) (h : locate c 0 index = some l) :
    l.readOnly = true := by
  simp only [List.mem_cons, List.not_mem_nil, or_false] at hindex
  rcases hindex with rfl | rfl | rfl | rfl | rfl <;> cases h <;> rfl

/-- Settles O15: such a write names a read-only element or none, or is a `CTRL` write with bit 0
clear. -/
theorem readOnlyWritesAreIgnored : Obligations.ReadOnlyWritesAreIgnored := by
  intro s bank index v rest hscript hplace
  have unassigned (h : locate s.config bank index = none) :
      step s = .next { s with script := rest } :=
    step_of_ignored_write hscript fun l hl => by rw [h] at hl; cases hl
  rcases hplace with
    ⟨rfl, hi⟩ | ⟨rfl, hi⟩ | hb | hb | ⟨rfl, hi⟩ | ⟨rfl, hi⟩ | ⟨rfl, hi⟩ | ⟨rfl, rfl, hv⟩
  · exact step_of_ignored_write hscript fun _ => readOnly_of_locate_register hi
  · exact unassigned (locate_eq_none (by simp [hi]))
  · exact step_of_ignored_write hscript fun _ => readOnly_of_locate_bank hb
  · exact unassigned (locate_eq_none (by simp [hb]))
  · exact unassigned (locate_eq_none (by simp [hi]))
  · exact unassigned (locate_eq_none (by simp [hi]))
  · exact unassigned (locate_eq_none (by simp [hi]))
  · exact step_of_ctrl_write_clear hscript hv

end Sys2Proof.Machine
end

section
/-!
PROOFS. How commands and steps end (spec/60_exceptions.md R152, R157 to R161): every command
finishes, raises an error on the state it started in, or reports on its result; ENCODE, DECODE and
PACK report the first error they reach; and every step answers a next state.
-/

namespace Sys2Proof.Machine

open Sys2Proof

/-! ### Every step goes on (R161, R178) -/

/-- Every command answers a next state, and the capacities are outside its frame (R33). -/
theorem exec_goesOn (i : Instr) (s : State) : ∃ t, exec i s = .next t ∧ t.config = s.config := by
  obtain ⟨r, e, heff⟩ := exists_hasEffect i s
  exact ⟨_, heff.exec_eq, (exec_frame heff.exec_eq).config⟩

theorem startCommand_goesOn (v : Byte) (s : State) :
    ∃ t, startCommand v s = .next t ∧ t.config = s.config := by
  rcases startCommand_cases v s with ⟨i, -, hr⟩ | ⟨op, -, hr⟩
  · rw [hr]
    exact exec_goesOn i { s with cmd := v }
  · exact ⟨_, hr, report_config _ _⟩

theorem writeScalar_goesOn (r : ScalarReg) (v : HostWord) (s : State) :
    ∃ t, writeScalar r v s = .next t ∧ t.config = s.config := by
  cases r with
  | cmd => exact startCommand_goesOn _ s
  | ctrl =>
    refine ⟨_, rfl, ?_⟩
    unfold writeCtrl
    split
    · exact softReset_config s
    · rfl
  | esticky | inLen | bitLen | status | errPos | errAux | outLen | nodeCnt => exact ⟨_, rfl, rfl⟩

theorem writeLocation_goesOn (l : Location) (v : HostWord) (s : State) :
    ∃ t, writeLocation l v s = .next t ∧ t.config = s.config := by
  cases l with
  | scalar r => exact writeScalar_goesOn r v s
  | freq x | clen x | cbits x | node k => exact ⟨_, rfl, rfl⟩
  | byte b a => cases b <;> exact ⟨_, rfl, rfl⟩

theorem hostWrite_goesOn (bank index : Nat) (v : HostWord) (s : State) :
    ∃ t, hostWrite bank index v s = .next t ∧ t.config = s.config := by
  cases hl : locate s.config bank index with
  | none => exact ⟨s, hostWrite_of_unassigned hl v, rfl⟩
  | some l =>
    rw [hostWrite_of_locate hl]
    exact writeLocation_goesOn l v s

/-- Settles O55: an idle core stays as it is, and no action of the host stops the core or changes
its capacities. -/
theorem everyStepGoesOn : Obligations.EveryStepGoesOn := by
  intro s
  cases hs : s.script with
  | nil => exact ⟨s, step_of_nextAction_none (nextAction_eq_none.2 hs), rfl⟩
  | cons a rest =>
    rw [step_of_script hs]
    cases a with
    | read bank index => exact ⟨_, rfl, rfl⟩
    | write bank index v => exact hostWrite_goesOn bank index v { s with script := rest }
    | hardReset => exact ⟨_, rfl, rfl⟩

/-! ### ENCODE's errors (R152, R159) -/

theorem exec_encode_of_tooLong {s : State} (hlong : s.config.ibufBytes < s.inLen.toNat) :
    exec .encode s = .next (report (inputTooLongError s) s) := by
  rcases execEncode_cases s with ⟨-, hr⟩ | ⟨hfit, -⟩ | ⟨hfit, -⟩ | ⟨hfit, -⟩
  · exact hr
  all_goals exact absurd hlong (Nat.not_lt.2 hfit)

section Fitting

variable {s : State} (hfit : s.inLen.toNat ≤ s.config.ibufBytes)

include hfit

theorem exec_encode_of_error {e : CmdError} (he : encodedLength s (inputBytes s) 0 0 = .error e) :
    exec .encode s = .next (report e s) := by
  rcases execEncode_cases s with
    ⟨hlong, -⟩ | ⟨-, e', he', hr⟩ | ⟨-, n, hn, -⟩ | ⟨-, n, hn, -⟩
  · exact absurd hlong (Nat.not_lt.2 hfit)
  · cases he.symm.trans he'
    exact hr
  all_goals cases he.symm.trans hn

theorem exec_encode_of_bitBufferFull (hcoded : ∀ x ∈ inputBytes s, symGet s.clen x ≠ 0)
    (hfull : 8 * s.config.bbufBytes < ((inputBytes s).flatMap (codeOf s)).length) :
    exec .encode s = .next
      (report (.capacity ((inputBytes s).flatMap (codeOf s)).length .bitBufferFull) s) := by
  have hlen := encodedLength_ok (i := 0) (n := 0) hcoded
  rw [Nat.zero_add] at hlen
  rcases execEncode_cases s with
    ⟨hlong, -⟩ | ⟨-, e, he, -⟩ | ⟨-, n, hn, -, hr⟩ | ⟨-, n, hn, hroom, -⟩
  · exact absurd hlong (Nat.not_lt.2 hfit)
  · cases hlen.symm.trans he
  · cases hlen.symm.trans hn
    exact hr
  · cases hlen.symm.trans hn
    exact absurd hfull (Nat.not_lt.2 hroom)

end Fitting

/-- The check pass stops at the first byte without a code (R106): the converse of
`encodedLength_error`. -/
theorem encodedLength_of_first_uncoded {s : State} {bs : List Byte} {i k n : Nat} {x : Byte}
    (hk : bs[k]? = some x) (hx : symGet s.clen x = 0)
    (hbefore : ∀ j < k, ∀ y, bs[j]? = some y → symGet s.clen y ≠ 0) :
    encodedLength s bs i n = .error (.unknownSymbol (i + k) x) := by
  induction bs generalizing i k n with
  | nil => cases hk
  | cons y rest ih =>
    cases k with
    | zero =>
      cases hk
      exact if_pos hx
    | succ k =>
      have hy : symGet s.clen y ≠ 0 := hbefore 0 (Nat.succ_pos k) y rfl
      rw [encodedLength, if_neg hy,
        ih hk fun j hj z hz => hbefore (j + 1) (Nat.succ_lt_succ hj) z hz,
        Nat.add_assoc, Nat.add_comm 1 k]

/-- The check pass of ENCODE on the bytes of `IBUF` (R152). -/
theorem encodedLength_inputBytes_of_first_uncoded {s : State} {i : Nat} (hi : i < s.inLen.toNat)
    (hx : symGet s.clen (readByte s .ibuf i) = 0)
    (hbefore : ∀ j < i, symGet s.clen (readByte s .ibuf j) ≠ 0) :
    encodedLength s (inputBytes s) 0 0 = .error (.unknownSymbol i (readByte s .ibuf i)) := by
  have hbyte (k : Nat) (hk : k < s.inLen.toNat) :
      (inputBytes s)[k]? = some (readByte s .ibuf k) := by
    rw [inputBytes, getElem?_readBytes s .ibuf 0 _ k hk, Nat.zero_add]
  have hstop := encodedLength_of_first_uncoded (i := 0) (n := 0) (hbyte i hi) hx fun j hj y hy => by
    cases (hbyte j (hj.trans hi)).symm.trans hy
    exact hbefore j hj
  rwa [Nat.zero_add] at hstop

/-- UnknownSymbol needs a byte without a code: the other ends of ENCODE have status 6 or 0. -/
theorem status_exec_encode_ne_two {s t : State} (hcoded : ∀ x ∈ inputBytes s, symGet s.clen x ≠ 0)
    (h : exec .encode s = .next t) : t.status ≠ 2 := by
  rcases execEncode_cases s with ⟨-, hr⟩ | ⟨-, e, he, -⟩ | ⟨-, n, -, -, hr⟩ | ⟨-, n, -, -, hr⟩
  · rw [Host.Outcome.next.inj (h.symm.trans hr)]
    exact (by decide : statusOf 6 ≠ 2)
  · cases (encodedLength_ok hcoded).symm.trans he
  · rw [Host.Outcome.next.inj (h.symm.trans hr)]
    exact (by decide : statusOf 6 ≠ 2)
  · rw [Host.Outcome.next.inj (h.symm.trans hr)]
    exact (by decide : statusOf 0 ≠ 2)

/-- Settles O33: each error's condition selects its branch of ENCODE, and a report writes the status
registers alone. -/
theorem encodeErrorsInOrder : Obligations.EncodeErrorsInOrder := by
  refine fun s => ⟨fun hlong => ?_, fun i hfit hi hx hbefore => ?_, fun hfit hcoded hfull => ?_,
    fun hcoded t => status_exec_encode_ne_two hcoded⟩
  · rw [exec_encode_of_tooLong hlong, report_inputTooLongError]
  · exact exec_encode_of_error hfit (encodedLength_inputBytes_of_first_uncoded hi hx hbefore)
  · exact exec_encode_of_bitBufferFull hfit hcoded hfull

/-! ### DECODE's and PACK's errors (R157, R159) -/

theorem exec_decode_of_bitsTooLong {s : State} (hlong : 8 * s.config.bbufBytes < s.bitLen.toNat) :
    exec .decode s = .next (report (bitsTooLongError s) s) := by
  rcases execDecode_cases s with ⟨-, hr⟩ | ⟨hfit, -⟩ | ⟨hfit, -⟩ | ⟨hfit, -⟩
  · exact hr
  all_goals exact absurd hlong (Nat.not_lt.2 hfit)

theorem exec_decode_of_outputFull {s : State} (hbits : s.bitLen.toNat ≤ 8 * s.config.bbufBytes)
    (hfull : s.config.obufBytes < (decodeBits (codeMap s) (encodedBits s)).out.length) :
    exec .decode s = .next
      (report (.capacity (decodeBits (codeMap s) (encodedBits s)).out.length .outputFull) s) := by
  rcases execDecode_cases s with ⟨hlong, -⟩ | ⟨-, -, hr⟩ | ⟨-, hroom, -⟩ | ⟨-, hroom, -⟩
  · exact absurd hlong (Nat.not_lt.2 hbits)
  · exact hr
  all_goals exact absurd hfull (Nat.not_lt.2 hroom)

/-- Settles O36: both commands check their operand first and the size of their result next. -/
theorem decodeAndPackCapacityErrors : Obligations.DecodeAndPackCapacityErrors := by
  refine fun s => ⟨?_, exec_decode_of_outputFull, exec_pack_of_outputFull⟩
  rintro hlong i (rfl | rfl)
  · rw [exec_decode_of_bitsTooLong hlong, report_bitsTooLongError]
  · rw [exec_pack_of_bitsTooLong hlong, report_bitsTooLongError]

/-! ### The three ways a command ends (R158) -/

/-- `finish OK`, whether or not a result was written. -/
theorem endsAsCommandsDo_finishOk {s u : State} (hu : u.esticky = s.esticky) :
    EndsAsCommandsDo s (finishOk u) :=
  .inl ⟨⟨rfl, rfl, rfl⟩, hu⟩

theorem statusOf_eq_ofNat (code : BitVec 3) : statusOf code = BitVec.ofNat 8 code.toNat :=
  (BitVec.ofNat_toNat 8 code).symm

/-- `raise K`: a report on the state before the command, of a kind without a result. -/
theorem endsAsCommandsDo_raise {e : CmdError} (he : e.code.toNat ∈ [2, 3, 5, 6]) (s : State) :
    EndsAsCommandsDo s (report e s) :=
  .inr (.inl ⟨_, he, statusOf_eq_ofNat e.code, rfl, rfl⟩)

/-- `finish K`: a report, of a kind with a result, after the result was written. -/
theorem endsAsCommandsDo_deliver {e : CmdError} (he : e.code.toNat ∈ [1, 4]) {s u : State}
    (hu : u.esticky = s.esticky) : EndsAsCommandsDo s (report e u) :=
  .inr (.inr ⟨_, he, statusOf_eq_ofNat e.code, hu ▸ rfl⟩)

theorem endsAsCommandsDo_capacity (n : Nat) (why : CapacityReason) (s : State) :
    EndsAsCommandsDo s (report (.capacity n why) s) :=
  endsAsCommandsDo_raise (e := .capacity n why) (by simp [CmdError.code]) s

/-- A failing check among the entries is a MalformedContainer (R84, R124). -/
theorem malformed_of_parseEntries_error {bs : List Byte} {count p : Nat} {tab : CodeMap}
    {e : CmdError} (h : parseEntries bs count p tab = .error e) :
    ∃ q why, e = .malformedContainer q why := by
  induction count generalizing p tab with
  | zero => cases h
  | succ count ih =>
    simp only [parseEntries] at h
    repeat' split at h
    case isFalse.isFalse.isFalse.isFalse.isFalse => exact ih h
    all_goals exact ⟨_, _, (Except.error.inj h).symm⟩

/-- A container that does not parse is a MalformedContainer (R153). -/
theorem malformed_of_parseContainer_error {bs : List Byte} {e : CmdError}
    (h : parseContainer bs = .error e) : ∃ q why, e = .malformedContainer q why := by
  simp only [parseContainer] at h
  split at h
  · exact ⟨_, _, (Except.error.inj h).symm⟩
  split at h
  · exact ⟨_, _, (Except.error.inj h).symm⟩
  exact malformed_of_parseEntries_error h

/-- Each end of each command is one of the three ways (R158): BUILD and DECODE alone report on a
result. -/
theorem exec_endsAsCommandsDo (i : Instr) (s : State) :
    ∃ t, exec i s = .next t ∧ EndsAsCommandsDo s t := by
  cases i with
  | count =>
    rcases execCount_cases s with ⟨-, hr⟩ | ⟨-, hr⟩
    · exact ⟨_, hr, endsAsCommandsDo_capacity _ _ s⟩
    · exact ⟨_, hr, endsAsCommandsDo_finishOk rfl⟩
  | build =>
    rcases execBuild_cases s with ⟨-, hr⟩ | ⟨-, hr⟩
    · exact ⟨_, hr, endsAsCommandsDo_deliver (by decide) (writeBuild_esticky s)⟩
    · exact ⟨_, hr, endsAsCommandsDo_finishOk (writeBuild_esticky s)⟩
  | encode =>
    rcases execEncode_cases s with ⟨-, hr⟩ | ⟨-, e, he, hr⟩ | ⟨-, n, -, -, hr⟩ | ⟨-, n, -, -, hr⟩
    · exact ⟨_, hr, endsAsCommandsDo_capacity _ _ s⟩
    · obtain ⟨k, x, -, -, rfl, -⟩ := encodedLength_error he
      exact ⟨_, hr, endsAsCommandsDo_raise (by simp [CmdError.code]) s⟩
    · exact ⟨_, hr, endsAsCommandsDo_capacity _ _ s⟩
    · exact ⟨_, hr, endsAsCommandsDo_finishOk (writeEncoded_esticky s _)⟩
  | decode =>
    rcases execDecode_cases s with ⟨-, hr⟩ | ⟨-, -, hr⟩ | ⟨-, -, -, hr⟩ | ⟨-, -, -, hr⟩
    · exact ⟨_, hr, endsAsCommandsDo_capacity _ _ s⟩
    · exact ⟨_, hr, endsAsCommandsDo_capacity _ _ s⟩
    · exact ⟨_, hr, endsAsCommandsDo_finishOk (writeOutput_esticky s _)⟩
    · exact ⟨_, hr,
        endsAsCommandsDo_deliver (by simp [CmdError.code]) (writeOutput_esticky s _)⟩
  | pack =>
    rcases execPack_cases s with ⟨-, hr⟩ | ⟨-, -, hr⟩ | ⟨-, -, hr⟩
    · exact ⟨_, hr, endsAsCommandsDo_capacity _ _ s⟩
    · exact ⟨_, hr, endsAsCommandsDo_capacity _ _ s⟩
    · exact ⟨_, hr, endsAsCommandsDo_finishOk (writeOutput_esticky s _)⟩
  | unpack =>
    rcases execUnpack_cases s with
      ⟨-, hr⟩ | ⟨-, e, he, hr⟩ | ⟨-, _, _, -, -, hr⟩ | ⟨-, _, _, -, -, hr⟩
    · exact ⟨_, hr, endsAsCommandsDo_capacity _ _ s⟩
    · obtain ⟨q, why, rfl⟩ := malformed_of_parseContainer_error he
      exact ⟨_, hr, endsAsCommandsDo_raise (by simp [CmdError.code]) s⟩
    · exact ⟨_, hr, endsAsCommandsDo_capacity _ _ s⟩
    · exact ⟨_, hr, endsAsCommandsDo_finishOk (writeUnpacked_esticky s _ _)⟩

theorem step_of_cmd_write {s : State} {v : HostWord} {rest : List HostAction}
    (hscript : s.script = .write 0 0x00 v :: rest) :
    step s = startCommand (v.setWidth 8) { s with script := rest } :=
  step_of_write hscript (l := .scalar .cmd) rfl

/-- Settles O51: a `CMD` write runs a command, which ends in one of the three ways, or raises
IllegalCommand, which is one of them. -/
theorem commandsEndInThreeWays : Obligations.CommandsEndInThreeWays := by
  refine ⟨exec_endsAsCommandsDo, fun s v rest hscript => ?_⟩
  rw [step_of_cmd_write hscript]
  rcases startCommand_cases (v.setWidth 8) { s with script := rest } with
    ⟨i, -, hr⟩ | ⟨op, -, hr⟩
  · rw [hr]
    exact exec_endsAsCommandsDo i _
  · exact ⟨_, hr, endsAsCommandsDo_raise (by simp [CmdError.code]) _⟩

end Sys2Proof.Machine
end

section
/-!
PROOFS. The hardware reset, and each command on the reset state (spec/70_reset_and_hazards.md R175,
R177). On that state there is no input byte, no bit and no code, so each command runs its empty
case.
-/

namespace Sys2Proof.Machine

open Sys2Proof

/-! ### The hardware reset (R175) -/

/-- A step whose next action is a hardware reset performs it. -/
theorem step_of_hardReset {s : State} {rest : List HostAction}
    (hscript : s.script = .hardReset :: rest) :
    step s = .next (hardReset { s with script := rest }) :=
  step_of_script hscript

/-- Settles O18: the register files of the hardware reset are filled with 0 and its other registers
are 0. -/
theorem hardwareResetClearsRegisters : Obligations.HardwareResetClearsRegisters := by
  intro s rest hscript
  exact ⟨_, step_of_hardReset hscript,
    fun x => ⟨symGet_replicate 0 x, symGet_replicate 0 x, symGet_replicate 0 x⟩,
    rfl, rfl, rfl, rfl, rfl, rfl, rfl, rfl, rfl, rfl, rfl, rfl, rfl⟩

/-! ### The empty case of a command -/

theorem encodedBits_eq_nil {s : State} (h : s.bitLen = 0) : encodedBits s = [] :=
  List.eq_nil_of_length_eq_zero (by rw [length_encodedBits, h]; rfl)

/-- DECODE of no bit stores no byte (R108). -/
theorem execDecode_empty {s : State} (h : s.bitLen = 0) :
    execDecode s = .next (finishOk (writeOutput s [])) := by
  have hcases := execDecode_cases s
  rw [encodedBits_eq_nil h] at hcases
  rcases hcases with ⟨hlong, -⟩ | ⟨-, hfull, -⟩ | ⟨-, -, -, hr⟩ | ⟨-, -, hres, -⟩
  · simp [h] at hlong
  · exact absurd hfull (Nat.not_lt_zero _)
  · exact hr
  · exact absurd rfl hres

/-- BUILD of the map without a counter writes no node and no code and reports EmptyInput (R95). -/
theorem exec_build_of_freq_zero {s : State} (hz : ∀ x, symGet s.freq x = 0) :
    ∃ t, exec .build s = .next t ∧ t.nodes = [] ∧
      (∀ x, symGet t.clen x = 0 ∧ symGet t.cbits x = 0) ∧
      t.status = 1 ∧ t.errPos = 0 ∧ t.errAux = 0 ∧ t.esticky = s.esticky ||| 0x02 := by
  obtain ⟨t, hr, hpos, haux, hempty, -⟩ := buildReportsTheEmptyMap s
  obtain ⟨hnodes, hcodes, hstatus, hsticky⟩ := hempty hz
  exact ⟨t, hr, hnodes, hcodes, hstatus, hpos, haux, hsticky⟩

/-- UNPACK of an empty input reports that the symbol count is truncated (R84 sub-reason 1). -/
theorem exec_unpack_empty {s : State} (h : s.inLen = 0) :
    exec .unpack s = .next { s with
      status := 3, errPos := 0, errAux := 1, esticky := s.esticky ||| 0x08 } := by
  have hshort : (inputBytes s).length < 8 := by simp [h]
  exact exec_unpack_malformed (by simp [h]) (if_pos hshort)

/-- Each of eight zero bytes stored by a command reads as 0. -/
theorem readByte_writeOutput_zeros (s : State) {a : Nat} (ha : a < 8) :
    readByte (writeOutput s [0, 0, 0, 0, 0, 0, 0, 0]) .obuf a = 0 := by
  have hread := readByte_writeBytes s .obuf .obuf 0 a (List.replicate 8 0)
  rw [if_pos ⟨rfl, Nat.zero_le a, by simpa using ha⟩, Nat.sub_zero] at hread
  exact hread.trans (List.getD_replicate 0 ha)

/-! ### The reset state (R177) -/

/-- Settles O20: the empty case of each command, on a state whose registers are 0. -/
theorem commandsOnTheResetState : Obligations.CommandsOnTheResetState := by
  intro c d e hcap s
  have hcodes : codeDomain s = [] := symbolsWith_eq_nil (symGet_replicate 0)
  have hsticky (bit : Byte) : s.esticky ||| bit = bit := BitVec.zero_or
  have hbuild := exec_build_of_freq_zero (s := s) (symGet_replicate 0)
  have hunpack := exec_unpack_empty (s := s) rfl
  rw [hsticky] at hbuild hunpack
  exact ⟨⟨_, execCount_empty rfl, symGet_replicate 0⟩, hbuild, execEncode_empty rfl,
    execDecode_empty rfl, ⟨_, execPack_empty hcodes rfl hcap,
      fun _ ha => readByte_writeOutput_zeros s ha⟩, hunpack⟩

end Sys2Proof.Machine
end
